-- ==== Sys2Proof/Word.lean ====
section
/-! DEFINITION. The fixed widths of BitMix32 (00_scope.md R7): states, raw values, pixels and responses are
32 bits, a channel is 8 bits, a command word is 64 bits. Every value is unsigned (R10). -/

namespace Sys2Proof

/-- A 32-bit value: the generator state, a raw value, a packed pixel, a response, an immediate (R7). -/
abbrev Word := BitVec 32

/-- An 8-bit channel value, and a byte of host memory (R7, 20_memory.md R41). -/
abbrev Byte := BitVec 8

/-- A 64-bit command word, moved over the command port as one unit (R7, 20_memory.md R43). -/
abbrev CommandWord := BitVec 64

end Sys2Proof
end

