-- ==== Sys2Proof/Syntax.lean ====
section
/-! DEFINITION. The commands of BitMix32, one constructor per row of spec/opcode_table.json. A decoded command carries
its reserved field and its immediate as received (30_encoding.md R65): both are checked when it is performed (R174). -/

namespace Sys2Proof

/-- The ten commands (30_encoding.md R64). `rsv` is RSV [63:40] and `imm` is IMM [31:0] of the word (R60). -/
inductive Instr where
  /-- OP 0x00, 42_control.md R120. -/
  | nop (rsv : BitVec 24) (imm : Word)
  /-- OP 0x01, 40_generator.md R82. -/
  | seed (rsv : BitVec 24) (imm : Word)
  /-- OP 0x02, 40_generator.md R83. -/
  | next (rsv : BitVec 24) (imm : Word)
  /-- OP 0x03, 40_generator.md R84. -/
  | step (rsv : BitVec 24) (imm : Word)
  /-- OP 0x04, 41_encoder.md R102. -/
  | setmode (rsv : BitVec 24) (imm : Word)
  /-- OP 0x05, 41_encoder.md R103. -/
  | enc (rsv : BitVec 24) (imm : Word)
  /-- OP 0x06, 41_encoder.md R105. -/
  | draw (rsv : BitVec 24) (imm : Word)
  /-- OP 0x07, 41_encoder.md R104. -/
  | enci (rsv : BitVec 24) (imm : Word)
  /-- OP 0x08, 42_control.md R121. -/
  | clrerr (rsv : BitVec 24) (imm : Word)
  /-- OP 0x09, 42_control.md R122. -/
  | rdreg (rsv : BitVec 24) (imm : Word)
  deriving DecidableEq, Repr

/-- The four operand forms of 30_encoding.md R63. -/
inductive OperandForm where
  /-- IMM is ignored and must be 0. -/
  | none
  /-- IMM is the whole 32-bit operand. -/
  | u32
  /-- IMM[0] is the operand, the other bits must be 0. -/
  | bit
  /-- IMM is a register index, at most 3. -/
  | index
  deriving DecidableEq, Repr

/-- The RSV field of a command as received. -/
def Instr.rsv : Instr → BitVec 24
  | .nop r _ | .seed r _ | .next r _ | .step r _ | .setmode r _ => r
  | .enc r _ | .draw r _ | .enci r _ | .clrerr r _ | .rdreg r _ => r

/-- The IMM field of a command as received. -/
def Instr.imm : Instr → Word
  | .nop _ v | .seed _ v | .next _ v | .step _ v | .setmode _ v => v
  | .enc _ v | .draw _ v | .enci _ v | .clrerr _ v | .rdreg _ v => v

end Sys2Proof
end

