-- ==== Sys2Proof/Decode.lean ====
section
/-! DEFINITION. The command word format CMD64 and the opcode map (30_encoding.md R60-R67): fields, decoder, encoder,
and the table's own mask and match columns. -/

namespace Sys2Proof

/-- `RSV`, bits [63:40] (R60). -/
def rsvField (w : CommandWord) : BitVec 24 := w.extractLsb' 40 24

/-- `OP`, bits [39:32] (R60). -/
def opField (w : CommandWord) : BitVec 8 := w.extractLsb' 32 8

/-- `IMM`, bits [31:0] (R60). -/
def immField (w : CommandWord) : Word := w.extractLsb' 0 32

/-- The one outcome every 64-bit word has (R65). -/
inductive Decoded where
  /-- A command with its reserved field and its immediate, not yet checked. -/
  | command (i : Instr)
  /-- `OP` is 0x0A to 0xFF: performing the word records ILLEGAL_OPCODE (R66). -/
  | illegalOpcode (op : BitVec 8)
  deriving DecidableEq, Repr

/-- Decoding is total and selects by `OP` alone (R64, R65). -/
def decode (w : CommandWord) : Decoded :=
  let rsv := rsvField w
  let imm := immField w
  match (opField w).toNat with
  | 0x00 => .command (.nop rsv imm)
  | 0x01 => .command (.seed rsv imm)
  | 0x02 => .command (.next rsv imm)
  | 0x03 => .command (.step rsv imm)
  | 0x04 => .command (.setmode rsv imm)
  | 0x05 => .command (.enc rsv imm)
  | 0x06 => .command (.draw rsv imm)
  | 0x07 => .command (.enci rsv imm)
  | 0x08 => .command (.clrerr rsv imm)
  | 0x09 => .command (.rdreg rsv imm)
  | _ => .illegalOpcode (opField w)

/-- The instruction the decoder reads from a table word of `nbits` bits: all bits above `nbits` are 0, and no command
is longer than 64 bits (R62). -/
def decodeTableWord (nbits w : Nat) : Option Instr :=
  if nbits ≤ 64 then
    match decode (BitVec.ofNat 64 (w % 2 ^ nbits)) with
    | .command i => some i
    | .illegalOpcode _ => none
  else none

/-- The `OP` value of each command (R64). -/
def Instr.opcode : Instr → BitVec 8
  | .nop _ _ => 0x00
  | .seed _ _ => 0x01
  | .next _ _ => 0x02
  | .step _ _ => 0x03
  | .setmode _ _ => 0x04
  | .enc _ _ => 0x05
  | .draw _ _ => 0x06
  | .enci _ _ => 0x07
  | .clrerr _ _ => 0x08
  | .rdreg _ _ => 0x09

/-- The word `{RSV, OP, IMM}` of three fields (R60). -/
def commandWord (rsv : BitVec 24) (op : BitVec 8) (imm : Word) : CommandWord := rsv ++ op ++ imm

/-- The word of a command (R60, R64). -/
def encode (i : Instr) : CommandWord := commandWord i.rsv i.opcode i.imm

/-- The `match` column of the command's row in spec/opcode_table.json. -/
def Instr.matchPattern : Instr → CommandWord
  | .nop _ _ => 0x0000000000000000
  | .seed _ _ => 0x0000000100000000
  | .next _ _ => 0x0000000200000000
  | .step _ _ => 0x0000000300000000
  | .setmode _ _ => 0x0000000400000000
  | .enc _ _ => 0x0000000500000000
  | .draw _ _ => 0x0000000600000000
  | .enci _ _ => 0x0000000700000000
  | .clrerr _ _ => 0x0000000800000000
  | .rdreg _ _ => 0x0000000900000000

/-- The `mask` column, the same in every row (R65). -/
def opcodeMask : CommandWord := 0x000000FF00000000

end Sys2Proof
end

