-- ==== Sys2Proof/Config.lean ====
section
/-! DEFINITION. The parameters of 00_scope.md R8. The literals are the source's and are unaudited (log entry 10). -/

namespace Sys2Proof.Config

/-- `SHIFT_A` (R8). -/
def shiftA : Nat := 13
/-- `SHIFT_B` (R8). -/
def shiftB : Nat := 17
/-- `SHIFT_C` (R8). -/
def shiftC : Nat := 5
/-- `WARMUP` (R8). -/
def warmup : Nat := 100
/-- `MAX_PIXELS` (R8, 90_conflicts.md C2). -/
def maxPixels : Nat := 2 ^ 32 - 1

/-- One less than `NUM_UNITS`, which R8 leaves OPEN: no body, so every claim holds for every value (log entry 3). -/
opaque extraUnits : Nat

/-- `NUM_UNITS`, at least 1 (R8). -/
def numUnits : Nat := extraUnits + 1

/-- The four OPEN seed-derivation constants of R8. No value is given by the source, so the host procedures take
them as an argument (log entry 11). -/
structure SeedConstants where
  seedMul : Word
  seedAdd : Word
  rowMul : Word
  rowAdd : Word
  deriving DecidableEq, Repr

/-- What R8 says of the four constants: `SEED_MUL` is odd and the two pairs differ. -/
def SeedConstants.admissible (c : SeedConstants) : Bool :=
  c.seedMul.getLsbD 0 && !(c.rowMul == c.seedMul && c.rowAdd == c.seedAdd)

end Sys2Proof.Config
end

