-- ==== Sys2Proof/Machine/State.lean ====
section
/-! DEFINITION. The state of the system: every unit's registers, every port, host memory and the host's own variables,
and the agenda that says what the environment does next. Plain data throughout. -/

namespace Sys2Proof.Machine

/-- The encoder mode (10_state.md R26): 0 is Grayscale, 1 is Colorful. -/
inductive Mode where
  | grayscale
  | colorful
  deriving DecidableEq, Repr

/-- The registers of one unit: exactly the seven of 10_state.md R20. -/
structure UnitState where
  /-- `X`, the generator state (R21). Holds no value while `seeded` is false (R23). -/
  x : Word
  /-- `SEEDED` (R23). -/
  seeded : Bool
  /-- `RAW`, the last raw value drawn (R24). -/
  raw : Word
  /-- `PIX`, the last PixelSample (R25). -/
  pix : Word
  /-- `MODE` (R26). -/
  mode : Mode
  /-- `ERR`, the sticky error flag (R27). -/
  err : Bool
  /-- `ECODE`, the first error code since the last clear (R28). -/
  ecode : BitVec 4
  deriving DecidableEq, Repr

/-- A unit right after reset (10_state.md R35). R35 gives `X` no value; the 0 here is DESIGN CHOICE, unsafe, and
never observable (log entry 1). -/
def UnitState.reset : UnitState where
  x := 0
  seeded := false
  raw := 0
  pix := 0
  mode := .grayscale
  err := false
  ecode := 0

/-- One unit's port: at most one command in flight and the response to the last command sent, once it has come
(70_reset_and_hazards.md R194; log entry 4). -/
structure Port where
  /-- The command in flight. -/
  cmd : Option CommandWord
  /-- The response to the last command sent, if it has been given. -/
  resp : Option Word
  deriving DecidableEq, Repr

/-- A port with nothing in flight and nothing answered. -/
def Port.idle : Port where
  cmd := none
  resp := none

/-- Where the word of a command the host sends comes from (44_host_sequences.md R149-R151). -/
inductive CommandSource where
  /-- A word the host holds. -/
  | word (w : CommandWord)
  /-- `SEED m`, with m the host's master variable at that moment (R150). -/
  | seedMaster
  /-- `SEED aff(m, mul, add)`, computed by the host with 32-bit wrap (R150). -/
  | seedAffine (mul add : Word)
  /-- `SEED aff(d_row, mul, add)`, with `d_row` the master draw the host has taken for that row (R144, R151). -/
  | seedRow (row : Nat) (mul add : Word)
  deriving DecidableEq, Repr

/-- What the host does besides sending commands (44_host_sequences.md). -/
inductive HostAction where
  /-- The dimension check (R141). -/
  | checkDimensions (width height : Word)
  /-- Allocate the zero-initialised RasterBuffer at `base` (20_memory.md R42). -/
  | allocate (base : Nat) (width height : Word)
  /-- `m <- ` the response of unit `k` (R150). -/
  | takeMaster (k : Nat)
  /-- `d_row <- ` the response of unit `k`, which is the master state too: `m <- d_row` (R144, R150, R151). -/
  | takeDraw (k row : Nat)
  /-- Write the pixel that unit `k` answered to slot `slot`, the three bytes from `BUF + 3 * slot` (R148). -/
  | storePixel (k slot : Nat)
  /-- Hand the RasterBuffer to the raster-encoding collaborator (R152, 60_exceptions.md R179). -/
  | handOff (width height : Word)
  deriving DecidableEq, Repr

/-- What the environment does next. -/
inductive Event where
  /-- The host hands a command to unit `k`'s port (00_scope.md R2, R194). -/
  | send (k : Nat) (src : CommandSource)
  /-- Unit `k` completes the command in flight on its port, if there is one (R197). -/
  | complete (k : Nat)
  /-- Unit `k` is reset (70_reset_and_hazards.md R190). -/
  | reset (k : Nat)
  /-- The host acts on its own state. -/
  | host (a : HostAction)
  deriving DecidableEq, Repr

/-- A RasterBuffer (20_memory.md R41, R42). Its bytes are in host memory. -/
structure Buffer where
  /-- The byte address `BUF`. -/
  base : Nat
  /-- How many bytes it has. -/
  bytes : Nat
  /-- The slots the host has written so far, rising: each may be written once only (R42). -/
  written : List Nat
  deriving DecidableEq, Repr

/-- The whole system. -/
structure State where
  /-- The units' registers by unit number; a unit not listed is as reset leaves it. Canonical (Machine/Sparse.lean). -/
  units : List (Nat × UnitState)
  /-- The ports by unit number; a port not listed is idle. Canonical. -/
  ports : List (Nat × Port)
  /-- The unit that performs (or last performed) a command. The model's own. -/
  active : Nat
  /-- What the environment does next, in order. The model's own (log entry 2). -/
  agenda : List Event
  /-- Host memory: the bytes that hold a value, addresses strictly rising (log entry 6). -/
  hostMem : List Host.Cell
  /-- The host's master variable m (44_host_sequences.md R150). -/
  hostMaster : Word
  /-- The master draws the host has taken, by row, rows strictly rising (44_host_sequences.md R144, R151). -/
  hostDraws : List (Nat × Word)
  /-- The RasterBuffer the host is filling, from its allocation to its hand-off. -/
  buffer : Option Buffer
  /-- The RasterBuffers handed off (moved) to the raster-encoding collaborator, the latest first: no byte of theirs is
  written again (20_memory.md R42, 44_host_sequences.md R152). -/
  handedOff : List Buffer
  deriving DecidableEq, Repr

/-- The system before anything has happened: every unit as reset leaves it (10_state.md R35, 60_exceptions.md R182),
every port idle, nothing on the agenda. The host's fields and the model's own are DESIGN CHOICE (log entries 2, 4, 9). -/
def State.reset : State where
  units := []
  ports := []
  active := 0
  agenda := []
  hostMem := []
  hostMaster := 0
  hostDraws := []
  buffer := none
  handedOff := []

/-- Why a run stops with a fault. No command raises one: the block's own errors are recorded and the unit goes on
(60_exceptions.md R172, R173). -/
inductive Fault where
  /-- Raised by `send` and `reset` events for a port number not below `NUM_UNITS`: no such port exists
  (60_exceptions.md R182). Safe. -/
  | noSuchUnit (k : Nat)
  /-- DIMENSION_OVERFLOW, raised by the dimension check; fatal to the run (60_exceptions.md R179,
  44_host_sequences.md R141). Safe. -/
  | dimensionOverflow
  /-- SHAPE_MISMATCH, raised at hand-off when the buffer's byte count is not W*H*3 (60_exceptions.md R179). Safe. -/
  | shapeMismatch
  /-- The host waits for a response that never comes, because nothing was sent or the command was abandoned by a
  reset: stuck (93_implementation_defined.md U6). Safe. -/
  | noResponse (k : Nat)
  deriving DecidableEq, Repr

/-- Which of its own rules the host broke. -/
inductive HostBreach where
  /-- A buffer action before any buffer was allocated (20_memory.md R42). -/
  | noBuffer
  /-- A second allocation before hand-off (R42: "no resizing or reallocation occurs mid-fill"). -/
  | reallocation
  /-- A pixel written outside the buffer (44_host_sequences.md R147). -/
  | outsideBuffer
  /-- A slot written a second time (R42, R147: "each of the W * H slots is written exactly once"). -/
  | slotWrittenTwice
  /-- A write after hand-off, a second hand-off, or an allocation over a buffer already handed off (R42, R152). -/
  | afterHandOff
  /-- A hand-off before every slot was written (R152). -/
  | incompleteHandOff
  /-- A row's seed sent before the row's master draw was taken (R144, R151). -/
  | drawNotTaken
  deriving DecidableEq, Repr

/-- Why a run is refused. -/
inductive Refusal where
  /-- An instruction whose meaning is not written. No arm of exec answers it: all ten commands are modelled. Safe. -/
  | notModelled (mnemonic : String)
  /-- Raised by host actions outside the conforming host of 44_host_sequences.md: the spec makes no claim about such a
  run's buffer (93_implementation_defined.md U7, U14). Safe (log entry 8). -/
  | nonconformingHost (why : HostBreach)
  deriving DecidableEq, Repr

/-- What one command, event or step answers. -/
abbrev Result := Host.Outcome State Fault Refusal

end Sys2Proof.Machine
end

