-- ==== Sys2Proof/Machine/Sparse.lean ====
section
/-! DEFINITION. Data by number, held as a list of (number, value) pairs with strictly rising numbers. Units, ports and
host memory are all held this way. -/

namespace Sys2Proof.Machine

/-- The value listed for `k`, if there is one. -/
def sparseFind {α : Type} : List (Nat × α) → Nat → Option α
  | [], _ => none
  | (j, v) :: rest, k => if j = k then some v else sparseFind rest k

/-- List `v` for `k`, in place of any value listed for it, keeping the numbers rising. -/
def sparseInsert {α : Type} : List (Nat × α) → Nat → α → List (Nat × α)
  | [], k, v => [(k, v)]
  | (j, u) :: rest, k, v =>
    if k < j then (k, v) :: (j, u) :: rest
    else if k = j then (k, v) :: rest
    else (j, u) :: sparseInsert rest k v

/-- List nothing for `k`. -/
def sparseErase {α : Type} (l : List (Nat × α)) (k : Nat) : List (Nat × α) :=
  l.filter fun e => e.1 != k

/-- The value for `k`, where an unlisted number holds `dflt`. -/
def sparseGet {α : Type} (dflt : α) (l : List (Nat × α)) (k : Nat) : α :=
  (sparseFind l k).getD dflt

/-- Make `v` the value for `k`, listing nothing where `v` is what an unlisted number holds. -/
def sparseSet {α : Type} [DecidableEq α] (dflt : α) (l : List (Nat × α)) (k : Nat) (v : α) : List (Nat × α) :=
  if v = dflt then sparseErase l k else sparseInsert l k v

/-- Strictly rising numbers. -/
def sparseRising {α : Type} : List (Nat × α) → Bool
  | [] => true
  | [_] => true
  | (j, _) :: (k, v) :: rest => decide (j < k) && sparseRising ((k, v) :: rest)

/-- The canonical form: strictly rising numbers, and nothing listed that an unlisted number holds anyway. -/
def sparseCanonical {α : Type} [DecidableEq α] (dflt : α) (l : List (Nat × α)) : Bool :=
  sparseRising l && l.all fun e => decide (e.2 ≠ dflt)

end Sys2Proof.Machine
end

