-- ==== Sys2Proof/Machine/Ops.lean ====
section
/-! DEFINITION. The named operations over the state: one unit's registers, one unit's port, host memory, the response,
and error recording with its clearing. -/

namespace Sys2Proof.Machine

/-- The registers of unit `k`. -/
def State.unit (s : State) (k : Nat) : UnitState := sparseGet UnitState.reset s.units k

/-- Replace the registers of unit `k`. -/
def State.setUnit (s : State) (k : Nat) (u : UnitState) : State :=
  { s with units := sparseSet UnitState.reset s.units k u }

/-- The port of unit `k`. -/
def State.port (s : State) (k : Nat) : Port := sparseGet Port.idle s.ports k

/-- Replace the port of unit `k`. -/
def State.setPort (s : State) (k : Nat) (p : Port) : State :=
  { s with ports := sparseSet Port.idle s.ports k p }

/-- The registers of the unit that performs the command. -/
def State.regs (s : State) : UnitState := s.unit s.active

/-- Replace the registers of the unit that performs the command. -/
def State.setRegs (s : State) (u : UnitState) : State := s.setUnit s.active u

/-- `resp <- v`: the unit returns the one response of the command it performs (00_scope.md R11, 30_encoding.md R61). -/
def State.respond (s : State) (v : Word) : State :=
  s.setPort s.active { s.port s.active with resp := some v }

/-- Whether unit `k` exists: unit numbers run below `NUM_UNITS` (00_scope.md R6). Unit 0 always does (R8). -/
def unitExists (k : Nat) : Bool := k == 0 || decide (k ≤ Config.extraUnits)

/-- `MemRead(addr, 1)` of 00_scope.md R11: the byte at an address of host memory, none where none was ever written
(log entry 6). -/
def State.memRead (s : State) (addr : Nat) : Option Byte := sparseFind s.hostMem addr

/-- `MemWrite(addr, 1, v)` of 00_scope.md R11. -/
def State.memWrite (s : State) (addr : Nat) (v : Byte) : State :=
  { s with hostMem := sparseInsert s.hostMem addr v }

/-- The canonical form of host memory: addresses strictly rising. An unlisted address holds no value, so no listed
byte equals what it reads as. -/
def Memory.wf (m : List Host.Cell) : Bool := sparseRising m

/-- The errors a command can raise (60_exceptions.md R170). -/
inductive ErrorCode where
  | illegalOpcode
  | reservedField
  | unseeded
  deriving DecidableEq, Repr

/-- The ECODE value of an error (60_exceptions.md R170). 0 is NONE; 4 to 15 are never produced. -/
def ErrorCode.code : ErrorCode → BitVec 4
  | .illegalOpcode => 1
  | .reservedField => 2
  | .unseeded => 3

/-- The registers after `raise Error(c)` (60_exceptions.md R172): ERR is set, and ECODE is written only if ERR was 0. -/
def UnitState.recordError (u : UnitState) (c : ErrorCode) : UnitState :=
  { u with ecode := if u.err then u.ecode else c.code, err := true }

/-- The registers after the error record is cleared (42_control.md R121): the only way back, as there is no trap to
return from (60_exceptions.md R173). -/
def UnitState.clearError (u : UnitState) : UnitState := { u with err := false, ecode := 0 }

/-- `raise Error(c)` (60_exceptions.md R172): the one operation by which a command fails. The record is made, the
response is 0, and every other write of the command is suppressed. The unit goes on. -/
def State.raiseError (s : State) (c : ErrorCode) : State :=
  (s.setRegs (s.regs.recordError c)).respond 0

/-- A command's effect takes place: its registers and its response are written together (20_memory.md R46). -/
def State.commit (s : State) (effect : UnitState × Word) : State :=
  (s.setRegs effect.1).respond effect.2

end Sys2Proof.Machine
end

