-- ==== Sys2Proof/Machine/Flags.lean ====
section
/-! DEFINITION. The derived flag ZS and the STATUS word (10_state.md R29, R30). -/

namespace Sys2Proof.Machine

/-- The bit of a mode: 0 Grayscale, 1 Colorful (10_state.md R26). -/
def Mode.bit : Mode → BitVec 1
  | .grayscale => 0
  | .colorful => 1

/-- The mode a bit selects (10_state.md R26). -/
def Mode.ofBit (b : BitVec 1) : Mode := if b = 0 then .grayscale else .colorful

/-- `ZS`, the zero state: `SEEDED AND (X = 0)`, never stored (10_state.md R29). -/
def UnitState.zs (u : UnitState) : Bool := u.seeded && u.x == 0

/-- The STATUS word `{24'b0, ECODE, ERR, ZS, SEEDED, MODE}` (10_state.md R30, 42_control.md R122). -/
def UnitState.status (u : UnitState) : Word :=
  (0 : BitVec 24) ++ u.ecode ++ BitVec.ofBool u.err ++ BitVec.ofBool u.zs ++ BitVec.ofBool u.seeded ++ u.mode.bit

end Sys2Proof.Machine
end

