-- ==== Sys2Proof/Machine/Operands.lean ====
section
/-! DEFINITION. The operand forms and their constraints (30_encoding.md R63), and the ordered checks every command
passes before it has its effect (60_exceptions.md R174). -/

namespace Sys2Proof.Machine

/-- Whether IMM meets the constraint of its form (30_encoding.md R63). -/
def immAdmitted : OperandForm → Word → Bool
  | .none, imm => imm == 0
  | .u32, _ => true
  | .bit, imm => imm.extractLsb' 1 31 == 0
  | .index, imm => decide (imm.toNat ≤ 3)

/-- Checks 2, 3 and 4 of 60_exceptions.md R174, in order: the first that fails decides the one error the command
raises. Check 1 is the decoder's. -/
def firstFailedCheck (rsv : BitVec 24) (form : OperandForm) (imm : Word) (needsSeed : Bool) (u : UnitState) :
    Option ErrorCode :=
  if rsv ≠ 0 then some .reservedField
  else if !immAdmitted form imm then some .reservedField
  else if needsSeed && !u.seeded then some .unseeded
  else none

/-- Perform a command on the active unit: run its checks, then either record the error or commit the effect that its
pseudocode has on the registers, together with its response (60_exceptions.md R172, R174, 20_memory.md R46). -/
def performChecked (rsv : BitVec 24) (form : OperandForm) (imm : Word) (needsSeed : Bool)
    (effect : UnitState → UnitState × Word) (s : State) : Result :=
  match firstFailedCheck rsv form imm needsSeed s.regs with
  | some c => .next (s.raiseError c)
  | none => .next (s.commit (effect s.regs))

end Sys2Proof.Machine
end

