-- ==== Sys2Proof/Machine/Control.lean ====
section
/-! DEFINITION. The control commands NOP, CLRERR, RDREG (42_control.md). -/

namespace Sys2Proof.Machine

/-- The register index map of RDREG (42_control.md R122). An index above 3 never gets here. -/
def UnitState.readRegister (u : UnitState) (index : Word) : Word :=
  match index.toNat with
  | 0 => u.x
  | 1 => u.raw
  | 2 => u.pix
  | _ => u.status

/-- NOP does nothing and returns 0 (42_control.md R120). -/
def execNop (rsv : BitVec 24) (imm : Word) (s : State) : Result :=
  performChecked rsv .none imm false (fun u => (u, 0)) s

/-- CLRERR clears ERR and ECODE (42_control.md R121). -/
def execClrerr (rsv : BitVec 24) (imm : Word) (s : State) : Result :=
  performChecked rsv .none imm false (fun u => (u.clearError, 0)) s

/-- RDREG returns one register; index 0 needs a seeded generator (42_control.md R122, R123). -/
def execRdreg (rsv : BitVec 24) (imm : Word) (s : State) : Result :=
  performChecked rsv .index imm (imm == 0) (fun u => (u, u.readRegister imm)) s

end Sys2Proof.Machine
end

