-- ==== Sys2Proof/Machine/Generator.lean ====
section
/-! DEFINITION. The mix function and the generator commands SEED, NEXT, STEP (40_generator.md). -/

namespace Sys2Proof.Machine

/-- `mix` (40_generator.md R80): three shift-xor steps, each on the value of the step before. -/
def mix (x : Word) : Word :=
  let t1 := x ^^^ (x <<< Config.shiftA)
  let t2 := t1 ^^^ (t1 >>> Config.shiftB)
  t2 ^^^ (t2 <<< Config.shiftC)

/-- `mix^n`, mix applied n times (00_scope.md R11). -/
def mixN : Nat → Word → Word
  | 0, x => x
  | n + 1, x => mixN n (mix x)

/-- SEED loads X from the immediate (40_generator.md R82). -/
def execSeed (rsv : BitVec 24) (imm : Word) (s : State) : Result :=
  performChecked rsv .u32 imm false (fun u => ({ u with x := imm, seeded := true }, 0)) s

/-- NEXT draws once: X and RAW become mix of X, which is also the response (40_generator.md R83). -/
def execNext (rsv : BitVec 24) (imm : Word) (s : State) : Result :=
  performChecked rsv .none imm true (fun u => ({ u with x := mix u.x, raw := mix u.x }, mix u.x)) s

/-- STEP draws IMM times and discards the values (40_generator.md R84). -/
def execStep (rsv : BitVec 24) (imm : Word) (s : State) : Result :=
  performChecked rsv .u32 imm true (fun u => ({ u with x := mixN imm.toNat u.x }, 0)) s

end Sys2Proof.Machine
end

