-- ==== Sys2Proof/Machine/Encoder.lean ====
section
/-! DEFINITION. The pixel encoder and its commands SETMODE, ENC, ENCI, DRAW (41_encoder.md). -/

namespace Sys2Proof.Machine

/-- `zext_32({B, G, R})`: the PIX word of three channels (41_encoder.md R100, 10_state.md R25). -/
def packPixel (r g b : Byte) : Word := (b ++ g ++ r).setWidth 32

/-- `enc(v, m)` (41_encoder.md R100). Grayscale replicates `v mod 256`; Colorful takes bytes 0, 1 and 2, each by a left
shift and then a logical right shift. -/
def pixelEncode (v : Word) : Mode → Word
  | .grayscale =>
    let g : Byte := BitVec.ofNat 8 (v.toNat % 256)
    packPixel g g g
  | .colorful =>
    let r : Byte := ((v <<< 24) >>> 24).setWidth 8
    let g : Byte := ((v <<< 16) >>> 24).setWidth 8
    let b : Byte := ((v <<< 8) >>> 24).setWidth 8
    packPixel r g b

/-- SETMODE selects the mode by IMM[0] (41_encoder.md R102). -/
def execSetmode (rsv : BitVec 24) (imm : Word) (s : State) : Result :=
  performChecked rsv .bit imm false (fun u => ({ u with mode := Mode.ofBit (imm.extractLsb' 0 1) }, 0)) s

/-- ENC encodes RAW under the current mode (41_encoder.md R103). -/
def execEnc (rsv : BitVec 24) (imm : Word) (s : State) : Result :=
  performChecked rsv .none imm false
    (fun u => ({ u with pix := pixelEncode u.raw u.mode }, pixelEncode u.raw u.mode)) s

/-- ENCI encodes the immediate under the current mode; RAW is not written (41_encoder.md R104). -/
def execEnci (rsv : BitVec 24) (imm : Word) (s : State) : Result :=
  performChecked rsv .u32 imm false
    (fun u => ({ u with pix := pixelEncode imm u.mode }, pixelEncode imm u.mode)) s

/-- DRAW draws once and encodes the drawn value (41_encoder.md R105). -/
def execDraw (rsv : BitVec 24) (imm : Word) (s : State) : Result :=
  performChecked rsv .none imm true
    (fun u =>
      let v := mix u.x
      ({ u with x := v, raw := v, pix := pixelEncode v u.mode }, pixelEncode v u.mode)) s

end Sys2Proof.Machine
end

