-- ==== Sys2Proof/Machine/Dispatch.lean ====
section
/-! DEFINITION. One arm per command: the active unit performs a decoded command. -/

namespace Sys2Proof.Machine

def exec (i : Instr) (s : State) : Host.Outcome State Fault Refusal :=
  match i with
  | .nop rsv imm => Sys2Proof.Machine.execNop rsv imm s
  | .seed rsv imm => Sys2Proof.Machine.execSeed rsv imm s
  | .next rsv imm => Sys2Proof.Machine.execNext rsv imm s
  | .step rsv imm => Sys2Proof.Machine.execStep rsv imm s
  | .setmode rsv imm => Sys2Proof.Machine.execSetmode rsv imm s
  | .enc rsv imm => Sys2Proof.Machine.execEnc rsv imm s
  | .draw rsv imm => Sys2Proof.Machine.execDraw rsv imm s
  | .enci rsv imm => Sys2Proof.Machine.execEnci rsv imm s
  | .clrerr rsv imm => Sys2Proof.Machine.execClrerr rsv imm s
  | .rdreg rsv imm => Sys2Proof.Machine.execRdreg rsv imm s

end Sys2Proof.Machine
end

