-- ==== Sys2Proof/Machine/Perform.lean ====
section
/-! DEFINITION. The command port: a command is handed over, and later the unit takes it from its port, decodes it,
performs it completely and responds (00_scope.md R2, 70_reset_and_hazards.md R194, R196). -/

namespace Sys2Proof.Machine

/-- Whether a command is in flight on unit `k`'s port. -/
def State.busy (s : State) (k : Nat) : Bool := (s.port k).cmd.isSome

/-- The command is in flight and has no response yet (70_reset_and_hazards.md R194). -/
def State.handOver (s : State) (k : Nat) (w : CommandWord) : State :=
  s.setPort k { cmd := some w, resp := none }

/-- Unit `k` takes its command from the port and becomes the active unit. -/
def State.takeCommand (s : State) (k : Nat) : State :=
  { s.setPort k { s.port k with cmd := none } with active := k }

/-- The active unit performs a command word. Check 1 of 60_exceptions.md R174 is the decoder's: a word with an illegal
opcode records ILLEGAL_OPCODE whatever its other fields (R171). -/
def performWord (w : CommandWord) (s : State) : Result :=
  match decode w with
  | .command i => exec i s
  | .illegalOpcode _ => .next (s.raiseError .illegalOpcode)

/-- Unit `k` completes the command in flight on its port; with none in flight it stays idle
(60_exceptions.md R184). -/
def completeCommand (k : Nat) (s : State) : Result :=
  match (s.port k).cmd with
  | some w => performWord w (s.takeCommand k)
  | none => .next s

/-- A reset of unit `k` (70_reset_and_hazards.md R190): its registers take their reset values, and a command in flight
is abandoned without a response. Nothing else changes. -/
def State.resetUnit (s : State) (k : Nat) : State :=
  (s.setUnit k UnitState.reset).setPort k { s.port k with cmd := none }

/-- The lowest-numbered listed port with a command in flight. -/
def State.firstBusy (s : State) : Option Nat := (s.ports.map Prod.fst).find? s.busy

end Sys2Proof.Machine
end

