-- ==== Sys2Proof/Machine/SeedScheduler.lean ====
section
/-! DEFINITION. The reference values of the host procedures, in closed form: the SeedScheduler's seeds and the
FieldFiller's pixels (44_host_sequences.md R140-R147). -/

namespace Sys2Proof.Machine

open Sys2Proof.Config (SeedConstants)

/-- `aff(v, m, a) = (v *w m) +w a`, modulo 2^32 (00_scope.md R10, R11). -/
def aff (v m a : Word) : Word := v * m + a

/-- The host's inputs to one run (44_host_sequences.md R140). -/
structure RunInputs where
  seed : Word
  width : Word
  height : Word
  mode : Mode
  /-- `BUF`, the host's choice (20_memory.md R41). -/
  base : Nat
  deriving DecidableEq, Repr

/-- The exact product `P = W * H`, with no wrap-around (R141). -/
def pixelCount (width height : Word) : Nat := width.toNat * height.toNat

/-- The run is rejected (R141). -/
def dimensionsOverflow (width height : Word) : Bool := decide (Config.maxPixels < pixelCount width height)

/-- The master generator's pre-warm-up state (R143). -/
def masterSeed (c : SeedConstants) (seed : Word) : Word := aff seed c.seedMul c.seedAdd

/-- `m0`, the master generator's initial state (R143). -/
def masterStart (c : SeedConstants) (seed : Word) : Word := mixN Config.warmup (masterSeed c seed)

/-- `d_i`, the master draw for row `i` (R144). -/
def masterDraw (c : SeedConstants) (seed : Word) (i : Nat) : Word := mixN (i + 1) (masterStart c seed)

/-- `s_i`, row `i`'s pre-warm-up value (R149). -/
def rowSeed (c : SeedConstants) (seed : Word) (i : Nat) : Word := aff (masterDraw c seed i) c.rowMul c.rowAdd

/-- `r_i`, the start of row `i`'s generator (R145). -/
def rowStart (c : SeedConstants) (seed : Word) (i : Nat) : Word := mixN Config.warmup (rowSeed c seed i)

/-- `raw(i, j)` (R146). -/
def rawAt (c : SeedConstants) (seed : Word) (i j : Nat) : Word := mixN (j + 1) (rowStart c seed i)

/-- `sample(i, j)` (R146). -/
def sampleAt (c : SeedConstants) (seed : Word) (mode : Mode) (i j : Nat) : Word :=
  pixelEncode (rawAt c seed i j) mode

/-- The byte of a PIX word at channel 0 (R), 1 (G) or 2 (B) (20_memory.md R44). -/
def channelByte (p : Word) (channel : Nat) : Byte := p.extractLsb' (8 * channel) 8

/-- The slot of pixel (i, j): `k = i * W + j` (20_memory.md R41). -/
def pixelSlot (run : RunInputs) (i j : Nat) : Nat := i * run.width.toNat + j

/-- The address of pixel (i, j)'s R byte: `BUF + 3 * k` (20_memory.md R41). -/
def pixelAddress (run : RunInputs) (i j : Nat) : Nat := run.base + 3 * pixelSlot run i j

end Sys2Proof.Machine
end

