-- ==== Sys2Proof/Machine/HostAgent.lean ====
section
/-! DEFINITION. The host agent and the reset input: what each event of the agenda does, and which events wait for a
response first (44_host_sequences.md R141-R152, 70_reset_and_hazards.md R190, R194). -/

namespace Sys2Proof.Machine

/-- The word the host sends, when it sends it (44_host_sequences.md R149-R151): none where it is made from a master
draw the host has not taken. -/
def State.resolve (s : State) : CommandSource → Option CommandWord
  | .word w => some w
  | .seedMaster => some (encode (.seed 0 s.hostMaster))
  | .seedAffine mul add => some (encode (.seed 0 (aff s.hostMaster mul add)))
  | .seedRow row mul add => (sparseFind s.hostDraws row).map fun d => encode (.seed 0 (aff d mul add))

/-- The `n` bytes from `base` become 0 (20_memory.md R42). -/
def State.zeroFill (s : State) (base : Nat) : Nat → State
  | 0 => s
  | n + 1 => (s.zeroFill base n).memWrite (base + n) 0

/-- The three byte writes of a pixel, R then G then B; bits [31:24] are not stored (44_host_sequences.md R148,
20_memory.md R44). -/
def State.writePixel (s : State) (addr : Nat) (p : Word) : State :=
  ((s.memWrite addr (channelByte p 0)).memWrite (addr + 1) (channelByte p 1)).memWrite (addr + 2) (channelByte p 2)

/-- The RasterBuffer of a run before its first pixel: exactly W * H slots of three bytes, none written
(20_memory.md R41, R42). -/
def newBuffer (base : Nat) (width height : Word) : Buffer where
  base := base
  bytes := 3 * pixelCount width height
  written := []

/-- Whether two buffers have a byte in common. -/
def Buffer.meets (b c : Buffer) : Bool := decide (max b.base c.base < min (b.base + b.bytes) (c.base + c.bytes))

/-- The address of a slot's R byte: `BUF + 3 * slot` (20_memory.md R41). -/
def Buffer.slotAddress (b : Buffer) (slot : Nat) : Nat := b.base + 3 * slot

/-- Whether the buffer has the slot. -/
def Buffer.holdsSlot (b : Buffer) (slot : Nat) : Bool := decide (3 * slot + 3 ≤ b.bytes)

/-- Whether the first `n` slots have all been written. -/
def Buffer.allWritten (b : Buffer) (n : Nat) : Bool := (List.range n).all fun slot => decide (slot ∈ b.written)

/-- The buffer with one more slot written. -/
def Buffer.markWritten (b : Buffer) (slot : Nat) : Buffer :=
  { b with written := b.written.orderedInsert (· ≤ ·) slot }

/-- The RasterBuffer is allocated and zero-initialised (20_memory.md R42). -/
def State.allocateBuffer (s : State) (base : Nat) (width height : Word) : State :=
  { s.zeroFill base (newBuffer base width height).bytes with buffer := some (newBuffer base width height) }

/-- `allocate`: once per run, never while a buffer is being filled, and never over the bytes of a buffer already handed
off (20_memory.md R42, 44_host_sequences.md R152). That a later run may allocate beside them is log entry 8. -/
def hostAllocate (base : Nat) (width height : Word) (s : State) : Result :=
  match s.buffer with
  | none =>
    if s.handedOff.any (newBuffer base width height).meets then .refused (.nonconformingHost .afterHandOff)
    else .next (s.allocateBuffer base width height)
  | some _ => .refused (.nonconformingHost .reallocation)

/-- `m <- ` the response of unit `k` (44_host_sequences.md R150). -/
def hostTakeMaster (k : Nat) (s : State) : Result :=
  match (s.port k).resp with
  | some v => .next { s with hostMaster := v }
  | none => .fault (.noResponse k)

/-- `d_row <- ` the response of unit `k`, and `m <- d_row` (44_host_sequences.md R144, R150, R151). -/
def hostTakeDraw (k row : Nat) (s : State) : Result :=
  match (s.port k).resp with
  | some v => .next { s with hostMaster := v, hostDraws := sparseInsert s.hostDraws row v }
  | none => .fault (.noResponse k)

/-- The breach of a buffer action with no buffer to act on: none was ever allocated, or the last one has been handed
off (20_memory.md R42, 44_host_sequences.md R152). -/
def State.missingBuffer (s : State) : HostBreach := if s.handedOff.isEmpty then .noBuffer else .afterHandOff

/-- Write the pixel unit `k` answered into its slot (44_host_sequences.md R148), which must be a slot of the buffer and
not written before (20_memory.md R42). -/
def hostStorePixel (k slot : Nat) (s : State) : Result :=
  match s.buffer with
  | none => .refused (.nonconformingHost s.missingBuffer)
  | some b =>
    if !b.holdsSlot slot then .refused (.nonconformingHost .outsideBuffer)
    else if slot ∈ b.written then .refused (.nonconformingHost .slotWrittenTwice)
    else
      match (s.port k).resp with
      | some p => .next { s.writePixel (b.slotAddress slot) p with buffer := some (b.markWritten slot) }
      | none => .fault (.noResponse k)

/-- Hand the buffer off: its byte count must be W * H * 3 (60_exceptions.md R179), and every one of its slots must have
been written (44_host_sequences.md R152). It is moved out of the host's hands (R152). -/
def hostHandOff (width height : Word) (s : State) : Result :=
  match s.buffer with
  | none => .refused (.nonconformingHost s.missingBuffer)
  | some b =>
    if b.bytes ≠ 3 * pixelCount width height then .fault .shapeMismatch
    else if b.allWritten (pixelCount width height) then
      .next { s with buffer := none, handedOff := b :: s.handedOff }
    else .refused (.nonconformingHost .incompleteHandOff)

/-- The host acts on its own state. -/
def performHostAction (a : HostAction) (s : State) : Result :=
  match a with
  | .checkDimensions width height => if dimensionsOverflow width height then .fault .dimensionOverflow else .next s
  | .allocate base width height => hostAllocate base width height s
  | .takeMaster k => hostTakeMaster k s
  | .takeDraw k row => hostTakeDraw k row s
  | .storePixel k slot => hostStorePixel k slot s
  | .handOff width height => hostHandOff width height s

/-- What one event does, once it need not wait. -/
def performEvent (e : Event) (s : State) : Result :=
  match e with
  | .send k src =>
    if unitExists k then
      match s.resolve src with
      | some w => .next (s.handOver k w)
      | none => .refused (.nonconformingHost .drawNotTaken)
    else .fault (.noSuchUnit k)
  | .complete k => completeCommand k s
  | .reset k => if unitExists k then .next (s.resetUnit k) else .fault (.noSuchUnit k)
  | .host a => performHostAction a s

/-- The unit whose response the host must have before the event can happen: it sends a unit its next command only
after the response to the previous one (70_reset_and_hazards.md R194), and it uses a response only when it has come.
What is awaited is a command in flight: a command that a reset abandoned (R190) is never answered, and the model lets
the host send that unit its next command all the same, which is its first after that reset (R191). DESIGN CHOICE, log
entry 17. -/
def Event.awaits : Event → Option Nat
  | .send k _ => some k
  | .host (.takeMaster k) => some k
  | .host (.takeDraw k _) => some k
  | .host (.storePixel k _) => some k
  | _ => none

/-- One step of the system. The first event of the agenda happens, unless it awaits a unit that has a command in
flight: then that unit completes it. A unit whose command a reset abandoned has none in flight, so that an event which
awaits it happens at once (70_reset_and_hazards.md R194; DESIGN CHOICE, log entry 17). With the agenda used up, the
commands still in flight complete one by one (the liveness assumption of R197, log entry 5), and after that the system
is idle (60_exceptions.md R184). -/
def advance (s : State) : Result :=
  match s.agenda with
  | [] =>
    match s.firstBusy with
    | some k => completeCommand k s
    | none => .next s
  | e :: rest =>
    match e.awaits with
    | some k => if s.busy k then completeCommand k s else performEvent e { s with agenda := rest }
    | none => performEvent e { s with agenda := rest }

end Sys2Proof.Machine
end

