-- ==== Sys2Proof/Machine/Step.lean ====
section
/-! DEFINITION. One step of the machine, and where an instruction stands that the next step runs. -/

namespace Sys2Proof.Machine

/-- One step (Machine/HostAgent.lean). -/
def step (s : State) : Host.Outcome State Fault Refusal := advance s

/-- `s` with a table word handed over to the active unit's port, and that unit's completion next on the agenda, so that
the next step performs exactly that word. It stands for the host sending the command (log entry 2). -/
def State.withFetchWord (s : State) (nbits w : Nat) : State :=
  { s.handOver s.active (BitVec.ofNat 64 (w % 2 ^ nbits)) with agenda := .complete s.active :: s.agenda }

end Sys2Proof.Machine
end

