-- ==== Sys2Proof/Machine/Assembler.lean ====
section
/-! DEFINITION. The assembler of 30_encoding.md R68 and the pseudo-instructions of R69, over lists of characters. What
R68 leaves open of the text is log entry 13. -/

namespace Sys2Proof.Machine

/-- Why a line does not assemble: an assembly error, never a word (30_encoding.md R68). -/
inductive AsmError where
  /-- The first word of the line is no mnemonic. -/
  | unknownMnemonic
  /-- A command that takes an operand has none. -/
  | missingOperand
  /-- More words than the command takes. -/
  | extraOperand
  /-- The operand is neither a number nor a name of its form. -/
  | badOperand
  /-- The number does not fit the form, as in `STEP 0x100000000`, `SETMODE 2`, `RDREG 4`. -/
  | operandOutOfRange
  deriving DecidableEq, Repr

/-- The mnemonics and pseudo-instructions (30_encoding.md R64, R69). -/
inductive Statement where
  | nop | seed | next | step | setmode | enc | draw | enci | clrerr | rdreg
  | init | warm | setgray | setcolor | rdx | rdstatus
  deriving DecidableEq, Repr

/-- How each mnemonic is spelt, in capitals (30_encoding.md R64, R69). -/
def mnemonicTable : List (List Char × Statement) :=
  [("NOP".toList, .nop), ("SEED".toList, .seed), ("NEXT".toList, .next), ("STEP".toList, .step),
   ("SETMODE".toList, .setmode), ("ENC".toList, .enc), ("DRAW".toList, .draw), ("ENCI".toList, .enci),
   ("CLRERR".toList, .clrerr), ("RDREG".toList, .rdreg), ("INIT".toList, .init), ("WARM".toList, .warm),
   ("SETGRAY".toList, .setgray), ("SETCOLOR".toList, .setcolor), ("RDX".toList, .rdx),
   ("RDSTATUS".toList, .rdstatus)]

/-- The value listed for a key. -/
def lookupText {α : Type} (key : List Char) : List (List Char × α) → Option α
  | [] => none
  | (k, v) :: rest => if k = key then some v else lookupText key rest

/-- A line without its comment, which starts at `;`. -/
def stripComment : List Char → List Char
  | [] => []
  | c :: rest => if c = ';' then [] else c :: stripComment rest

/-- White space within a line. -/
def isBlank (c : Char) : Bool := c == ' ' || c == '\t' || c == '\r'

/-- The words of a line, `cur` being the word read so far, last character first. -/
def splitWords (cur : List Char) : List Char → List (List Char)
  | [] => if cur.isEmpty then [] else [cur.reverse]
  | c :: rest =>
    if isBlank c then (if cur.isEmpty then splitWords [] rest else cur.reverse :: splitWords [] rest)
    else splitWords (c :: cur) rest

/-- The lines of a text, `cur` being the line read so far, last character first. -/
def splitLines (cur : List Char) : List Char → List (List Char)
  | [] => [cur.reverse]
  | c :: rest => if c = '\n' then cur.reverse :: splitLines [] rest else splitLines (c :: cur) rest

/-- The value of a digit character below `base`. -/
def digitValue (base : Nat) (c : Char) : Option Nat :=
  let n := c.toNat
  let v := if 48 ≤ n ∧ n ≤ 57 then n - 48
    else if 65 ≤ n ∧ n ≤ 70 then n - 55
    else if 97 ≤ n ∧ n ≤ 102 then n - 87
    else base
  if v < base then some v else none

/-- Read digits after the value `acc`. -/
def parseDigitsFrom (base acc : Nat) : List Char → Option Nat
  | [] => some acc
  | c :: rest =>
    match digitValue base c with
    | some d => parseDigitsFrom base (acc * base + d) rest
    | none => none

/-- A number of one or more digits. -/
def parseDigits (base : Nat) : List Char → Option Nat
  | [] => none
  | c :: rest => parseDigitsFrom base 0 (c :: rest)

/-- A decimal number, or where `hex` allows it a number `0x...` (30_encoding.md R68). -/
def parseNumber (hex : Bool) : List Char → Option Nat
  | '0' :: 'x' :: rest => if hex then parseDigits 16 rest else none
  | cs => parseDigits 10 cs

/-- An operand: a name of the form, or a number no greater than `limit` (30_encoding.md R68). -/
def parseOperand (names : List (List Char × Nat)) (hex : Bool) (limit : Nat) (text : List Char) :
    Except AsmError Word :=
  match lookupText text names with
  | some n => .ok (BitVec.ofNat 32 n)
  | none =>
    match parseNumber hex text with
    | none => .error .badOperand
    | some n => if n ≤ limit then .ok (BitVec.ofNat 32 n) else .error .operandOutOfRange

/-- The operand of a `u32` form. -/
def parseU32 (text : List Char) : Except AsmError Word := parseOperand [] true (2 ^ 32 - 1) text

/-- The operand of SETMODE. -/
def parseModeOperand (text : List Char) : Except AsmError Word :=
  parseOperand [("GRAY".toList, 0), ("COLOR".toList, 1)] true 1 text

/-- The operand of RDREG. -/
def parseIndexOperand (text : List Char) : Except AsmError Word :=
  parseOperand [("X".toList, 0), ("RAW".toList, 1), ("PIX".toList, 2), ("STATUS".toList, 3)] false 3 text

/-- A statement that takes no operand. -/
def assembleBare (is : List Instr) : List (List Char) → Except AsmError (List CommandWord)
  | [] => .ok (is.map encode)
  | _ :: _ => .error .extraOperand

/-- A statement that takes one operand. -/
def assembleUnary (parse : List Char → Except AsmError Word) (is : Word → List Instr) :
    List (List Char) → Except AsmError (List CommandWord)
  | [] => .error .missingOperand
  | [a] =>
    match parse a with
    | .ok v => .ok ((is v).map encode)
    | .error e => .error e
  | _ :: _ :: _ => .error .extraOperand

/-- The words of a statement: RSV is always assembled as 0 (30_encoding.md R68), and a pseudo-instruction gives the
words of its expansion in order (R69). -/
def assembleStatement (args : List (List Char)) : Statement → Except AsmError (List CommandWord)
  | .nop => assembleBare [.nop 0 0] args
  | .seed => assembleUnary parseU32 (fun v => [.seed 0 v]) args
  | .next => assembleBare [.next 0 0] args
  | .step => assembleUnary parseU32 (fun v => [.step 0 v]) args
  | .setmode => assembleUnary parseModeOperand (fun v => [.setmode 0 v]) args
  | .enc => assembleBare [.enc 0 0] args
  | .draw => assembleBare [.draw 0 0] args
  | .enci => assembleUnary parseU32 (fun v => [.enci 0 v]) args
  | .clrerr => assembleBare [.clrerr 0 0] args
  | .rdreg => assembleUnary parseIndexOperand (fun v => [.rdreg 0 v]) args
  | .init => assembleUnary parseU32 (fun v => [.seed 0 v, .step 0 100]) args
  | .warm => assembleBare [.step 0 100] args
  | .setgray => assembleBare [.setmode 0 0] args
  | .setcolor => assembleBare [.setmode 0 1] args
  | .rdx => assembleBare [.rdreg 0 0] args
  | .rdstatus => assembleBare [.rdreg 0 3] args

/-- One line: a mnemonic in any case, at most one operand, an optional comment (30_encoding.md R68). -/
def assembleLine (line : List Char) : Except AsmError (List CommandWord) :=
  match splitWords [] (stripComment line) with
  | [] => .ok []
  | m :: args =>
    match lookupText (m.map Char.toUpper) mnemonicTable with
    | some st => assembleStatement args st
    | none => .error .unknownMnemonic

/-- Lines assembled one after the other. -/
def assembleLines : List (List Char) → Except AsmError (List CommandWord)
  | [] => .ok []
  | l :: rest =>
    match assembleLine l with
    | .error e => .error e
    | .ok ws =>
      match assembleLines rest with
      | .error e => .error e
      | .ok more => .ok (ws ++ more)

/-- The words of a program text. -/
def assemble (text : List Char) : Except AsmError (List CommandWord) := assembleLines (splitLines [] text)

end Sys2Proof.Machine
end

