-- ==== Sys2Proof/Machine/HostSequences.lean ====
section
/-! DEFINITION. The host procedures as agendas: the row task, the single-unit run and the multi-unit run
(44_host_sequences.md R141, R142, R148-R152). -/

namespace Sys2Proof.Machine

open Sys2Proof.Config (SeedConstants)

/-- The host sends unit `k` a command it holds. -/
def sendCommand (k : Nat) (i : Instr) : Event := .send k (.word (encode i))

/-- One pixel: DRAW, then the three byte writes (44_host_sequences.md R148). -/
def drawPixel (run : RunInputs) (k i j : Nat) : List Event :=
  [sendCommand k (.draw 0 0), .host (.storePixel k (pixelSlot run i j))]

/-- The W DRAWs of row `i`, left to right (R149). -/
def drawRow (run : RunInputs) (k i : Nat) : List Event :=
  (List.range run.width.toNat).flatMap (drawPixel run k i)

/-- The row task of row `i` on unit `k`, seeded from `src` (R149). -/
def rowTask (run : RunInputs) (k i : Nat) (src : CommandSource) : List Event :=
  [.send k src, sendCommand k (.step 0 (BitVec.ofNat 32 Config.warmup)),
    sendCommand k (.setmode 0 (run.mode.bit.setWidth 32))] ++ drawRow run k i

/-- Row `i` in the single-unit realisation: restore the master, draw `d_i`, run the row task (R150). -/
def singleUnitRow (c : SeedConstants) (run : RunInputs) (k i : Nat) : List Event :=
  [.send k .seedMaster, sendCommand k (.next 0 0), .host (.takeMaster k)] ++
    rowTask run k i (.seedAffine c.rowMul c.rowAdd)

/-- The master initialisation of the single-unit realisation (R150). -/
def singleUnitMaster (c : SeedConstants) (run : RunInputs) (k : Nat) : List Event :=
  [sendCommand k (.seed 0 (masterSeed c run.seed)), sendCommand k (.step 0 (BitVec.ofNat 32 Config.warmup)),
    sendCommand k (.rdreg 0 0), .host (.takeMaster k)]

/-- A run around its command sequence: the dimension check comes before any command and any buffer byte (R141), the
hand-off after every pixel (R152). The spec puts the allocation after the check (R141) and before the first pixel
(20_memory.md R42), no more; allocating right after the check, before any command is sent, is the model's DESIGN CHOICE,
and so is that a run with a zero dimension sends no command (R142): log entry 7. -/
def runAround (run : RunInputs) (commands : List Event) : List Event :=
  [.host (.checkDimensions run.width run.height), .host (.allocate run.base run.width run.height)] ++
    (if run.width = 0 ∨ run.height = 0 then [] else commands) ++
    [.host (.handOff run.width run.height)]

/-- The single-unit realisation of a run, on unit `k` (R150). It leaves out the optional STATUS read and CLRERR at the
start of a run (70_reset_and_hazards.md R192, step 5): DESIGN CHOICE, log entry 7. -/
def singleUnitRun (c : SeedConstants) (run : RunInputs) (k : Nat) : List Event :=
  runAround run (singleUnitMaster c run k ++
    (List.range run.height.toNat).flatMap (singleUnitRow c run k))

/-- The row task of row `i` in the multi-unit realisation where the host has taken the master draws in its own
arithmetic (R151), so that it sends the row's seed as a word. -/
def multiUnitRow (c : SeedConstants) (run : RunInputs) (task : Nat × Nat) : List Event :=
  rowTask run task.2 task.1 (.word (encode (.seed 0 (rowSeed c run.seed task.1))))

/-- A multi-unit run whose row tasks are issued in any order to any units: `tasks` pairs each row with its unit
(R151). Like the single-unit run it leaves out step 5 of 70_reset_and_hazards.md R192 (log entry 7). -/
def multiUnitRun (c : SeedConstants) (run : RunInputs) (tasks : List (Nat × Nat)) : List Event :=
  runAround run (tasks.flatMap (multiUnitRow c run))

/-- The events of an agenda that concern unit `k`'s port, in order. -/
def eventsOf (k : Nat) (es : List Event) : List Event := es.filter fun e => e.awaits == some k

/-- `es` does what `seq` does with any overlap between units (R151): each unit sees its own events of `seq`, in order and
uninterleaved, and besides them there are only completions, at any time. -/
def overlapOf (seq es : List Event) : Prop :=
  (∀ e ∈ es, e.awaits ≠ none ∨ ∃ k, e = .complete k) ∧ ∀ k, eventsOf k es = eventsOf k seq

/-- `es` performs the row tasks of a host that draws in its own arithmetic, with any overlap (R151). -/
def overlapsRows (c : SeedConstants) (run : RunInputs) (tasks : List (Nat × Nat)) (es : List Event) : Prop :=
  overlapOf (tasks.flatMap (multiUnitRow c run)) es

/-- What a host with the master generator on a unit has to do (R151). -/
inductive Job where
  /-- Take row `row`'s master draw from the master unit; with `restore`, first bring the master state back by `SEED m`,
  as R150 does. -/
  | draw (restore : Bool) (row : Nat)
  /-- Run row `row`'s task on unit `k`. -/
  | row (row k : Nat)
  deriving DecidableEq, Repr

/-- The master draw of row `row` on unit `mk`: `SEED m` if asked for, NEXT, and the host takes the answer
(R144, R150, R151). -/
def masterDrawTask (mk : Nat) (restore : Bool) (row : Nat) : List Event :=
  (if restore then [.send mk .seedMaster] else []) ++ [sendCommand mk (.next 0 0), .host (.takeDraw mk row)]

/-- The events of a job, with the master generator on unit `mk`. -/
def Job.events (c : SeedConstants) (run : RunInputs) (mk : Nat) : Job → List Event
  | .draw restore i => masterDrawTask mk restore i
  | .row i k => rowTask run k i (.seedRow i c.rowMul c.rowAdd)

/-- The commands of a multi-unit run whose master generator runs on unit `mk` (R151): the master initialisation, then the
jobs one after the other. -/
def masterUnitCommands (c : SeedConstants) (run : RunInputs) (mk : Nat) (jobs : List Job) : List Event :=
  singleUnitMaster c run mk ++ jobs.flatMap (Job.events c run mk)

/-- A multi-unit run whose master generator runs on unit `mk` (R151). -/
def masterUnitRun (c : SeedConstants) (run : RunInputs) (mk : Nat) (jobs : List Job) : List Event :=
  runAround run (masterUnitCommands c run mk jobs)

/-- The rows whose draws the jobs take, in order. -/
def drawRows (jobs : List Job) : List Nat :=
  jobs.filterMap fun
    | .draw _ row => some row
    | .row _ _ => none

/-- The row tasks of the jobs, each row with its unit. -/
def rowTasks (jobs : List Job) : List (Nat × Nat) :=
  jobs.filterMap fun
    | .draw _ _ => none
    | .row row k => some (row, k)

/-- Whether every draw finds the master state in unit `mk`: it is restored, or (`held`) it has been there since the
master initialisation or the last draw, with no row task on `mk` in between. -/
def masterKept (mk : Nat) (held : Bool) : List Job → Bool
  | [] => true
  | .draw restore _ :: rest => (restore || held) && masterKept mk true rest
  | .row _ k :: rest => masterKept mk (held && k != mk) rest

/-- Whether every row's seed is sent only after its draw was taken, `taken` being the rows drawn so far. -/
def drawsBeforeRows (taken : List Nat) : List Event → Bool
  | [] => true
  | .host (.takeDraw _ row) :: rest => drawsBeforeRows (row :: taken) rest
  | .send _ (.seedRow row _ _) :: rest => decide (row ∈ taken) && drawsBeforeRows taken rest
  | _ :: rest => drawsBeforeRows taken rest

/-- `es` conforms to R151 with the master generator on unit `mk`: the draws are taken in strictly increasing row order
and from the master state, every row has one task and is seeded after its draw, and units overlap freely. -/
def overlapsMasterUnit (c : SeedConstants) (run : RunInputs) (mk : Nat) (jobs : List Job) (es : List Event) : Prop :=
  drawRows jobs = List.range run.height.toNat ∧ ((rowTasks jobs).map Prod.fst).Perm (List.range run.height.toNat) ∧
  masterKept mk true jobs = true ∧ drawsBeforeRows [] es = true ∧ overlapOf (masterUnitCommands c run mk jobs) es

end Sys2Proof.Machine
end

