-- ==== Sys2Proof/WellFormed.lean ====
section
/-! DEFINITION. Which commands carry no reserved encoding: RSV is 0 and IMM meets the constraint of the command's
operand form (30_encoding.md R63, R66). The machine's own check is written apart, in Machine/Operands.lean. -/

namespace Sys2Proof

/-- No reserved encoding (30_encoding.md R63, R66). A command that is not well formed still decodes; performing it
raises RESERVED_FIELD. -/
def Instr.wellFormed : Instr → Bool
  | .nop rsv imm => rsv == 0 && imm == 0
  | .seed rsv _ => rsv == 0
  | .next rsv imm => rsv == 0 && imm == 0
  | .step rsv _ => rsv == 0
  | .setmode rsv imm => rsv == 0 && (imm == 0 || imm == 1)
  | .enc rsv imm => rsv == 0 && imm == 0
  | .draw rsv imm => rsv == 0 && imm == 0
  | .enci rsv _ => rsv == 0
  | .clrerr rsv imm => rsv == 0 && imm == 0
  | .rdreg rsv imm => rsv == 0 && (imm == 0 || imm == 1 || imm == 2 || imm == 3)

end Sys2Proof
end

