-- ==== Sys2Proof/Safety.lean ====
section
/-! DEFINITION. The terms the claims use: what one command changed and left alone, the invariant of the system, runs. -/

namespace Sys2Proof.Machine

/-- Everything but the active unit's registers and response is as before: the other units and their ports, what is in
flight, every byte of host memory, and all that belongs to the host (00_scope.md R6, 20_memory.md R40). -/
def OutsideUnchanged (s t : State) : Prop :=
  t.active = s.active ∧ t.agenda = s.agenda ∧ t.hostMaster = s.hostMaster ∧ t.hostDraws = s.hostDraws ∧
  t.buffer = s.buffer ∧ t.handedOff = s.handedOff ∧
  (∀ k, k ≠ s.active → t.unit k = s.unit k ∧ t.port k = s.port k) ∧
  (t.port s.active).cmd = (s.port s.active).cmd ∧
  ∀ addr, t.memRead addr = s.memRead addr

/-- From `s` a command left the active unit's registers at `u`, answered `v`, and changed nothing else. -/
def Performed (s : State) (u : UnitState) (v : Word) (t : State) : Prop :=
  t.regs = u ∧ (t.port s.active).resp = some v ∧ OutsideUnchanged s t

/-- The command failed with error code `c` (60_exceptions.md R172): ERR is set, ECODE is written only if ERR was 0, the
response is 0, and nothing else changed. -/
def Failed (s : State) (c : BitVec 4) (t : State) : Prop :=
  Performed s { s.regs with err := true, ecode := if s.regs.err then s.regs.ecode else c } 0 t

/-- The command fails as 60_exceptions.md R172 says, with error code `c`. -/
def FailsWith (i : Instr) (s : State) (c : BitVec 4) : Prop := ∃ t, exec i s = .next t ∧ Failed s c t

/-- The command has its effect: registers `u`, response `v`. -/
def Succeeds (i : Instr) (s : State) (u : UnitState) (v : Word) : Prop :=
  ∃ t, exec i s = .next t ∧ Performed s u v t

/-- The commands one after the other on the active unit, up to the first stop. -/
def performAll : List Instr → State → Result
  | [], s => .next s
  | i :: rest, s =>
    match exec i s with
    | .next t => performAll rest t
    | .fault r => .fault r
    | .refused r => .refused r

/-- The commands that need a seeded generator (60_exceptions.md R174). -/
def needsSeeded : Instr → Bool
  | .next _ _ | .step _ _ | .draw _ _ => true
  | .rdreg _ imm => imm == 0
  | _ => false

/-- What always holds of one unit: PIX[31:24] is 0 (10_state.md R25), ECODE is one of the four codes (60_exceptions.md
R170) and is NONE exactly while ERR is 0 (R27, R28), and before the first SEED nothing has been drawn (R23, R24). -/
def UnitState.sound (u : UnitState) : Prop :=
  u.pix.extractLsb' 24 8 = 0 ∧ u.ecode.toNat ≤ 3 ∧ (u.err = false ↔ u.ecode = 0) ∧ (u.seeded = false → u.raw = 0)

/-- What always holds of one port: while a command is in flight its response has not been given
(70_reset_and_hazards.md R194). -/
def Port.sound (p : Port) : Prop := p.cmd.isSome → p.resp = none

/-- Every RasterBuffer the host has allocated: the one it is filling, then those handed off. -/
def State.buffers (s : State) : List Buffer := s.buffer.toList ++ s.handedOff

/-- What always holds of an allocated RasterBuffer (20_memory.md R42): every byte of it holds a value, and the slots
written are its own, none twice. -/
structure State.HoldsBuffer (s : State) (b : Buffer) : Prop where
  readable : ∀ addr, b.base ≤ addr → addr < b.base + b.bytes → (s.memRead addr).isSome
  writtenRising : b.written.Pairwise (· < ·)
  writtenHeld : ∀ slot ∈ b.written, b.holdsSlot slot = true

/-- The invariant of the system. -/
structure State.Inv (s : State) : Prop where
  unitsSound : ∀ k, (s.unit k).sound
  portsSound : ∀ k, (s.port k).sound
  unitsCanonical : sparseCanonical UnitState.reset s.units = true
  portsCanonical : sparseCanonical Port.idle s.ports = true
  memoryWf : Memory.wf s.hostMem = true
  drawsRising : sparseRising s.hostDraws = true
  /-- Commands are in flight only at units that exist (00_scope.md R6). -/
  busyExists : ∀ k, s.busy k = true → unitExists k = true
  activeExists : unitExists s.active = true
  buffersHeld : ∀ b ∈ s.buffers, s.HoldsBuffer b
  /-- No two buffers share a byte, so that none is written after its hand-off (44_host_sequences.md R152). -/
  buffersApart : s.buffers.Pairwise fun b c => b.meets c = false
  /-- A slot not yet written still holds its initial zeros (20_memory.md R42). -/
  unwrittenZero : ∀ b ∈ s.buffer, ∀ slot ch, b.holdsSlot slot = true → slot ∉ b.written → ch < 3 →
    s.memRead (b.slotAddress slot + ch) = some 0
  /-- A buffer is handed off only with every slot written (44_host_sequences.md R152). -/
  handedOffComplete : ∀ b ∈ s.handedOff, ∀ slot, b.holdsSlot slot = true → slot ∈ b.written

/-- `n` steps from `s` lead to `t`. -/
def RunsTo (n : Nat) (s t : State) : Prop := Sys2Proof.core.run n s = .next t

/-- The host may allocate buffer `b`: none is being filled, and `b` shares no byte with one handed off (20_memory.md
R42, 44_host_sequences.md R152). -/
def State.readyFor (s : State) (b : Buffer) : Prop := s.buffer = none ∧ ∀ c ∈ s.handedOff, b.meets c = false

/-- The host may start a run. -/
def State.readyForRun (s : State) (run : RunInputs) : Prop := s.readyFor (newBuffer run.base run.width run.height)

/-- Host memory holds the RasterBuffer of 44_host_sequences.md R147 and is otherwise as it was in `s`. -/
def HoldsRaster (c : Config.SeedConstants) (run : RunInputs) (s t : State) : Prop :=
  (∀ i j ch, i < run.height.toNat → j < run.width.toNat → ch < 3 →
    t.memRead (pixelAddress run i j + ch) = some (channelByte (sampleAt c run.seed run.mode i j) ch)) ∧
  ∀ addr, (addr < run.base ∨ run.base + 3 * pixelCount run.width run.height ≤ addr) → t.memRead addr = s.memRead addr

/-- The RasterBuffer of a finished run (44_host_sequences.md R147, R152): exactly W * H slots, each written. -/
def finishedBuffer (run : RunInputs) : Buffer where
  base := run.base
  bytes := 3 * pixelCount run.width run.height
  written := List.range (pixelCount run.width run.height)

/-- From `s` a run has ended in `t`: nothing is left to do, host memory holds its RasterBuffer and is otherwise as it
was, and the buffer is handed off beside the earlier ones. -/
def RunEnded (c : Config.SeedConstants) (run : RunInputs) (s t : State) : Prop :=
  t.agenda = [] ∧ HoldsRaster c run s t ∧ t.buffer = none ∧ t.handedOff = finishedBuffer run :: s.handedOff

end Sys2Proof.Machine
end

