-- ==== Sys2Proof/Certificates/Slice0/Obligations.lean ====
section
/-! DEFINITION. The statements for the provers, each from the numbered rules of spec/. `Succeeds`, `FailsWith`,
`Performed`, `Failed` and `OutsideUnchanged` (Safety.lean) say the effect of a command and its frame. -/

open Sys2Proof Sys2Proof.Machine

/-- R65: decoding is total, loses no bit, and selects by `OP` alone. -/
def Obligations.DecodeInvertsEncode : Prop :=
  (∀ i : Instr, decode (encode i) = .command i) ∧
  (∀ (w : CommandWord) (i : Instr), decode w = .command i →
    w = encode i ∧ i.rsv = w.extractLsb' 40 24 ∧ i.imm = w.extractLsb' 0 32 ∧ w &&& opcodeMask = i.matchPattern) ∧
  (∀ w : CommandWord, 9 < (w.extractLsb' 32 8).toNat ↔ decode w = .illegalOpcode (w.extractLsb' 32 8)) ∧
  ∀ w : CommandWord, (w.extractLsb' 32 8).toNat ≤ 9 ↔ ∃ i, decode w = .command i

/-- R70: the spec's ten example lines assemble to its ten words, and each word decodes to its command. -/
def Obligations.SpecExampleWordsDecode : Prop :=
  (assemble "NOP".toList = .ok [0x0000000000000000] ∧ decode 0x0000000000000000 = .command (.nop 0 0)) ∧
  (assemble "SEED 1".toList = .ok [0x0000000100000001] ∧ decode 0x0000000100000001 = .command (.seed 0 1)) ∧
  (assemble "NEXT".toList = .ok [0x0000000200000000] ∧ decode 0x0000000200000000 = .command (.next 0 0)) ∧
  (assemble "STEP 100".toList = .ok [0x0000000300000064] ∧ decode 0x0000000300000064 = .command (.step 0 100)) ∧
  (assemble "SETMODE COLOR".toList = .ok [0x0000000400000001] ∧
    decode 0x0000000400000001 = .command (.setmode 0 1)) ∧
  (assemble "ENC".toList = .ok [0x0000000500000000] ∧ decode 0x0000000500000000 = .command (.enc 0 0)) ∧
  (assemble "DRAW".toList = .ok [0x0000000600000000] ∧ decode 0x0000000600000000 = .command (.draw 0 0)) ∧
  (assemble "ENCI 0x12345678".toList = .ok [0x0000000712345678] ∧
    decode 0x0000000712345678 = .command (.enci 0 0x12345678)) ∧
  (assemble "CLRERR".toList = .ok [0x0000000800000000] ∧ decode 0x0000000800000000 = .command (.clrerr 0 0)) ∧
  (assemble "RDREG STATUS".toList = .ok [0x0000000900000003] ∧
    decode 0x0000000900000003 = .command (.rdreg 0 3))

/-- R2, R194, R196: a step in which a unit completes the command in flight on its port performs exactly that word,
whatever word it is, from the state all earlier commands left, with the command taken off the port. It says so for a
completion on the agenda, for an event that awaits the unit, for an agenda used up, and for a word placed by
`withFetchWord`; it says what taking the command off the port changes, and what performing a word is: the meaning of the
command it decodes to (R65), or ILLEGAL_OPCODE (R66, R171, R172). The agenda and the time of completion are the model's
choice (log entries 2 and 5). -/
def Obligations.StepPerformsTheCommandInFlight : Prop :=
  ∀ (s : State) (k : Nat) (w : CommandWord),
    ((s.port k).cmd = some w →
      (∀ rest, s.agenda = .complete k :: rest →
        step s = performWord w (({ s with agenda := rest } : State).takeCommand k)) ∧
      (∀ e rest, s.agenda = e :: rest → e.awaits = some k → step s = performWord w (s.takeCommand k)) ∧
      (s.agenda = [] → s.firstBusy = some k → step s = performWord w (s.takeCommand k)) ∧
      (s.takeCommand k).active = k ∧ (s.takeCommand k).regs = s.unit k ∧
      ((s.takeCommand k).port k).cmd = none ∧ ((s.takeCommand k).port k).resp = (s.port k).resp ∧
      (∀ j, (s.takeCommand k).unit j = s.unit j) ∧ (∀ j, j ≠ k → (s.takeCommand k).port j = s.port j) ∧
      (s.takeCommand k).agenda = s.agenda ∧ (s.takeCommand k).hostMaster = s.hostMaster ∧
      (s.takeCommand k).hostDraws = s.hostDraws ∧ (s.takeCommand k).buffer = s.buffer ∧
      (s.takeCommand k).handedOff = s.handedOff ∧ ∀ a, (s.takeCommand k).memRead a = s.memRead a) ∧
    step (s.withFetchWord 64 w.toNat) = performWord w ((s.handOver s.active w).takeCommand s.active) ∧
    (∀ i, decode w = .command i → performWord w s = exec i s) ∧
    ∀ op, decode w = .illegalOpcode op → ∃ t, performWord w s = .next t ∧ Failed s 1 t

/-- R120, whole. -/
def Obligations.NopDoesNothingAndReturnsZero : Prop :=
  ∀ (rsv : BitVec 24) (imm : Word) (s : State),
    encode (.nop rsv imm) = commandWord rsv 0x00 imm ∧ encode (.nop 0 0) = 0 ∧
    (rsv = 0 → imm = 0 → Succeeds (.nop rsv imm) s s.regs 0) ∧
    (rsv ≠ 0 ∨ imm ≠ 0 → FailsWith (.nop rsv imm) s 2)

/-- R82, whole: SEED loads X exactly, seeded or not; ZS becomes (IMM = 0). -/
def Obligations.SeedLoadsTheGenerator : Prop :=
  (∀ (rsv : BitVec 24) (imm : Word) (s : State),
    encode (.seed rsv imm) = commandWord rsv 0x01 imm ∧
    (rsv = 0 → Succeeds (.seed rsv imm) s { s.regs with x := imm, seeded := true } 0) ∧
    (rsv = 0 → ∀ t, exec (.seed rsv imm) s = .next t → t.regs.zs = (imm == 0)) ∧
    (rsv ≠ 0 → FailsWith (.seed rsv imm) s 2)) ∧
  (∀ (n : Nat) (s t u : State), exec (.seed 0 0) s = .next t →
    performAll (List.replicate (n + 1) (.next 0 0)) t = .next u →
    t.regs.zs = true ∧ u.regs.x = 0 ∧ (u.port s.active).resp = some 0) ∧
  encode (.seed 0 1) = 0x0000000100000001

/-- R83, whole: one mix, the post-mix value in X, RAW and the response; ZS keeps its value. -/
def Obligations.NextDrawsOnce : Prop :=
  (∀ (rsv : BitVec 24) (imm : Word) (s : State),
    encode (.next rsv imm) = commandWord rsv 0x02 imm ∧
    (rsv = 0 → imm = 0 → s.regs.seeded = true →
      Succeeds (.next rsv imm) s { s.regs with x := mix s.regs.x, raw := mix s.regs.x } (mix s.regs.x)) ∧
    (rsv = 0 → imm = 0 → s.regs.seeded = true → ∀ t, exec (.next rsv imm) s = .next t → t.regs.zs = s.regs.zs) ∧
    (rsv ≠ 0 ∨ imm ≠ 0 → FailsWith (.next rsv imm) s 2) ∧
    (rsv = 0 → imm = 0 → s.regs.seeded = false → FailsWith (.next rsv imm) s 3)) ∧
  mix 0 = 0 ∧ mix 0x80000000 = 0x80084000 ∧ mix 0xFFFFFFFF = 0x0003E01F ∧ mix 0x00000001 = 0x00042021

/-- R84, whole: IMM mixes, RAW not written, response 0; the seed check applies for n = 0 too. -/
def Obligations.StepAdvancesByItsCount : Prop :=
  (∀ (rsv : BitVec 24) (n : Word) (s : State),
    encode (.step rsv n) = commandWord rsv 0x03 n ∧
    (rsv = 0 → s.regs.seeded = true → Succeeds (.step rsv n) s { s.regs with x := mixN n.toNat s.regs.x } 0) ∧
    (rsv = 0 → s.regs.seeded = true → ∀ t, exec (.step rsv n) s = .next t → t.regs.zs = s.regs.zs) ∧
    (rsv ≠ 0 → FailsWith (.step rsv n) s 2) ∧
    (rsv = 0 → s.regs.seeded = false → FailsWith (.step rsv n) s 3)) ∧
  (∀ x, mixN 0 x = x) ∧ (∀ n x, mixN (n + 1) x = mix (mixN n x)) ∧ (∀ n, mixN n 0 = 0) ∧
  encode (.step 0 100) = 0x0000000300000064 ∧ mixN 100 1 = 0x08C93AF7

/-- R102, whole: MODE follows IMM[0], nothing else changes, an IMM above 1 is a reserved encoding. -/
def Obligations.SetmodeSelectsTheMode : Prop :=
  (∀ (rsv : BitVec 24) (imm : Word) (s : State),
    encode (.setmode rsv imm) = commandWord rsv 0x04 imm ∧
    (rsv = 0 → imm = 0 → Succeeds (.setmode rsv imm) s { s.regs with mode := .grayscale } 0) ∧
    (rsv = 0 → imm = 1 → Succeeds (.setmode rsv imm) s { s.regs with mode := .colorful } 0) ∧
    (∀ t, exec (.setmode rsv imm) s = .next t → t.regs.status.getLsbD 0 = decide (t.regs.mode = .colorful)) ∧
    (rsv ≠ 0 ∨ 1 < imm.toNat → FailsWith (.setmode rsv imm) s 2)) ∧
  encode (.setmode 0 1) = 0x0000000400000001

/-- R103, whole: RAW encoded under the current mode, seeded or not. -/
def Obligations.EncEncodesTheLastRawValue : Prop :=
  (∀ (rsv : BitVec 24) (imm : Word) (s : State),
    encode (.enc rsv imm) = commandWord rsv 0x05 imm ∧
    (rsv = 0 → imm = 0 → Succeeds (.enc rsv imm) s { s.regs with pix := pixelEncode s.regs.raw s.regs.mode }
      (pixelEncode s.regs.raw s.regs.mode)) ∧
    (rsv ≠ 0 ∨ imm ≠ 0 → FailsWith (.enc rsv imm) s 2)) ∧
  (∀ (n : Word) (s t u : State), s.regs.seeded = true → exec (.step 0 n) s = .next t → exec (.enc 0 0) t = .next u →
    u.regs.pix = pixelEncode s.regs.raw s.regs.mode) ∧
  pixelEncode State.reset.regs.raw State.reset.regs.mode = 0 ∧ pixelEncode 0x00042021 .grayscale = 0x00212121

/-- R104, whole: the immediate encoded under the current mode, RAW not written, seeded or not. -/
def Obligations.EnciEncodesItsImmediate : Prop :=
  (∀ (rsv : BitVec 24) (imm : Word) (s : State),
    encode (.enci rsv imm) = commandWord rsv 0x07 imm ∧
    (rsv = 0 → Succeeds (.enci rsv imm) s { s.regs with pix := pixelEncode imm s.regs.mode }
      (pixelEncode imm s.regs.mode)) ∧
    (rsv ≠ 0 → FailsWith (.enci rsv imm) s 2)) ∧
  (∀ m, pixelEncode 0 m = 0 ∧ pixelEncode 0xFF000000 m = 0) ∧
  pixelEncode 0x000000FF .grayscale = 0x00FFFFFF ∧ pixelEncode 0x000000FF .colorful = 0x000000FF ∧
  encode (.enci 0 0x12345678) = 0x0000000712345678 ∧ pixelEncode 0x12345678 .colorful = 0x00345678

/-- R105, whole: one mix, then the encode of the post-mix value; ZS keeps its value. -/
def Obligations.DrawDrawsAndEncodes : Prop :=
  (∀ (rsv : BitVec 24) (imm : Word) (s : State),
    encode (.draw rsv imm) = commandWord rsv 0x06 imm ∧
    (rsv = 0 → imm = 0 → s.regs.seeded = true →
      Succeeds (.draw rsv imm) s
        { s.regs with x := mix s.regs.x, raw := mix s.regs.x, pix := pixelEncode (mix s.regs.x) s.regs.mode }
        (pixelEncode (mix s.regs.x) s.regs.mode)) ∧
    (rsv = 0 → imm = 0 → s.regs.seeded = true → ∀ t, exec (.draw rsv imm) s = .next t → t.regs.zs = s.regs.zs) ∧
    (rsv ≠ 0 ∨ imm ≠ 0 → FailsWith (.draw rsv imm) s 2) ∧
    (rsv = 0 → imm = 0 → s.regs.seeded = false → FailsWith (.draw rsv imm) s 3)) ∧
  mix 0 = 0 ∧ (∀ m, pixelEncode 0 m = 0) ∧ mix 0x00000001 = 0x00042021 ∧
  pixelEncode 0x00042021 .grayscale = 0x00212121 ∧ pixelEncode 0x00042021 .colorful = 0x00042021

/-- R121, whole: the record is cleared, nothing else changes; a CLRERR that fails its checks clears nothing. -/
def Obligations.ClrerrClearsTheErrorRecord : Prop :=
  (∀ (rsv : BitVec 24) (imm : Word) (s : State),
    encode (.clrerr rsv imm) = commandWord rsv 0x08 imm ∧
    (rsv = 0 → imm = 0 → Succeeds (.clrerr rsv imm) s { s.regs with err := false, ecode := 0 } 0) ∧
    (rsv ≠ 0 ∨ imm ≠ 0 → FailsWith (.clrerr rsv imm) s 2) ∧
    (rsv ≠ 0 ∨ imm ≠ 0 → ∀ t, exec (.clrerr rsv imm) s = .next t →
      t.regs.err = true ∧ t.regs.ecode = if s.regs.err then s.regs.ecode else 2)) ∧
  encode (.clrerr 0 0) = 0x0000000800000000

/-- R122, whole: the register index map, its checks, and no state change. -/
def Obligations.RdregReadsTheIndexedRegister : Prop :=
  (∀ (rsv : BitVec 24) (imm : Word) (s : State),
    encode (.rdreg rsv imm) = commandWord rsv 0x09 imm ∧
    (rsv = 0 → imm = 0 → s.regs.seeded = true → Succeeds (.rdreg rsv imm) s s.regs s.regs.x) ∧
    (rsv = 0 → imm = 1 → Succeeds (.rdreg rsv imm) s s.regs s.regs.raw) ∧
    (rsv = 0 → imm = 2 → Succeeds (.rdreg rsv imm) s s.regs s.regs.pix) ∧
    (rsv = 0 → imm = 3 → Succeeds (.rdreg rsv imm) s s.regs
      ((0 : BitVec 24) ++ s.regs.ecode ++ BitVec.ofBool s.regs.err ++
        BitVec.ofBool (s.regs.seeded && decide (s.regs.x = 0)) ++ BitVec.ofBool s.regs.seeded ++
        BitVec.ofBool (decide (s.regs.mode = .colorful)))) ∧
    (rsv ≠ 0 ∨ 3 < imm.toNat → FailsWith (.rdreg rsv imm) s 2) ∧
    (rsv = 0 → imm = 0 → s.regs.seeded = false → FailsWith (.rdreg rsv imm) s 3)) ∧
  Succeeds (.rdreg 0 3) State.reset State.reset.regs 0 ∧
  Succeeds (.rdreg 0 1) State.reset State.reset.regs 0 ∧ Succeeds (.rdreg 0 2) State.reset State.reset.regs 0 ∧
  (∀ t, exec (.seed 0 0) State.reset = .next t → Succeeds (.rdreg 0 3) t t.regs 6) ∧
  encode (.rdreg 0 3) = 0x0000000900000003

/-- R123: RDREG writes no register, flag or field but for the error record of a failed check, and reading the same
index again gives the same word and changes no register, after a failed RDREG too. -/
def Obligations.RdregHasNoSideEffect : Prop :=
  ∀ (rsv : BitVec 24) (imm : Word) (s t : State), exec (.rdreg rsv imm) s = .next t →
    (t.regs = s.regs ∨ ∃ c, Failed s c t) ∧ OutsideUnchanged s t ∧
    ∃ u, exec (.rdreg rsv imm) t = .next u ∧ (u.port s.active).resp = (t.port s.active).resp ∧ u.regs = t.regs

/-- R174: the checks run in order (opcode, RSV and IMM, SEEDED), the first that fails decides the one error, and with
none failed no error is recorded. `wellFormed` states RSV = 0 and R63's constraints apart from the machine. -/
def Obligations.ChecksDecideTheSingleError : Prop :=
  ∀ (w : CommandWord) (s : State), ∃ t, performWord w s = .next t ∧
    match decode w with
    | .illegalOpcode _ => Failed s 1 t
    | .command i =>
      if i.wellFormed = false then Failed s 2 t
      else if needsSeeded i = true ∧ s.regs.seeded = false then Failed s 3 t
      else t.regs.err = s.regs.err ∧ t.regs.ecode = s.regs.ecode ∨ i = .clrerr 0 0

/-- R2, R61, R178, R31, R40: every 64-bit word is performed with exactly one response, whatever the state, and touches
nothing but the active unit's registers and response; a recorded error answers 0. -/
def Obligations.EveryWordGetsOneResponse : Prop :=
  ∀ (w : CommandWord) (s : State), ∃ t v, performWord w s = .next t ∧ (t.port s.active).resp = some v ∧
    OutsideUnchanged s t ∧ (s.regs.err = false → t.regs.err = true → v = 0)

/-- R6: what a command does depends on its own unit's registers alone. -/
def Obligations.CommandReadsOnlyItsUnit : Prop :=
  ∀ (i : Instr) (s s' t t' : State), s.regs = s'.regs → exec i s = .next t → exec i s' = .next t' →
    t.regs = t'.regs ∧ (t.port s.active).resp = (t'.port s'.active).resp

/-- R23: while SEEDED is 0, no command shows or uses X's content. -/
def Obligations.UnseededXIsUnobservable : Prop :=
  ∀ (i : Instr) (v : Word) (s t t' : State), s.regs.seeded = false → exec i s = .next t →
    exec i (s.setRegs { s.regs with x := v }) = .next t' →
    (t'.port s.active).resp = (t.port s.active).resp ∧
    { t'.regs with x := t.regs.x } = t.regs ∧ (t.regs.seeded = true → t'.regs = t.regs)

/-- R27, R172: ERR and ECODE block no command and change nothing a command computes, but the STATUS word itself. -/
def Obligations.ErrBlocksNoCommand : Prop :=
  ∀ (i : Instr) (e : Bool) (c : BitVec 4) (s t t' : State), exec i s = .next t →
    exec i (s.setRegs { s.regs with err := e, ecode := c }) = .next t' →
    t'.regs.x = t.regs.x ∧ t'.regs.seeded = t.regs.seeded ∧ t'.regs.raw = t.regs.raw ∧ t'.regs.pix = t.regs.pix ∧
    t'.regs.mode = t.regs.mode ∧ (i ≠ .rdreg 0 3 → (t'.port s.active).resp = (t.port s.active).resp)

/-- R20's column "written by": which commands can change which register. -/
def Obligations.RegistersChangeOnlyByTheirWriters : Prop :=
  ∀ (i : Instr) (s t : State), exec i s = .next t →
    (t.regs.x ≠ s.regs.x → i.opcode = 0x01 ∨ i.opcode = 0x02 ∨ i.opcode = 0x03 ∨ i.opcode = 0x06) ∧
    (t.regs.seeded ≠ s.regs.seeded → i.opcode = 0x01 ∧ t.regs.seeded = true) ∧
    (t.regs.raw ≠ s.regs.raw → i.opcode = 0x02 ∨ i.opcode = 0x06) ∧
    (t.regs.pix ≠ s.regs.pix → i.opcode = 0x05 ∨ i.opcode = 0x06 ∨ i.opcode = 0x07) ∧
    (t.regs.mode ≠ s.regs.mode → i.opcode = 0x04) ∧
    (t.regs.err ≠ s.regs.err ∨ t.regs.ecode ≠ s.regs.ecode → i.opcode = 0x08 ∨ ∃ c, Failed s c t)

/-- R27, R28: ERR is sticky and ECODE keeps the first code; only a CLRERR that passes its checks clears them. -/
def Obligations.FirstErrorIsKeptUntilCleared : Prop :=
  ∀ (i : Instr) (s t : State), s.regs.err = true → exec i s = .next t →
    (t.regs.err = true ∧ t.regs.ecode = s.regs.ecode) ∨
    (i = .clrerr 0 0 ∧ t.regs.err = false ∧ t.regs.ecode = 0)

/-- R81(a) to (c): mix is a bijection that fixes 0, and no number of mixes takes a value to 0 but 0. -/
def Obligations.MixIsABijectionFixingZero : Prop :=
  Function.Bijective mix ∧ mix 0 = 0 ∧ ∀ (n : Nat) (v : Word), mixN n v = 0 ↔ v = 0

/-- R32, 90_conflicts.md C5: only SEED changes ZS. -/
def Obligations.OnlySeedChangesZeroState : Prop :=
  ∀ (i : Instr) (s t : State), i.opcode ≠ 0x01 → exec i s = .next t → t.regs.zs = s.regs.zs

/-- R85: STEP n and n NEXTs leave the same X; STEP writes no RAW and answers 0 once, the NEXTs write RAW and answer
their n values. -/
def Obligations.StepEqualsRepeatedNext : Prop :=
  ∀ (n : Word) (s : State), s.regs.seeded = true →
    (∃ t u, exec (.step 0 n) s = .next t ∧ performAll (List.replicate n.toNat (.next 0 0)) s = .next u ∧
      t.regs.x = u.regs.x ∧ t.regs = { s.regs with x := u.regs.x } ∧ (t.port s.active).resp = some 0) ∧
    ∀ m, m < n.toNat → ∃ v, performAll (List.replicate (m + 1) (.next 0 0)) s = .next v ∧
      v.regs.x = mixN (m + 1) s.regs.x ∧ v.regs.raw = v.regs.x ∧ (v.port s.active).resp = some v.regs.x

/-- R86: SEED v then STEP 100 leaves X = mix^100(v), answers 0 and 0, and neither makes nor loses a zero state. -/
def Obligations.WarmUpLeavesTheHundredthMix : Prop :=
  (∀ (v : Word) (s : State), ∃ t u, exec (.seed 0 v) s = .next t ∧ exec (.step 0 100) t = .next u ∧
    (t.port s.active).resp = some 0 ∧ (u.port s.active).resp = some 0 ∧
    u.regs = { s.regs with x := mixN 100 v, seeded := true } ∧ (u.regs.x = 0 ↔ v = 0)) ∧
  assemble "INIT 1".toList = .ok [encode (.seed 0 1), encode (.step 0 100)] ∧
  mixN 100 1 = 0x08C93AF7 ∧ mixN 100 42 = 0xB8C5A010

/-- R106: DRAW leaves what NEXT then ENC leave, and answers what ENC answers; NEXT answers X and ENC answers PIX. -/
def Obligations.DrawEqualsNextThenEnc : Prop :=
  ∀ s : State, s.regs.seeded = true → ∃ t u v, exec (.draw 0 0) s = .next t ∧ exec (.next 0 0) s = .next u ∧
    exec (.enc 0 0) u = .next v ∧ t.regs = v.regs ∧ (t.port s.active).resp = (v.port s.active).resp ∧
    (u.port s.active).resp = some u.regs.x ∧ (v.port s.active).resp = some v.regs.pix

/-- R101(a) to (e): the laws of enc. -/
def Obligations.EncoderLaws : Prop :=
  (∀ v w : Word, v.extractLsb' 0 8 = w.extractLsb' 0 8 → pixelEncode v .grayscale = pixelEncode w .grayscale) ∧
  (∀ (v : Word) (ch : Nat), ch < 3 →
    channelByte (pixelEncode v .grayscale) ch = v.extractLsb' 0 8 ∧
    (channelByte (pixelEncode v .grayscale) ch).toNat = v.toNat % 256) ∧
  (∀ v : Word, pixelEncode v .colorful = v &&& 0x00FFFFFF) ∧
  (∀ v m, (pixelEncode v m).extractLsb' 24 8 = 0) ∧
  pixelEncode 0x12345678 .colorful = 0x00345678

/-- R30: the STATUS word that RDREG 3 returns, bit by bit. -/
def Obligations.StatusWordLayout : Prop :=
  ∀ s t : State, exec (.rdreg 0 3) s = .next t → ∃ v, (t.port s.active).resp = some v ∧ t.regs = s.regs ∧
    v.getLsbD 0 = decide (s.regs.mode = .colorful) ∧ v.getLsbD 1 = s.regs.seeded ∧
    v.getLsbD 2 = (s.regs.seeded && decide (s.regs.x = 0)) ∧ v.getLsbD 3 = s.regs.err ∧
    v.extractLsb' 4 4 = s.regs.ecode ∧ v.extractLsb' 8 24 = 0

/-- R47: a second identical NOP, SEED, SETMODE, ENC, ENCI, CLRERR, RDREG or STEP 0 changes no register further. -/
def Obligations.RepeatingAnIdempotentCommand : Prop :=
  ∀ (i : Instr) (s t u : State), i.opcode ≠ 0x02 → i.opcode ≠ 0x06 → (i.opcode = 0x03 → i.imm = 0) →
    exec i s = .next t → exec i t = .next u → u.regs = t.regs

/-- R35, R190: what reset leaves in every unit (X has no value there: R23 and `UnseededXIsUnobservable`), every port
waiting for its first command (R191). The response slot, the host's fields and the agenda are the model's choice and are
not stated. -/
def Obligations.ResetLeavesTheListedValues : Prop :=
  ∀ k : Nat, (State.reset.unit k).seeded = false ∧ (State.reset.unit k).raw = 0 ∧ (State.reset.unit k).pix = 0 ∧
    (State.reset.unit k).mode = .grayscale ∧ (State.reset.unit k).err = false ∧ (State.reset.unit k).ecode = 0 ∧
    (State.reset.unit k).zs = false ∧ (State.reset.unit k).status = 0 ∧ State.reset.busy k = false

/-- R190: a reset of unit k gives its registers their reset values and abandons the command in flight without a
response; no other unit, port or byte of host memory changes. That a reset is an event of the agenda is the model's
choice (log entry 2). -/
def Obligations.UnitResetAffectsThatUnitOnly : Prop :=
  ∀ (s : State) (k : Nat) (rest : List Event), s.agenda = .reset k :: rest → unitExists k = true →
    ∃ t, step s = .next t ∧ t.agenda = rest ∧
      (t.unit k).seeded = false ∧ (t.unit k).raw = 0 ∧ (t.unit k).pix = 0 ∧ (t.unit k).mode = .grayscale ∧
      (t.unit k).err = false ∧ (t.unit k).ecode = 0 ∧ t.busy k = false ∧ (t.port k).resp = (s.port k).resp ∧
      (∀ j, j ≠ k → t.unit j = s.unit j ∧ t.port j = s.port j) ∧ (∀ a, t.memRead a = s.memRead a) ∧
      t.hostMaster = s.hostMaster ∧ t.hostDraws = s.hostDraws ∧ t.buffer = s.buffer ∧ t.handedOff = s.handedOff

/-- The invariant holds at reset. -/
def Obligations.InvariantHoldsAtReset : Prop := State.reset.Inv

/-- Every step keeps the invariant: PIX[31:24] = 0 (R25), ECODE is legal and NONE exactly while ERR = 0 (R27, R28,
R170), nothing is drawn before a seed (R23, R24), a command in flight has no response yet (R194), commands are in flight
only at units that exist (R6), every RasterBuffer is readable throughout and its unwritten slots hold 0 (R42), no two of
them share a byte and those handed off are complete (R152), and the lists stay canonical. What a buffer records of its
slots, and that a later buffer lies beside the earlier ones, is the model's choice (log entry 8). -/
def Obligations.StepKeepsTheInvariant : Prop :=
  ∀ s t : State, s.Inv → step s = .next t → t.Inv

/-- R194, R34: the host's next command to a unit waits until the one in flight has been answered; sending to a unit
with none in flight puts the word in flight, with no response and no register of any unit changed yet. The port's two
slots are the model's choice (log entry 4), and so is that a command which a reset abandoned no longer counts as in
flight (log entry 17). -/
def Obligations.SendWaitsForTheResponse : Prop :=
  ∀ (s : State) (k : Nat) (src : CommandSource) (rest : List Event), s.agenda = .send k src :: rest →
    (s.busy k = true → ∃ t v, step s = .next t ∧ t.agenda = s.agenda ∧ t.busy k = false ∧ (t.port k).resp = some v) ∧
    (s.busy k = false → unitExists k = true → ∀ w, s.resolve src = some w → ∃ t, step s = .next t ∧ t.agenda = rest ∧
      t.port k = { cmd := some w, resp := none } ∧ (∀ j, t.unit j = s.unit j) ∧
      (∀ j, j ≠ k → t.port j = s.port j) ∧ (∀ a, t.memRead a = s.memRead a) ∧ t.hostMaster = s.hostMaster ∧
      t.hostDraws = s.hostDraws ∧ t.buffer = s.buffer ∧ t.handedOff = s.handedOff)

/-- R197's liveness assumption as the model carries it out (log entry 5): with the agenda used up, every command in
flight completes within as many steps as there are ports listed. -/
def Obligations.CommandsInFlightComplete : Prop :=
  ∀ s : State, s.agenda = [] → ∃ n t, n ≤ s.ports.length ∧ RunsTo n s t ∧ t.agenda = [] ∧ ∀ k, t.busy k = false

/-- R184, R175: with nothing on the agenda and nothing in flight, nothing changes. -/
def Obligations.IdleSystemStaysAsItIs : Prop :=
  ∀ s : State, s.agenda = [] → (∀ k, s.busy k = false) → ∀ n, RunsTo n s s

/-- R51: commands in flight at two units may complete in either order: every register, response and byte of host memory
comes out the same. -/
def Obligations.CommandsOfDifferentUnitsCommute : Prop :=
  ∀ (s : State) (j k : Nat), j ≠ k → ∃ a b c d, completeCommand j s = .next a ∧ completeCommand k a = .next b ∧
    completeCommand k s = .next c ∧ completeCommand j c = .next d ∧
    (∀ m, b.unit m = d.unit m ∧ b.port m = d.port m) ∧ (∀ addr, b.memRead addr = d.memRead addr) ∧
    b.agenda = d.agenda ∧ b.hostMaster = d.hostMaster ∧ b.hostDraws = d.hostDraws ∧ b.buffer = d.buffer ∧
    b.handedOff = d.handedOff

/-- R148: one pixel. DRAW is sent, performed and answered with p, whose channels go to the three bytes from the slot's
address, R then G then B; p[31:24] is 0 and not stored; every other byte of host memory is as before. That the host's
acts are events, one step each, and that the buffer records the slots written, is the model's choice (log entries 2, 5
and 8). -/
def Obligations.DrawnPixelIsStoredByteByByte : Prop :=
  ∀ (run : RunInputs) (k i j : Nat) (rest : List Event) (b : Buffer) (s : State),
    s.agenda = drawPixel run k i j ++ rest → unitExists k = true → s.busy k = false → (s.unit k).seeded = true →
    s.buffer = some b → b.holdsSlot (pixelSlot run i j) = true → pixelSlot run i j ∉ b.written →
    ∃ t p, RunsTo 3 s t ∧ t.agenda = rest ∧ (t.port k).resp = some p ∧
      p = pixelEncode (mix (s.unit k).x) (s.unit k).mode ∧ p.extractLsb' 24 8 = 0 ∧
      (t.unit k).x = mix (s.unit k).x ∧
      t.memRead (b.slotAddress (pixelSlot run i j)) = some (p.extractLsb' 0 8) ∧
      t.memRead (b.slotAddress (pixelSlot run i j) + 1) = some (p.extractLsb' 8 8) ∧
      t.memRead (b.slotAddress (pixelSlot run i j) + 2) = some (p.extractLsb' 16 8) ∧
      (∀ a, a < b.slotAddress (pixelSlot run i j) ∨ b.slotAddress (pixelSlot run i j) + 3 ≤ a →
        t.memRead a = s.memRead a) ∧
      t.buffer = some (b.markWritten (pixelSlot run i j)) ∧ t.handedOff = s.handedOff ∧
      t.hostMaster = s.hostMaster ∧ t.hostDraws = s.hostDraws

/-- R42, R41: the buffer is sized exactly 3 * W * H bytes and every one of them is 0; no other byte changes. That a
buffer may be allocated beside those already handed off is the model's choice (log entry 8). -/
def Obligations.AllocatedBufferIsZero : Prop :=
  ∀ (s : State) (base : Nat) (width height : Word) (rest : List Event),
    s.agenda = .host (.allocate base width height) :: rest → s.readyFor (newBuffer base width height) →
    ∃ t, step s = .next t ∧ t.agenda = rest ∧
      t.buffer = some { base := base, bytes := 3 * (width.toNat * height.toNat), written := [] } ∧
      (∀ a, base ≤ a → a < base + 3 * (width.toNat * height.toNat) → t.memRead a = some 0) ∧
      (∀ a, a < base ∨ base + 3 * (width.toNat * height.toNat) ≤ a → t.memRead a = s.memRead a) ∧
      (∀ k, t.unit k = s.unit k ∧ t.port k = s.port k) ∧ t.hostMaster = s.hostMaster ∧ t.hostDraws = s.hostDraws ∧
      t.handedOff = s.handedOff

/-- R141: whatever a run would send, its first step rejects it exactly when the exact product W * H exceeds 2^32 - 1;
otherwise that step changes nothing but the agenda, which is the model's form of what the host does (log entry 2). The
spec's example is rejected. -/
def Obligations.OverflowingRunIsRejectedFirst : Prop :=
  (∀ (run : RunInputs) (es : List Event) (s : State), s.agenda = runAround run es →
    (2 ^ 32 - 1 < run.width.toNat * run.height.toNat → step s = .fault .dimensionOverflow) ∧
    (run.width.toNat * run.height.toNat ≤ 2 ^ 32 - 1 →
      step s = .next { s with agenda := s.agenda.tail })) ∧
  2 ^ 32 - 1 < (0xFFFFFFFF : Word).toNat * (2 : Word).toNat

/-- R142: a run with a zero dimension ends with an empty RasterBuffer handed off, no pixel written and no unit or byte
of host memory changed. Sending no command is the model's choice among those R142 allows (log entry 7). -/
def Obligations.ZeroDimensionGivesAnEmptyBuffer : Prop :=
  ∀ (run : RunInputs) (es : List Event) (s : State), s.agenda = runAround run es → s.buffer = none →
    (run.width = 0 ∨ run.height = 0) →
    ∃ t, RunsTo 3 s t ∧ t.agenda = [] ∧ t.buffer = none ∧
      t.handedOff = { base := run.base, bytes := 0, written := [] } :: s.handedOff ∧
      (∀ a, t.memRead a = s.memRead a) ∧ ∀ k, t.unit k = s.unit k ∧ t.port k = s.port k

/-- R179: a hand-off whose byte count is not W * H * 3 is a fault; one with the right count goes through once every slot
is written (R152). The buffer's record of its written slots, and the refusal of a hand-off with a slot not yet written,
are the model's choice (log entry 8). -/
def Obligations.HandOffChecksTheShape : Prop :=
  ∀ (s : State) (width height : Word) (rest : List Event) (b : Buffer),
    s.agenda = .host (.handOff width height) :: rest → s.buffer = some b →
    (b.bytes ≠ width.toNat * height.toNat * 3 → step s = .fault .shapeMismatch) ∧
    (b.bytes = width.toNat * height.toNat * 3 → (∀ slot, slot < width.toNat * height.toNat → slot ∈ b.written) →
      ∃ t, step s = .next t ∧ t.agenda = rest ∧ t.buffer = none ∧ t.handedOff = b :: s.handedOff ∧
        (∀ a, t.memRead a = s.memRead a) ∧ ∀ k, t.unit k = s.unit k ∧ t.port k = s.port k) ∧
    (b.bytes = width.toNat * height.toNat * 3 → (∃ slot, slot < width.toNat * height.toNat ∧ slot ∉ b.written) →
      step s = .refused (.nonconformingHost .incompleteHandOff))

/-- 93_implementation_defined.md U6: a host that waits for a response that never comes is stuck (the fault is the
model's name for it, log entry 8); where it came, the host takes it as its master value (R150), or as a row's master
draw, which is its master value too (R144, R151). -/
def Obligations.HostTakesAResponseOrIsStuck : Prop :=
  ∀ (s : State) (k : Nat) (rest : List Event), s.busy k = false →
    (s.agenda = .host (.takeMaster k) :: rest →
      ((s.port k).resp = none → step s = .fault (.noResponse k)) ∧
      ∀ v, (s.port k).resp = some v → step s = .next { s with agenda := rest, hostMaster := v }) ∧
    ∀ row, s.agenda = .host (.takeDraw k row) :: rest →
      ((s.port k).resp = none → step s = .fault (.noResponse k)) ∧
      ∀ v, (s.port k).resp = some v → ∃ t, step s = .next t ∧ t.agenda = rest ∧ t.hostMaster = v ∧
        sparseFind t.hostDraws row = some v ∧
        (∀ j, j ≠ row → sparseFind t.hostDraws j = sparseFind s.hostDraws j) ∧ t.buffer = s.buffer ∧
        t.handedOff = s.handedOff ∧ (∀ j, t.unit j = s.unit j ∧ t.port j = s.port j) ∧
        ∀ a, t.memRead a = s.memRead a

/-- R6, R182: there are NUM_UNITS units, at least one, and no port beyond them: a command or a reset sent there is a
fault (log entry 3). -/
def Obligations.NoUnitBeyondNumUnits : Prop :=
  1 ≤ Config.numUnits ∧
  ∀ (s : State) (k : Nat) (rest : List Event), Config.numUnits ≤ k → s.busy k = false →
    (∀ src, s.agenda = .send k src :: rest → step s = .fault (.noSuchUnit k)) ∧
    (s.agenda = .reset k :: rest → step s = .fault (.noSuchUnit k))

/-- R149: the row task, on any unit and from any state with its slots in an open buffer and not yet written, ends with
the row's W samples in their slots and X = mix^W of the warmed-up seed. The agenda, the time of completion and
the buffer's record of its written slots are the model's form of what the host does (log entries 2, 5, 7 and 8). -/
def Obligations.RowTaskStoresItsRow : Prop :=
  ∀ (run : RunInputs) (k i : Nat) (v : Word) (b : Buffer) (s : State),
    s.agenda = rowTask run k i (.word (encode (.seed 0 v))) → unitExists k = true → s.buffer = some b →
    (∀ j, j < run.width.toNat →
      b.holdsSlot (pixelSlot run i j) = true ∧ pixelSlot run i j ∉ b.written) →
    ∃ n t, RunsTo n s t ∧ t.agenda = [] ∧ (∀ m, t.busy m = false) ∧
      (t.unit k).x = mixN run.width.toNat (mixN 100 v) ∧ (t.unit k).seeded = true ∧ (t.unit k).mode = run.mode ∧
      (∀ j ch, j < run.width.toNat → ch < 3 → t.memRead (b.slotAddress (pixelSlot run i j) + ch) =
        some (channelByte (pixelEncode (mixN (j + 1) (mixN 100 v)) run.mode) ch)) ∧
      (∀ a, a < b.slotAddress (pixelSlot run i 0) ∨ b.slotAddress (pixelSlot run i 0) + 3 * run.width.toNat ≤ a →
        t.memRead a = s.memRead a) ∧
      t.handedOff = s.handedOff ∧ ∃ b', t.buffer = some b' ∧ b'.base = b.base ∧ b'.bytes = b.bytes ∧
        ∀ slot, slot ∈ b'.written ↔ slot ∈ b.written ∨ ∃ j, j < run.width.toNat ∧ slot = pixelSlot run i j

/-- R150, R147: the single-unit realisation, on any unit that exists and whatever any unit held or had in flight before,
ends with the RasterBuffer of R147 handed off, for every value of the four constants. The agenda, the time of
completion and the buffer's record of its written slots are the model's form of what the host does (log entries 2, 5, 7
and 8). -/
def Obligations.SingleUnitRunGivesTheRaster : Prop :=
  ∀ (c : Config.SeedConstants) (run : RunInputs) (k : Nat) (s : State),
    s.agenda = singleUnitRun c run k → unitExists k = true → s.readyForRun run →
    run.width.toNat * run.height.toNat ≤ 2 ^ 32 - 1 →
    ∃ n t, RunsTo n s t ∧ RunEnded c run s t

/-- R151, R153: with the master draws taken in the host's own arithmetic and the rows given to any units, in any order
and with any overlap between units, the RasterBuffer is the same one, that of R147. The agenda is the model's form of
what the host does (log entries 2, 5, 7 and 8). -/
def Obligations.OverlappedRowsGiveTheRaster : Prop :=
  ∀ (c : Config.SeedConstants) (run : RunInputs) (tasks : List (Nat × Nat)) (es : List Event) (s : State),
    s.agenda = runAround run es → overlapsRows c run tasks es →
    (tasks.map Prod.fst).Perm (List.range run.height.toNat) → (∀ task ∈ tasks, unitExists task.2 = true) →
    s.readyForRun run → run.width.toNat * run.height.toNat ≤ 2 ^ 32 - 1 →
    ∃ n t, RunsTo n s t ∧ RunEnded c run s t

/-- R155: with SEED_MUL odd exactly one seed makes the master pre-state zero; then every row starts from ROW_ADD; and a
zero row seed makes every pixel of its row 0. -/
def Obligations.ZeroStatesOfARun : Prop :=
  ∀ c : Config.SeedConstants, c.admissible = true →
    (∃ z, masterSeed c z = 0 ∧ ∀ seed, masterSeed c seed = 0 → seed = z) ∧
    (∀ seed, masterSeed c seed = 0 → masterStart c seed = 0 ∧
      ∀ i, masterDraw c seed i = 0 ∧ rowSeed c seed i = c.rowAdd) ∧
    ∀ seed i, rowSeed c seed i = 0 → rowStart c seed i = 0 ∧ ∀ m j, sampleAt c seed m i j = 0

/-- R154: a Grayscale RasterBuffer has R = G = B in every slot, and a byte still holds its initial 0 only where its
sample is 0. -/
def Obligations.GrayscaleRasterHasEqualChannels : Prop :=
  ∀ (c : Config.SeedConstants) (run : RunInputs) (s t : State) (i j ch : Nat), HoldsRaster c run s t →
    run.mode = .grayscale → i < run.height.toNat → j < run.width.toNat → ch < 3 →
    t.memRead (pixelAddress run i j + ch) = t.memRead (pixelAddress run i j) ∧
    (t.memRead (pixelAddress run i j + ch) = some 0 ↔ sampleAt c run.seed run.mode i j = 0)

/-- R68: every word the assembler emits is a command with RSV = 0 that meets its form's constraint, so none raises
ILLEGAL_OPCODE or RESERVED_FIELD. -/
def Obligations.AssembledWordsAreWellFormed : Prop :=
  ∀ (text : List Char) (ws : List CommandWord), assemble text = .ok ws → ∀ w ∈ ws,
    rsvField w = 0 ∧ ∃ i, decode w = .command i ∧ i.wellFormed = true

/-- R69: the line of each pseudo-instruction assembles to the words of its expansion, in order, which are the words its
expansion's own lines assemble to. The words are written out from R60 and R64. What text R68 leaves open is the model's
choice (log entry 13) and is not stated. -/
def Obligations.PseudoInstructionsExpand : Prop :=
  (∀ a v, parseU32 a = .ok v →
    assemble ("INIT ".toList ++ a) = .ok [commandWord 0 0x01 v, 0x0000000300000064] ∧
    assemble ("INIT ".toList ++ a) = assemble ("SEED ".toList ++ a ++ "\nSTEP 100".toList)) ∧
  (assemble "WARM".toList = .ok [0x0000000300000064] ∧ assemble "WARM".toList = assemble "STEP 100".toList) ∧
  (assemble "SETGRAY".toList = .ok [0x0000000400000000] ∧
    assemble "SETGRAY".toList = assemble "SETMODE GRAY".toList) ∧
  (assemble "SETCOLOR".toList = .ok [0x0000000400000001] ∧
    assemble "SETCOLOR".toList = assemble "SETMODE COLOR".toList) ∧
  (assemble "RDX".toList = .ok [0x0000000900000000] ∧ assemble "RDX".toList = assemble "RDREG X".toList) ∧
  (assemble "RDSTATUS".toList = .ok [0x0000000900000003] ∧
    assemble "RDSTATUS".toList = assemble "RDREG STATUS".toList)

/-- R151, R144, R153: with the master generator on a unit, which the host may use for rows too (it then brings the
master state back by SEED m, as R150 does), the draws taken in row order, and the row tasks on any units, in any order
after their draws and with any overlap between units, the RasterBuffer is again that of R147. The agenda is the model's
form of what the host does (log entries 2, 5, 7 and 8). -/
def Obligations.UnitDrawnSeedsGiveTheRaster : Prop :=
  ∀ (c : Config.SeedConstants) (run : RunInputs) (mk : Nat) (jobs : List Job) (es : List Event) (s : State),
    s.agenda = runAround run es → overlapsMasterUnit c run mk jobs es → unitExists mk = true →
    (∀ task ∈ rowTasks jobs, unitExists task.2 = true) →
    s.readyForRun run → run.width.toNat * run.height.toNat ≤ 2 ^ 32 - 1 →
    ∃ n t, RunsTo n s t ∧ RunEnded c run s t

/-- R42, R152: no step changes a byte of a RasterBuffer that has been handed off, takes back a hand-off, reallocates or
resizes the buffer being filled, or changes the pixel of a slot written before. It rests on the invariant, which keeps
the buffers apart (log entry 8). -/
def Obligations.WrittenPixelsAreNeverOverwritten : Prop :=
  ∀ s t : State, s.Inv → step s = .next t →
    (∀ b ∈ s.handedOff, b ∈ t.handedOff ∧
      ∀ a, b.base ≤ a → a < b.base + b.bytes → t.memRead a = s.memRead a) ∧
    ∀ b, s.buffer = some b → ∃ b', (t.buffer = some b' ∧ t.handedOff = s.handedOff ∨
        t.buffer = none ∧ t.handedOff = b' :: s.handedOff) ∧
      b'.base = b.base ∧ b'.bytes = b.bytes ∧ ∀ slot ∈ b.written, slot ∈ b'.written ∧
        ∀ ch, ch < 3 → t.memRead (b.slotAddress slot + ch) = s.memRead (b.slotAddress slot + ch)

/-- R42, R147, R152: the host's ways to break a buffer rule are refused, each under its name: a slot written twice, a
pixel outside the buffer, an allocation mid-fill, one over a buffer handed off, and a pixel or a hand-off with no buffer
open. The refusals are the model's (log entry 8). -/
def Obligations.HostBreachesAreRefused : Prop :=
  ∀ (s : State) (rest : List Event),
    (∀ k slot b, s.agenda = .host (.storePixel k slot) :: rest → s.busy k = false → s.buffer = some b →
      (b.bytes < 3 * slot + 3 → step s = .refused (.nonconformingHost .outsideBuffer)) ∧
      (3 * slot + 3 ≤ b.bytes → slot ∈ b.written → step s = .refused (.nonconformingHost .slotWrittenTwice))) ∧
    (∀ base width height, s.agenda = .host (.allocate base width height) :: rest →
      (∀ b, s.buffer = some b → step s = .refused (.nonconformingHost .reallocation)) ∧
      ∀ b ∈ s.handedOff, ∀ a, s.buffer = none → b.base ≤ a → a < b.base + b.bytes → base ≤ a →
        a < base + 3 * (width.toNat * height.toNat) → step s = .refused (.nonconformingHost .afterHandOff)) ∧
    (s.buffer = none →
      ((∃ k slot, s.agenda = .host (.storePixel k slot) :: rest ∧ s.busy k = false) ∨
        ∃ width height, s.agenda = .host (.handOff width height) :: rest) →
      step s = .refused (.nonconformingHost (if s.handedOff = [] then .noBuffer else .afterHandOff)))

/-- R149, R150, R151: the seeds the host makes from its own variables, with 32-bit wrap: SEED m, SEED aff(m, ..), and
SEED aff(d_row, ..) once that row's draw has been taken. Before that the send is refused, as the model names it (log
entry 8). -/
def Obligations.HostSeedsComeFromItsDraws : Prop :=
  ∀ (s : State) (k : Nat) (rest : List Event), s.busy k = false → unitExists k = true →
    (s.agenda = .send k .seedMaster :: rest → ∃ t, step s = .next t ∧ t.agenda = rest ∧
      (t.port k).cmd = some (commandWord 0 0x01 s.hostMaster)) ∧
    (∀ mul add, s.agenda = .send k (.seedAffine mul add) :: rest → ∃ t, step s = .next t ∧ t.agenda = rest ∧
      (t.port k).cmd = some (commandWord 0 0x01 (s.hostMaster * mul + add))) ∧
    ∀ row mul add, s.agenda = .send k (.seedRow row mul add) :: rest →
      (∀ d, sparseFind s.hostDraws row = some d → ∃ t, step s = .next t ∧ t.agenda = rest ∧
        (t.port k).cmd = some (commandWord 0 0x01 (d * mul + add))) ∧
      (sparseFind s.hostDraws row = none → step s = .refused (.nonconformingHost .drawNotTaken))
end

