-- ==== Sys2Proof/Laws/Sparse.lean ====
section
/-! SUPPORT. What the sparse lists of Machine/Sparse.lean do: a lookup after an update, and the canonical form kept. -/

namespace Sys2Proof.Machine

variable {α : Type}

@[simp] theorem sparseFind_nil (k : Nat) : sparseFind ([] : List (Nat × α)) k = none := rfl

theorem sparseFind_insert_same (l : List (Nat × α)) (k : Nat) (v : α) :
    sparseFind (sparseInsert l k v) k = some v := by
  induction l with
  | nil => simp [sparseInsert, sparseFind]
  | cons e rest ih =>
    obtain ⟨j, u⟩ := e
    by_cases h1 : k < j
    · simp [sparseInsert, sparseFind, h1]
    · by_cases h2 : k = j
      · simp [sparseInsert, sparseFind, h2]
      · simp [sparseInsert, sparseFind, h1, h2, ih, Ne.symm h2]

theorem sparseFind_insert_ne (l : List (Nat × α)) {j k : Nat} (v : α) (h : j ≠ k) :
    sparseFind (sparseInsert l k v) j = sparseFind l j := by
  induction l with
  | nil => simp [sparseInsert, sparseFind, h.symm]
  | cons e rest ih =>
    obtain ⟨i, u⟩ := e
    by_cases h1 : k < i
    · simp [sparseInsert, sparseFind, h1, h.symm]
    · by_cases h2 : k = i
      · subst h2
        simp [sparseInsert, sparseFind, h.symm]
      · rw [sparseInsert, if_neg h1, if_neg h2, sparseFind, sparseFind, ih]

theorem sparseFind_erase_same (l : List (Nat × α)) (k : Nat) : sparseFind (sparseErase l k) k = none := by
  induction l with
  | nil => rfl
  | cons e rest ih =>
    obtain ⟨j, u⟩ := e
    by_cases h : j = k
    · simpa [sparseErase, h] using ih
    · simpa [sparseErase, sparseFind, h] using ih

theorem sparseFind_erase_ne (l : List (Nat × α)) {j k : Nat} (h : j ≠ k) :
    sparseFind (sparseErase l k) j = sparseFind l j := by
  induction l with
  | nil => rfl
  | cons e rest ih =>
    obtain ⟨i, u⟩ := e
    by_cases h1 : i = k
    · have h2 : i ≠ j := fun h3 => h (h3 ▸ h1)
      simpa [sparseErase, sparseFind, h1, h2, h.symm] using ih
    · by_cases h2 : i = j
      · simp [sparseErase, sparseFind, h2, h]
      · simpa [sparseErase, sparseFind, h1, h2] using ih

@[simp] theorem sparseGet_nil (d : α) (k : Nat) : sparseGet d [] k = d := rfl

section
variable [DecidableEq α]

@[simp] theorem sparseGet_set_same (d : α) (l : List (Nat × α)) (k : Nat) (v : α) :
    sparseGet d (sparseSet d l k v) k = v := by
  by_cases h : v = d
  · simp [sparseGet, sparseSet, h, sparseFind_erase_same]
  · simp [sparseGet, sparseSet, h, sparseFind_insert_same]

theorem sparseGet_set_ne (d : α) (l : List (Nat × α)) {j k : Nat} (v : α) (h : j ≠ k) :
    sparseGet d (sparseSet d l k v) j = sparseGet d l j := by
  by_cases hv : v = d
  · simp [sparseGet, sparseSet, hv, sparseFind_erase_ne l h]
  · simp [sparseGet, sparseSet, hv, sparseFind_insert_ne l v h]

end

/-- Strictly rising numbers, as the library's pairwise relation. -/
theorem sparseRising_iff (l : List (Nat × α)) :
    sparseRising l = true ↔ l.Pairwise fun a b => a.1 < b.1 := by
  induction l with
  | nil => simp [sparseRising]
  | cons e rest ih =>
    obtain ⟨j, u⟩ := e
    cases rest with
    | nil => simp [sparseRising]
    | cons f more =>
      obtain ⟨k, v⟩ := f
      rw [sparseRising, Bool.and_eq_true, decide_eq_true_iff, ih, List.pairwise_cons (a := (j, u))]
      refine ⟨fun ⟨hjk, hr⟩ => ⟨fun b hb => ?_, hr⟩, fun ⟨hall, hr⟩ => ⟨hall (k, v) (by simp), hr⟩⟩
      rcases List.mem_cons.1 hb with rfl | hb'
      · exact hjk
      · exact Nat.lt_trans hjk ((List.pairwise_cons.1 hr).1 b hb')

theorem mem_sparseInsert {l : List (Nat × α)} {k : Nat} {v : α} {e : Nat × α}
    (h : e ∈ sparseInsert l k v) : e = (k, v) ∨ e ∈ l := by
  induction l with
  | nil => simpa [sparseInsert] using h
  | cons f rest ih =>
    obtain ⟨j, u⟩ := f
    by_cases h1 : k < j
    · simpa [sparseInsert, h1] using h
    · by_cases h2 : k = j
      · rw [sparseInsert, if_neg h1, if_pos h2] at h
        rcases List.mem_cons.1 h with h3 | h3
        · exact .inl h3
        · exact .inr (List.mem_cons_of_mem _ h3)
      · rw [sparseInsert, if_neg h1, if_neg h2] at h
        rcases List.mem_cons.1 h with h3 | h3
        · exact .inr (h3 ▸ List.mem_cons_self)
        · exact (ih h3).imp_right (List.mem_cons_of_mem _)

theorem sparseRising_insert {l : List (Nat × α)} (k : Nat) (v : α) (h : sparseRising l = true) :
    sparseRising (sparseInsert l k v) = true := by
  rw [sparseRising_iff] at h ⊢
  induction l with
  | nil => simp [sparseInsert]
  | cons f rest ih =>
    obtain ⟨j, u⟩ := f
    obtain ⟨hj, hr⟩ := List.pairwise_cons.1 h
    by_cases h1 : k < j
    · rw [sparseInsert, if_pos h1]
      refine List.pairwise_cons.2 ⟨fun b hb => ?_, h⟩
      rcases List.mem_cons.1 hb with rfl | hb'
      · exact h1
      · exact Nat.lt_trans h1 (hj b hb')
    · by_cases h2 : k = j
      · rw [sparseInsert, if_neg h1, if_pos h2]
        exact List.pairwise_cons.2 ⟨fun b hb => h2 ▸ hj b hb, hr⟩
      · rw [sparseInsert, if_neg h1, if_neg h2]
        refine List.pairwise_cons.2 ⟨fun b hb => ?_, ih hr⟩
        rcases mem_sparseInsert hb with rfl | hb'
        · exact Nat.lt_of_le_of_ne (Nat.le_of_not_lt h1) (Ne.symm h2)
        · exact hj b hb'

theorem sparseRising_erase {l : List (Nat × α)} (k : Nat) (h : sparseRising l = true) :
    sparseRising (sparseErase l k) = true := by
  rw [sparseRising_iff] at h ⊢
  exact h.sublist List.filter_sublist

section
variable [DecidableEq α]

theorem sparseCanonical_iff (d : α) (l : List (Nat × α)) :
    sparseCanonical d l = true ↔ sparseRising l = true ∧ ∀ e ∈ l, e.2 ≠ d := by
  simp [sparseCanonical]

/-- An update keeps the canonical form. -/
theorem sparseCanonical_set {d : α} {l : List (Nat × α)} (k : Nat) (v : α) (h : sparseCanonical d l = true) :
    sparseCanonical d (sparseSet d l k v) = true := by
  rw [sparseCanonical_iff] at h ⊢
  by_cases hv : v = d
  · rw [sparseSet, if_pos hv]
    exact ⟨sparseRising_erase k h.1, fun e he => h.2 e (List.mem_filter.1 he).1⟩
  · rw [sparseSet, if_neg hv]
    refine ⟨sparseRising_insert k v h.1, fun e he => ?_⟩
    rcases mem_sparseInsert he with rfl | he'
    · exact hv
    · exact h.2 e he'

end

end Sys2Proof.Machine
end

