-- ==== Sys2Proof/Laws/State.lean ====
section
/-! SUPPORT. One lemma per field per update of the state, and what each accessor reads after each update. -/

namespace Sys2Proof.Machine

section setUnit
variable (s : State) (k : Nat) (u : UnitState)
@[simp] theorem State.setUnit_ports : (s.setUnit k u).ports = s.ports := rfl
@[simp] theorem State.setUnit_active : (s.setUnit k u).active = s.active := rfl
@[simp] theorem State.setUnit_agenda : (s.setUnit k u).agenda = s.agenda := rfl
@[simp] theorem State.setUnit_hostMem : (s.setUnit k u).hostMem = s.hostMem := rfl
@[simp] theorem State.setUnit_hostMaster : (s.setUnit k u).hostMaster = s.hostMaster := rfl
@[simp] theorem State.setUnit_buffer : (s.setUnit k u).buffer = s.buffer := rfl
@[simp] theorem State.setUnit_hostDraws : (s.setUnit k u).hostDraws = s.hostDraws := rfl
@[simp] theorem State.setUnit_handedOff : (s.setUnit k u).handedOff = s.handedOff := rfl
@[simp] theorem State.setUnit_port (j : Nat) : (s.setUnit k u).port j = s.port j := rfl
@[simp] theorem State.setUnit_busy (j : Nat) : (s.setUnit k u).busy j = s.busy j := rfl
@[simp] theorem State.setUnit_memRead (a : Nat) : (s.setUnit k u).memRead a = s.memRead a := rfl
@[simp] theorem State.unit_setUnit_same : (s.setUnit k u).unit k = u := sparseGet_set_same ..
theorem State.unit_setUnit_ne {j : Nat} (h : j ≠ k) : (s.setUnit k u).unit j = s.unit j := sparseGet_set_ne _ _ _ h
end setUnit

section setPort
variable (s : State) (k : Nat) (p : Port)
@[simp] theorem State.setPort_units : (s.setPort k p).units = s.units := rfl
@[simp] theorem State.setPort_active : (s.setPort k p).active = s.active := rfl
@[simp] theorem State.setPort_agenda : (s.setPort k p).agenda = s.agenda := rfl
@[simp] theorem State.setPort_hostMem : (s.setPort k p).hostMem = s.hostMem := rfl
@[simp] theorem State.setPort_hostMaster : (s.setPort k p).hostMaster = s.hostMaster := rfl
@[simp] theorem State.setPort_buffer : (s.setPort k p).buffer = s.buffer := rfl
@[simp] theorem State.setPort_hostDraws : (s.setPort k p).hostDraws = s.hostDraws := rfl
@[simp] theorem State.setPort_handedOff : (s.setPort k p).handedOff = s.handedOff := rfl
@[simp] theorem State.setPort_unit (j : Nat) : (s.setPort k p).unit j = s.unit j := rfl
@[simp] theorem State.setPort_regs : (s.setPort k p).regs = s.regs := rfl
@[simp] theorem State.setPort_memRead (a : Nat) : (s.setPort k p).memRead a = s.memRead a := rfl
@[simp] theorem State.port_setPort_same : (s.setPort k p).port k = p := sparseGet_set_same ..
theorem State.port_setPort_ne {j : Nat} (h : j ≠ k) : (s.setPort k p).port j = s.port j := sparseGet_set_ne _ _ _ h
end setPort

section setRegs
variable (s : State) (u : UnitState)
@[simp] theorem State.setRegs_regs : (s.setRegs u).regs = u := s.unit_setUnit_same s.active u
@[simp] theorem State.setRegs_active : (s.setRegs u).active = s.active := rfl
@[simp] theorem State.setRegs_ports : (s.setRegs u).ports = s.ports := rfl
@[simp] theorem State.setRegs_agenda : (s.setRegs u).agenda = s.agenda := rfl
@[simp] theorem State.setRegs_hostMem : (s.setRegs u).hostMem = s.hostMem := rfl
@[simp] theorem State.setRegs_hostMaster : (s.setRegs u).hostMaster = s.hostMaster := rfl
@[simp] theorem State.setRegs_buffer : (s.setRegs u).buffer = s.buffer := rfl
@[simp] theorem State.setRegs_hostDraws : (s.setRegs u).hostDraws = s.hostDraws := rfl
@[simp] theorem State.setRegs_handedOff : (s.setRegs u).handedOff = s.handedOff := rfl
@[simp] theorem State.setRegs_port (j : Nat) : (s.setRegs u).port j = s.port j := rfl
@[simp] theorem State.setRegs_memRead (a : Nat) : (s.setRegs u).memRead a = s.memRead a := rfl
theorem State.unit_setRegs_ne {k : Nat} (h : k ≠ s.active) : (s.setRegs u).unit k = s.unit k :=
  s.unit_setUnit_ne s.active u h
end setRegs

section respond
variable (s : State) (v : Word)
@[simp] theorem State.respond_regs : (s.respond v).regs = s.regs := rfl
@[simp] theorem State.respond_active : (s.respond v).active = s.active := rfl
@[simp] theorem State.respond_units : (s.respond v).units = s.units := rfl
@[simp] theorem State.respond_agenda : (s.respond v).agenda = s.agenda := rfl
@[simp] theorem State.respond_hostMem : (s.respond v).hostMem = s.hostMem := rfl
@[simp] theorem State.respond_hostMaster : (s.respond v).hostMaster = s.hostMaster := rfl
@[simp] theorem State.respond_buffer : (s.respond v).buffer = s.buffer := rfl
@[simp] theorem State.respond_hostDraws : (s.respond v).hostDraws = s.hostDraws := rfl
@[simp] theorem State.respond_handedOff : (s.respond v).handedOff = s.handedOff := rfl
@[simp] theorem State.respond_unit (k : Nat) : (s.respond v).unit k = s.unit k := rfl
@[simp] theorem State.respond_memRead (a : Nat) : (s.respond v).memRead a = s.memRead a := rfl
@[simp] theorem State.port_respond_same :
    (s.respond v).port s.active = { s.port s.active with resp := some v } := s.port_setPort_same ..
theorem State.port_respond_ne {k : Nat} (h : k ≠ s.active) : (s.respond v).port k = s.port k :=
  s.port_setPort_ne _ _ h
end respond

section memWrite
variable (s : State) (a : Nat) (v : Byte)
@[simp] theorem State.memWrite_units : (s.memWrite a v).units = s.units := rfl
@[simp] theorem State.memWrite_ports : (s.memWrite a v).ports = s.ports := rfl
@[simp] theorem State.memWrite_active : (s.memWrite a v).active = s.active := rfl
@[simp] theorem State.memWrite_agenda : (s.memWrite a v).agenda = s.agenda := rfl
@[simp] theorem State.memWrite_hostMaster : (s.memWrite a v).hostMaster = s.hostMaster := rfl
@[simp] theorem State.memWrite_buffer : (s.memWrite a v).buffer = s.buffer := rfl
@[simp] theorem State.memWrite_hostDraws : (s.memWrite a v).hostDraws = s.hostDraws := rfl
@[simp] theorem State.memWrite_handedOff : (s.memWrite a v).handedOff = s.handedOff := rfl
@[simp] theorem State.memWrite_unit (k : Nat) : (s.memWrite a v).unit k = s.unit k := rfl
@[simp] theorem State.memWrite_port (k : Nat) : (s.memWrite a v).port k = s.port k := rfl
@[simp] theorem State.memRead_memWrite_same : (s.memWrite a v).memRead a = some v := sparseFind_insert_same ..
theorem State.memRead_memWrite_ne {b : Nat} (h : b ≠ a) : (s.memWrite a v).memRead b = s.memRead b :=
  sparseFind_insert_ne _ _ h
end memWrite

section agenda
variable (s : State) (es : List Event)
@[simp] theorem State.withAgenda_unit (k : Nat) : ({ s with agenda := es } : State).unit k = s.unit k := rfl
@[simp] theorem State.withAgenda_port (k : Nat) : ({ s with agenda := es } : State).port k = s.port k := rfl
@[simp] theorem State.withAgenda_regs : ({ s with agenda := es } : State).regs = s.regs := rfl
@[simp] theorem State.withAgenda_busy (k : Nat) : ({ s with agenda := es } : State).busy k = s.busy k := rfl
@[simp] theorem State.withAgenda_memRead (a : Nat) : ({ s with agenda := es } : State).memRead a = s.memRead a := rfl
end agenda

section takeCommand
variable (s : State) (k : Nat)
@[simp] theorem State.takeCommand_active : (s.takeCommand k).active = k := rfl
@[simp] theorem State.takeCommand_units : (s.takeCommand k).units = s.units := rfl
@[simp] theorem State.takeCommand_unit (j : Nat) : (s.takeCommand k).unit j = s.unit j := rfl
@[simp] theorem State.takeCommand_regs : (s.takeCommand k).regs = s.unit k := rfl
@[simp] theorem State.takeCommand_agenda : (s.takeCommand k).agenda = s.agenda := rfl
@[simp] theorem State.takeCommand_hostMem : (s.takeCommand k).hostMem = s.hostMem := rfl
@[simp] theorem State.takeCommand_hostMaster : (s.takeCommand k).hostMaster = s.hostMaster := rfl
@[simp] theorem State.takeCommand_buffer : (s.takeCommand k).buffer = s.buffer := rfl
@[simp] theorem State.takeCommand_hostDraws : (s.takeCommand k).hostDraws = s.hostDraws := rfl
@[simp] theorem State.takeCommand_handedOff : (s.takeCommand k).handedOff = s.handedOff := rfl
@[simp] theorem State.takeCommand_memRead (a : Nat) : (s.takeCommand k).memRead a = s.memRead a := rfl
@[simp] theorem State.port_takeCommand_same : (s.takeCommand k).port k = { s.port k with cmd := none } :=
  s.port_setPort_same ..
theorem State.port_takeCommand_ne {j : Nat} (h : j ≠ k) : (s.takeCommand k).port j = s.port j :=
  s.port_setPort_ne _ _ h
end takeCommand

section handOver
variable (s : State) (k : Nat) (w : CommandWord)
@[simp] theorem State.handOver_units : (s.handOver k w).units = s.units := rfl
@[simp] theorem State.handOver_active : (s.handOver k w).active = s.active := rfl
@[simp] theorem State.handOver_agenda : (s.handOver k w).agenda = s.agenda := rfl
@[simp] theorem State.handOver_hostMem : (s.handOver k w).hostMem = s.hostMem := rfl
@[simp] theorem State.handOver_hostMaster : (s.handOver k w).hostMaster = s.hostMaster := rfl
@[simp] theorem State.handOver_buffer : (s.handOver k w).buffer = s.buffer := rfl
@[simp] theorem State.handOver_hostDraws : (s.handOver k w).hostDraws = s.hostDraws := rfl
@[simp] theorem State.handOver_handedOff : (s.handOver k w).handedOff = s.handedOff := rfl
@[simp] theorem State.handOver_unit (j : Nat) : (s.handOver k w).unit j = s.unit j := rfl
@[simp] theorem State.handOver_memRead (a : Nat) : (s.handOver k w).memRead a = s.memRead a := rfl
@[simp] theorem State.port_handOver_same : (s.handOver k w).port k = { cmd := some w, resp := none } :=
  s.port_setPort_same ..
theorem State.port_handOver_ne {j : Nat} (h : j ≠ k) : (s.handOver k w).port j = s.port j :=
  s.port_setPort_ne _ _ h
end handOver

section resetUnit
variable (s : State) (k : Nat)
@[simp] theorem State.resetUnit_active : (s.resetUnit k).active = s.active := rfl
@[simp] theorem State.resetUnit_agenda : (s.resetUnit k).agenda = s.agenda := rfl
@[simp] theorem State.resetUnit_hostMem : (s.resetUnit k).hostMem = s.hostMem := rfl
@[simp] theorem State.resetUnit_hostMaster : (s.resetUnit k).hostMaster = s.hostMaster := rfl
@[simp] theorem State.resetUnit_buffer : (s.resetUnit k).buffer = s.buffer := rfl
@[simp] theorem State.resetUnit_hostDraws : (s.resetUnit k).hostDraws = s.hostDraws := rfl
@[simp] theorem State.resetUnit_handedOff : (s.resetUnit k).handedOff = s.handedOff := rfl
@[simp] theorem State.resetUnit_memRead (a : Nat) : (s.resetUnit k).memRead a = s.memRead a := rfl
@[simp] theorem State.unit_resetUnit_same : (s.resetUnit k).unit k = UnitState.reset :=
  s.unit_setUnit_same k UnitState.reset
theorem State.unit_resetUnit_ne {j : Nat} (h : j ≠ k) : (s.resetUnit k).unit j = s.unit j :=
  s.unit_setUnit_ne k UnitState.reset h
@[simp] theorem State.port_resetUnit_same : (s.resetUnit k).port k = { s.port k with cmd := none } :=
  State.port_setPort_same ..
theorem State.port_resetUnit_ne {j : Nat} (h : j ≠ k) : (s.resetUnit k).port j = s.port j :=
  State.port_setPort_ne _ _ _ h
end resetUnit

section commit
variable (s : State) (e : UnitState × Word)
@[simp] theorem State.commit_regs : (s.commit e).regs = e.1 := s.setRegs_regs e.1
@[simp] theorem State.commit_active : (s.commit e).active = s.active := rfl
@[simp] theorem State.commit_agenda : (s.commit e).agenda = s.agenda := rfl
@[simp] theorem State.commit_hostMem : (s.commit e).hostMem = s.hostMem := rfl
@[simp] theorem State.commit_hostMaster : (s.commit e).hostMaster = s.hostMaster := rfl
@[simp] theorem State.commit_buffer : (s.commit e).buffer = s.buffer := rfl
@[simp] theorem State.commit_hostDraws : (s.commit e).hostDraws = s.hostDraws := rfl
@[simp] theorem State.commit_handedOff : (s.commit e).handedOff = s.handedOff := rfl
@[simp] theorem State.commit_memRead (a : Nat) : (s.commit e).memRead a = s.memRead a := rfl
theorem State.unit_commit_ne {k : Nat} (h : k ≠ s.active) : (s.commit e).unit k = s.unit k := s.unit_setRegs_ne e.1 h
@[simp] theorem State.port_commit_same :
    (s.commit e).port s.active = { s.port s.active with resp := some e.2 } := (s.setRegs e.1).port_respond_same e.2
theorem State.port_commit_ne {k : Nat} (h : k ≠ s.active) : (s.commit e).port k = s.port k :=
  (s.setRegs e.1).port_respond_ne e.2 h
/-- `raise Error(c)` as a commit of the recorded error. -/
theorem State.raiseError_eq_commit (c : ErrorCode) : s.raiseError c = s.commit (s.regs.recordError c, 0) := rfl
end commit

/-- Writing a unit's registers keeps the units' canonical form. -/
theorem setUnit_canonical {s : State} (k : Nat) (u : UnitState) (h : sparseCanonical UnitState.reset s.units = true) :
    sparseCanonical UnitState.reset (s.setUnit k u).units = true := sparseCanonical_set k u h

/-- Writing a port keeps the ports' canonical form. -/
theorem setPort_canonical {s : State} (k : Nat) (p : Port) (h : sparseCanonical Port.idle s.ports = true) :
    sparseCanonical Port.idle (s.setPort k p).ports = true := sparseCanonical_set k p h

/-- Unit numbers run below `NUM_UNITS` (00_scope.md R6). -/
theorem unitExists_iff (k : Nat) : unitExists k = true ↔ k < Config.numUnits := by
  simp only [unitExists, Config.numUnits, Bool.or_eq_true, beq_iff_eq, decide_eq_true_iff]
  omega

/-- `NUM_UNITS` is at least 1 (00_scope.md R8). -/
@[simp] theorem unitExists_zero : unitExists 0 = true := rfl

@[simp] theorem reset_unit (k : Nat) : State.reset.unit k = UnitState.reset := rfl
@[simp] theorem reset_port (k : Nat) : State.reset.port k = Port.idle := rfl
@[simp] theorem reset_memRead (a : Nat) : State.reset.memRead a = none := rfl

end Sys2Proof.Machine
end

