-- ==== Sys2Proof/Laws/Commands.lean ====
section
/-! SUPPORT. What performing one command can do: the shared operations of Ops and Operands, said once. -/

namespace Sys2Proof.Machine

/-- Writing registers and responding is `Performed`. -/
theorem performed_setRegs_respond (s : State) (u : UnitState) (v : Word) :
    Performed s u v ((s.setRegs u).respond v) := by
  refine ⟨by simp, ?_, rfl, rfl, rfl, rfl, rfl, rfl, fun k hk => ⟨?_, ?_⟩, ?_, fun _ => rfl⟩
  · have h := (s.setRegs u).port_respond_same v
    rw [State.setRegs_active] at h
    rw [h]
  · rw [State.respond_unit, State.unit_setRegs_ne _ _ hk]
  · exact (s.setRegs u).port_respond_ne v hk
  · have h := (s.setRegs u).port_respond_same v
    rw [State.setRegs_active] at h
    rw [h, State.setRegs_port]

/-- A committed effect is performed, and nothing else is. -/
theorem commit_performed (s : State) (e : UnitState × Word) : Performed s e.1 e.2 (s.commit e) :=
  performed_setRegs_respond s e.1 e.2

/-- `raise Error(c)` records the error, and nothing else (60_exceptions.md R172). -/
theorem raiseError_failed (s : State) (c : ErrorCode) : Failed s c.code (s.raiseError c) :=
  performed_setRegs_respond s (s.regs.recordError c) 0

/-- All a checked command can do: record the error of its first failed check, or commit its effect. -/
theorem performChecked_cases (rsv : BitVec 24) (form : OperandForm) (imm : Word) (needsSeed : Bool)
    (effect : UnitState → UnitState × Word) (s : State) :
    (∃ c, firstFailedCheck rsv form imm needsSeed s.regs = some c ∧
      performChecked rsv form imm needsSeed effect s = .next (s.raiseError c)) ∨
    (firstFailedCheck rsv form imm needsSeed s.regs = none ∧
      performChecked rsv form imm needsSeed effect s = .next (s.commit (effect s.regs))) := by
  unfold performChecked
  cases h : firstFailedCheck rsv form imm needsSeed s.regs with
  | some c => exact .inl ⟨c, rfl, rfl⟩
  | none => exact .inr ⟨rfl, rfl⟩

/-- When no check fails (60_exceptions.md R174). -/
theorem firstFailedCheck_eq_none (rsv : BitVec 24) (form : OperandForm) (imm : Word) (needsSeed : Bool)
    (u : UnitState) :
    firstFailedCheck rsv form imm needsSeed u = none ↔
      rsv = 0 ∧ immAdmitted form imm = true ∧ (needsSeed = true → u.seeded = true) := by
  unfold firstFailedCheck
  split_ifs <;> simp_all

/-- When the reserved-field check is the one that fails (60_exceptions.md R174, checks 2 and 3). -/
theorem firstFailedCheck_eq_reserved (rsv : BitVec 24) (form : OperandForm) (imm : Word) (needsSeed : Bool)
    (u : UnitState) :
    firstFailedCheck rsv form imm needsSeed u = some .reservedField ↔
      rsv ≠ 0 ∨ immAdmitted form imm = false := by
  unfold firstFailedCheck
  split_ifs <;> simp_all

/-- When the seed check is the one that fails (60_exceptions.md R174, check 4). -/
theorem firstFailedCheck_eq_unseeded (rsv : BitVec 24) (form : OperandForm) (imm : Word) (needsSeed : Bool)
    (u : UnitState) :
    firstFailedCheck rsv form imm needsSeed u = some .unseeded ↔
      rsv = 0 ∧ immAdmitted form imm = true ∧ needsSeed = true ∧ u.seeded = false := by
  unfold firstFailedCheck
  split_ifs <;> simp_all

/-- A command whose checks pass succeeds with its effect. -/
theorem succeeds_of_checks {i : Instr} {s : State} {rsv : BitVec 24} {form : OperandForm} {imm : Word}
    {needsSeed : Bool} {effect : UnitState → UnitState × Word}
    (hi : exec i s = performChecked rsv form imm needsSeed effect s)
    (h : firstFailedCheck rsv form imm needsSeed s.regs = none) :
    Succeeds i s (effect s.regs).1 (effect s.regs).2 :=
  ⟨_, by rw [hi, performChecked, h], commit_performed s _⟩

/-- A command with a failed check fails with that check's code. -/
theorem failsWith_of_check {i : Instr} {s : State} {rsv : BitVec 24} {form : OperandForm} {imm : Word}
    {needsSeed : Bool} {effect : UnitState → UnitState × Word} {c : ErrorCode}
    (hi : exec i s = performChecked rsv form imm needsSeed effect s)
    (h : firstFailedCheck rsv form imm needsSeed s.regs = some c) : FailsWith i s c.code :=
  ⟨_, by rw [hi, performChecked, h], raiseError_failed s c⟩

/-- What a checked command writes and answers, from its unit's registers alone. -/
def checkedEffect (rsv : BitVec 24) (form : OperandForm) (imm : Word) (needsSeed : Bool)
    (effect : UnitState → UnitState × Word) (u : UnitState) : UnitState × Word :=
  match firstFailedCheck rsv form imm needsSeed u with
  | some c => (u.recordError c, 0)
  | none => effect u

/-- A checked command commits its checked effect. -/
theorem performChecked_eq_commit (rsv : BitVec 24) (form : OperandForm) (imm : Word) (needsSeed : Bool)
    (effect : UnitState → UnitState × Word) (s : State) :
    performChecked rsv form imm needsSeed effect s =
      .next (s.commit (checkedEffect rsv form imm needsSeed effect s.regs)) := by
  unfold performChecked checkedEffect
  cases firstFailedCheck rsv form imm needsSeed s.regs <;> rfl

/-- All any command can do: commit an effect that depends on its unit's registers alone. -/
theorem exec_eq_commit (i : Instr) :
    ∃ f : UnitState → UnitState × Word, ∀ s, exec i s = .next (s.commit (f s.regs)) := by
  have checked : ∀ {rsv form imm needsSeed effect},
      (∀ s, exec i s = performChecked rsv form imm needsSeed effect s) →
      ∃ f : UnitState → UnitState × Word, ∀ s, exec i s = .next (s.commit (f s.regs)) :=
    fun h => ⟨_, fun s => (h s).trans (performChecked_eq_commit ..)⟩
  cases i with
  | nop rsv imm => exact checked (execNop.eq_1 rsv imm)
  | seed rsv imm => exact checked (execSeed.eq_1 rsv imm)
  | next rsv imm => exact checked (execNext.eq_1 rsv imm)
  | step rsv imm => exact checked (execStep.eq_1 rsv imm)
  | setmode rsv imm => exact checked (execSetmode.eq_1 rsv imm)
  | enc rsv imm => exact checked (execEnc.eq_1 rsv imm)
  | draw rsv imm => exact checked (execDraw.eq_1 rsv imm)
  | enci rsv imm => exact checked (execEnci.eq_1 rsv imm)
  | clrerr rsv imm => exact checked (execClrerr.eq_1 rsv imm)
  | rdreg rsv imm => exact checked (execRdreg.eq_1 rsv imm)

@[simp] theorem immAdmitted_none (imm : Word) : immAdmitted .none imm = true ↔ imm = 0 := by simp [immAdmitted]
@[simp] theorem immAdmitted_u32 (imm : Word) : immAdmitted .u32 imm = true := rfl

/-- IMM[31:1] is 0 exactly for 0 and 1 (30_encoding.md R63). -/
theorem immAdmitted_bit (imm : Word) : immAdmitted .bit imm = true ↔ imm = 0 ∨ imm = 1 := by
  have h : (imm.extractLsb' 1 31).toNat = imm.toNat / 2 % 2 ^ 31 := by
    simp [BitVec.extractLsb'_toNat, Nat.shiftRight_eq_div_pow]
  have h0 : (0 : Word).toNat = 0 := rfl
  have h1 : (1 : Word).toNat = 1 := rfl
  have h2 : (0 : BitVec 31).toNat = 0 := rfl
  have := imm.isLt
  simp only [immAdmitted, beq_iff_eq, BitVec.toNat_eq, h, h0, h1, h2]
  omega

/-- IMM is at most 3 exactly for the four register indices (30_encoding.md R63). -/
theorem immAdmitted_index (imm : Word) :
    immAdmitted .index imm = true ↔ imm = 0 ∨ imm = 1 ∨ imm = 2 ∨ imm = 3 := by
  have h0 : (0 : Word).toNat = 0 := rfl
  have h1 : (1 : Word).toNat = 1 := rfl
  have h2 : (2 : Word).toNat = 2 := rfl
  have h3 : (3 : Word).toNat = 3 := rfl
  simp only [immAdmitted, decide_eq_true_iff, BitVec.toNat_eq, h0, h1, h2, h3]
  omega

/-- mix^(n+1) as one more mix at the end. -/
theorem mixN_succ (n : Nat) (x : Word) : mixN (n + 1) x = mix (mixN n x) := by
  induction n generalizing x with
  | zero => rfl
  | succ n ih => rw [mixN, ih (mix x), mixN]

/-- Steps add up. -/
theorem mixN_add (m n : Nat) (x : Word) : mixN (m + n) x = mixN n (mixN m x) := by
  induction m generalizing x with
  | zero => simp [mixN]
  | succ m ih => rw [Nat.succ_add, mixN, mixN, ih]

end Sys2Proof.Machine
end

