-- ==== Sys2Proof/Laws/Memory.lean ====
section
/-! SUPPORT. Host memory: every operation keeps its canonical form, and what each wider write leaves where. -/

namespace Sys2Proof.Machine

theorem memWrite_wf {s : State} (a : Nat) (v : Byte) (h : Memory.wf s.hostMem = true) :
    Memory.wf (s.memWrite a v).hostMem = true := sparseRising_insert a v h

theorem zeroFill_wf {s : State} (base n : Nat) (h : Memory.wf s.hostMem = true) :
    Memory.wf (s.zeroFill base n).hostMem = true := by
  induction n with
  | zero => exact h
  | succ n ih => exact memWrite_wf _ _ ih

theorem writePixel_wf {s : State} (addr : Nat) (p : Word) (h : Memory.wf s.hostMem = true) :
    Memory.wf (s.writePixel addr p).hostMem = true := memWrite_wf _ _ (memWrite_wf _ _ (memWrite_wf _ _ h))

theorem allocateBuffer_wf {s : State} (base : Nat) (width height : Word) (h : Memory.wf s.hostMem = true) :
    Memory.wf (s.allocateBuffer base width height).hostMem = true := zeroFill_wf base _ h

/-- Reset memory has the canonical form. -/
theorem reset_memory_wf : Memory.wf State.reset.hostMem = true := rfl

/-- What is at an address after zero-filling `n` bytes from `base` (20_memory.md R42). -/
theorem memRead_zeroFill (s : State) (base n a : Nat) :
    (s.zeroFill base n).memRead a = if base ≤ a ∧ a < base + n then some 0 else s.memRead a := by
  induction n with
  | zero =>
    have h : ¬ (base ≤ a ∧ a < base + 0) := by omega
    rw [if_neg h]; rfl
  | succ n ih =>
    by_cases ha : a = base + n
    · have h : base ≤ a ∧ a < base + (n + 1) := by omega
      rw [if_pos h, ha]
      exact State.memRead_memWrite_same _ _ _
    · have h : (base ≤ a ∧ a < base + (n + 1)) ↔ (base ≤ a ∧ a < base + n) := by omega
      rw [if_congr h rfl rfl, ← ih]
      exact State.memRead_memWrite_ne _ _ _ ha

/-- What is at an address after a pixel is written (44_host_sequences.md R148). -/
theorem memRead_writePixel (s : State) (addr : Nat) (p : Word) (a : Nat) :
    (s.writePixel addr p).memRead a =
      if addr ≤ a ∧ a < addr + 3 then some (channelByte p (a - addr)) else s.memRead a := by
  unfold State.writePixel
  by_cases h2 : a = addr + 2
  · subst h2
    simp
  · rw [State.memRead_memWrite_ne _ _ _ h2]
    by_cases h1 : a = addr + 1
    · subst h1
      simp
    · rw [State.memRead_memWrite_ne _ _ _ h1]
      by_cases h0 : a = addr
      · subst h0
        simp
      · rw [State.memRead_memWrite_ne _ _ _ h0, if_neg (by omega)]

section
variable (s : State) (base n : Nat)
@[simp] theorem zeroFill_units : (s.zeroFill base n).units = s.units := by
  induction n with
  | zero => rfl
  | succ n ih => exact ih
@[simp] theorem zeroFill_ports : (s.zeroFill base n).ports = s.ports := by
  induction n with
  | zero => rfl
  | succ n ih => exact ih
@[simp] theorem zeroFill_active : (s.zeroFill base n).active = s.active := by
  induction n with
  | zero => rfl
  | succ n ih => exact ih
@[simp] theorem zeroFill_agenda : (s.zeroFill base n).agenda = s.agenda := by
  induction n with
  | zero => rfl
  | succ n ih => exact ih
@[simp] theorem zeroFill_hostMaster : (s.zeroFill base n).hostMaster = s.hostMaster := by
  induction n with
  | zero => rfl
  | succ n ih => exact ih
@[simp] theorem zeroFill_buffer : (s.zeroFill base n).buffer = s.buffer := by
  induction n with
  | zero => rfl
  | succ n ih => exact ih
@[simp] theorem zeroFill_hostDraws : (s.zeroFill base n).hostDraws = s.hostDraws := by
  induction n with
  | zero => rfl
  | succ n ih => exact ih
@[simp] theorem zeroFill_handedOff : (s.zeroFill base n).handedOff = s.handedOff := by
  induction n with
  | zero => rfl
  | succ n ih => exact ih
@[simp] theorem zeroFill_unit (k : Nat) : (s.zeroFill base n).unit k = s.unit k := by
  simp [State.unit]
@[simp] theorem zeroFill_port (k : Nat) : (s.zeroFill base n).port k = s.port k := by
  simp [State.port]
end

section
variable (s : State) (addr : Nat) (p : Word)
@[simp] theorem writePixel_units : (s.writePixel addr p).units = s.units := rfl
@[simp] theorem writePixel_ports : (s.writePixel addr p).ports = s.ports := rfl
@[simp] theorem writePixel_active : (s.writePixel addr p).active = s.active := rfl
@[simp] theorem writePixel_agenda : (s.writePixel addr p).agenda = s.agenda := rfl
@[simp] theorem writePixel_hostMaster : (s.writePixel addr p).hostMaster = s.hostMaster := rfl
@[simp] theorem writePixel_buffer : (s.writePixel addr p).buffer = s.buffer := rfl
@[simp] theorem writePixel_hostDraws : (s.writePixel addr p).hostDraws = s.hostDraws := rfl
@[simp] theorem writePixel_handedOff : (s.writePixel addr p).handedOff = s.handedOff := rfl
@[simp] theorem writePixel_unit (k : Nat) : (s.writePixel addr p).unit k = s.unit k := rfl
@[simp] theorem writePixel_port (k : Nat) : (s.writePixel addr p).port k = s.port k := rfl
end

section
variable (s : State) (base : Nat) (width height : Word)
@[simp] theorem allocateBuffer_units : (s.allocateBuffer base width height).units = s.units := zeroFill_units ..
@[simp] theorem allocateBuffer_ports : (s.allocateBuffer base width height).ports = s.ports := zeroFill_ports ..
@[simp] theorem allocateBuffer_active : (s.allocateBuffer base width height).active = s.active := zeroFill_active ..
@[simp] theorem allocateBuffer_agenda : (s.allocateBuffer base width height).agenda = s.agenda := zeroFill_agenda ..
@[simp] theorem allocateBuffer_hostMaster : (s.allocateBuffer base width height).hostMaster = s.hostMaster :=
  zeroFill_hostMaster ..
@[simp] theorem allocateBuffer_hostDraws : (s.allocateBuffer base width height).hostDraws = s.hostDraws :=
  zeroFill_hostDraws ..
@[simp] theorem allocateBuffer_handedOff : (s.allocateBuffer base width height).handedOff = s.handedOff :=
  zeroFill_handedOff ..
@[simp] theorem allocateBuffer_buffer :
    (s.allocateBuffer base width height).buffer = some (newBuffer base width height) := rfl
@[simp] theorem allocateBuffer_unit (k : Nat) : (s.allocateBuffer base width height).unit k = s.unit k :=
  zeroFill_unit ..
@[simp] theorem allocateBuffer_port (k : Nat) : (s.allocateBuffer base width height).port k = s.port k :=
  zeroFill_port ..
@[simp] theorem allocateBuffer_busy (k : Nat) : (s.allocateBuffer base width height).busy k = s.busy k := by
  simp [State.busy]
theorem memRead_allocateBuffer (a : Nat) : (s.allocateBuffer base width height).memRead a =
    if base ≤ a ∧ a < base + 3 * pixelCount width height then some 0 else s.memRead a := memRead_zeroFill ..
end

end Sys2Proof.Machine
end

