-- ==== Sys2Proof/Laws/Host.lean ====
section
/-! SUPPORT. RasterBuffers and host actions: what each can do, said once. -/

namespace Sys2Proof.Machine

section
variable (b c : Buffer) (slot : Nat)

theorem Buffer.meets_eq_false : b.meets c = false ↔
    b.bytes = 0 ∨ c.bytes = 0 ∨ b.base + b.bytes ≤ c.base ∨ c.base + c.bytes ≤ b.base := by
  simp only [Buffer.meets, decide_eq_false_iff_not]
  omega

theorem Buffer.meets_comm : b.meets c = c.meets b := by
  simp only [Buffer.meets, Nat.max_comm, Nat.min_comm]

/-- Whatever address lies in one of two buffers that do not meet lies outside the other. -/
theorem Buffer.not_both_of_meets_eq_false {b c : Buffer} (h : b.meets c = false) {a : Nat}
    (hb : b.base ≤ a ∧ a < b.base + b.bytes) : ¬ (c.base ≤ a ∧ a < c.base + c.bytes) := by
  rw [Buffer.meets_eq_false] at h
  omega

theorem Buffer.holdsSlot_iff : b.holdsSlot slot = true ↔ 3 * slot + 3 ≤ b.bytes := decide_eq_true_iff

theorem Buffer.allWritten_iff (n : Nat) : b.allWritten n = true ↔ ∀ slot < n, slot ∈ b.written := by
  simp [Buffer.allWritten]

@[simp] theorem Buffer.markWritten_base : (b.markWritten slot).base = b.base := rfl
@[simp] theorem Buffer.markWritten_bytes : (b.markWritten slot).bytes = b.bytes := rfl
@[simp] theorem Buffer.markWritten_slotAddress (k : Nat) : (b.markWritten slot).slotAddress k = b.slotAddress k := rfl
@[simp] theorem Buffer.markWritten_holdsSlot (k : Nat) : (b.markWritten slot).holdsSlot k = b.holdsSlot k := rfl
@[simp] theorem Buffer.markWritten_meets : (b.markWritten slot).meets c = b.meets c := rfl

@[simp] theorem Buffer.mem_markWritten {k : Nat} : k ∈ (b.markWritten slot).written ↔ k = slot ∨ k ∈ b.written :=
  List.mem_orderedInsert _

/-- Marking a slot not yet written keeps the written slots strictly rising. -/
theorem Buffer.markWritten_rising {b : Buffer} {slot : Nat} (h : b.written.Pairwise (· < ·)) (hn : slot ∉ b.written) :
    (b.markWritten slot).written.Pairwise (· < ·) := by
  unfold Buffer.markWritten
  generalize b.written = l at h hn
  induction l with
  | nil => simp
  | cons j rest ih =>
    obtain ⟨hj, hr⟩ := List.pairwise_cons.1 h
    obtain ⟨hne, hn'⟩ := not_or.1 (fun hm => hn (List.mem_cons.2 hm))
    by_cases hle : slot ≤ j
    · have hlt : slot < j := Nat.lt_of_le_of_ne hle hne
      rw [List.orderedInsert_cons_of_le _ _ hle]
      refine List.pairwise_cons.2 ⟨fun k hk => ?_, h⟩
      rcases List.mem_cons.1 hk with rfl | hk'
      · exact hlt
      · exact Nat.lt_trans hlt (hj k hk')
    · rw [List.orderedInsert_of_not_le _ _ hle]
      refine List.pairwise_cons.2 ⟨fun k hk => ?_, ih hr hn'⟩
      rcases (List.mem_orderedInsert _).1 hk with rfl | hk'
      · exact Nat.lt_of_not_le hle
      · exact hj k hk'

end

variable {s t : State}

/-- All an allocation can do. -/
theorem hostAllocate_cases (base : Nat) (width height : Word) (s : State) :
    (∃ b, s.buffer = some b ∧ hostAllocate base width height s = .refused (.nonconformingHost .reallocation)) ∨
    (s.buffer = none ∧ (∃ c ∈ s.handedOff, (newBuffer base width height).meets c = true) ∧
      hostAllocate base width height s = .refused (.nonconformingHost .afterHandOff)) ∨
    (s.buffer = none ∧ (∀ c ∈ s.handedOff, (newBuffer base width height).meets c = false) ∧
      hostAllocate base width height s = .next (s.allocateBuffer base width height)) := by
  unfold hostAllocate
  cases hb : s.buffer with
  | some b => exact .inl ⟨b, rfl, rfl⟩
  | none =>
    cases hm : s.handedOff.any (newBuffer base width height).meets with
    | true => exact .inr (.inl ⟨rfl, List.any_eq_true.1 hm, by simp⟩)
    | false => exact .inr (.inr ⟨rfl, by simpa using hm, by simp⟩)

/-- Taking the master value gives a next state only with a response. -/
theorem hostTakeMaster_next {k : Nat} (h : hostTakeMaster k s = .next t) :
    ∃ v, (s.port k).resp = some v ∧ t = { s with hostMaster := v } := by
  unfold hostTakeMaster at h
  split at h
  · next v hv => exact ⟨v, hv, (Host.Outcome.next.inj h).symm⟩
  · exact nomatch h

/-- Taking a master draw gives a next state only with a response. -/
theorem hostTakeDraw_next {k row : Nat} (h : hostTakeDraw k row s = .next t) :
    ∃ v, (s.port k).resp = some v ∧ t = { s with hostMaster := v, hostDraws := sparseInsert s.hostDraws row v } := by
  unfold hostTakeDraw at h
  split at h
  · next v hv => exact ⟨v, hv, (Host.Outcome.next.inj h).symm⟩
  · exact nomatch h

/-- A pixel is stored only into a slot of the open buffer that was not written before. -/
theorem hostStorePixel_next {k slot : Nat} (h : hostStorePixel k slot s = .next t) :
    ∃ b p, s.buffer = some b ∧ b.holdsSlot slot = true ∧ slot ∉ b.written ∧ (s.port k).resp = some p ∧
      t = { s.writePixel (b.slotAddress slot) p with buffer := some (b.markWritten slot) } := by
  unfold hostStorePixel at h
  split at h
  · exact nomatch h
  · next b hb =>
    split_ifs at h with h1 h2
    split at h
    · next p hp => exact ⟨b, p, hb, by simpa using h1, h2, hp, (Host.Outcome.next.inj h).symm⟩
    · exact nomatch h

/-- A buffer is handed off only with the right byte count and every slot written. -/
theorem hostHandOff_next {width height : Word} (h : hostHandOff width height s = .next t) :
    ∃ b, s.buffer = some b ∧ b.bytes = 3 * pixelCount width height ∧
      (∀ slot < pixelCount width height, slot ∈ b.written) ∧
      t = { s with buffer := none, handedOff := b :: s.handedOff } := by
  unfold hostHandOff at h
  split at h
  · exact nomatch h
  · next b hb =>
    split_ifs at h with h1 h2
    exact ⟨b, hb, not_not.1 h1, (b.allWritten_iff _).1 h2, (Host.Outcome.next.inj h).symm⟩

end Sys2Proof.Machine
end

