-- ==== Sys2Proof/Laws/PerInstr.lean ====
section
/-! SUPPORT. Statements made per command. -/

namespace Sys2Proof.Laws.EncodeFields

/-- The word of a command holds its three fields where R60 puts them, and its row of the opcode table matches it. -/
def Statement (i : Instr) : Prop :=
  rsvField (encode i) = i.rsv ∧ opField (encode i) = i.opcode ∧ immField (encode i) = i.imm ∧
    encode i &&& opcodeMask = i.matchPattern

/-- The three fields of a word put together (30_encoding.md R60). -/
theorem fields_of_commandWord (rsv : BitVec 24) (op : BitVec 8) (imm : Word) :
    rsvField (commandWord rsv op imm) = rsv ∧ opField (commandWord rsv op imm) = op ∧
      immField (commandWord rsv op imm) = imm := by
  refine ⟨?_, ?_, ?_⟩ <;> ext k hk <;>
    simp only [rsvField, opField, immField, commandWord, BitVec.getElem_extractLsb', BitVec.getLsbD_append]
  · rw [if_neg (by omega), if_neg (by omega), show 40 + k - 32 - 8 = k by omega, BitVec.getLsbD_eq_getElem]
  · rw [if_neg (by omega), if_pos (by omega), show 32 + k - 32 = k by omega, BitVec.getLsbD_eq_getElem]
  · rw [if_pos (by omega), Nat.zero_add, BitVec.getLsbD_eq_getElem]

/-- A word is its three fields put together (30_encoding.md R60). -/
theorem commandWord_of_fields (w : CommandWord) : commandWord (rsvField w) (opField w) (immField w) = w := by
  refine BitVec.eq_of_getLsbD_eq fun k hk => ?_
  simp only [commandWord, rsvField, opField, immField, BitVec.getLsbD_append, BitVec.getLsbD_extractLsb']
  by_cases h1 : k < 32
  · simp [h1]
  · by_cases h2 : k - 32 < 8
    · rw [if_neg h1, if_pos h2, decide_eq_true h2, show 32 + (k - 32) = k by omega, Bool.true_and]
    · rw [if_neg h1, if_neg h2, decide_eq_true (show k - 32 - 8 < 24 by omega),
        show 40 + (k - 32 - 8) = k by omega, Bool.true_and]

/-- The opcode of a word put together from fields, under the table's mask. -/
theorem commandWord_and_mask (rsv : BitVec 24) (op : BitVec 8) (imm : Word) :
    commandWord rsv op imm &&& opcodeMask = commandWord 0 op 0 := by
  have hm : opcodeMask = commandWord 0 (BitVec.allOnes 8) 0 := by decide
  rw [hm]
  refine BitVec.eq_of_getLsbD_eq fun k hk => ?_
  simp only [commandWord, BitVec.getLsbD_and, BitVec.getLsbD_append, BitVec.getLsbD_allOnes]
  by_cases h1 : k < 32
  · simp [h1]
  · by_cases h2 : k - 32 < 8
    · simp [h1, h2]
    · simp [h1, h2]

/-- What the family says of any command whose row pattern is its opcode alone. -/
theorem statement_of_pattern (i : Instr) (h : commandWord 0 i.opcode 0 = i.matchPattern) : Statement i :=
  have hf := fields_of_commandWord i.rsv i.opcode i.imm
  ⟨hf.1, hf.2.1, hf.2.2, (commandWord_and_mask i.rsv i.opcode i.imm).trans h⟩

theorem nop (rsv : BitVec 24) (imm : Word) : Statement (.nop rsv imm) :=
  statement_of_pattern _ (by simp only [Instr.opcode, Instr.matchPattern]; decide)
theorem seed (rsv : BitVec 24) (imm : Word) : Statement (.seed rsv imm) :=
  statement_of_pattern _ (by simp only [Instr.opcode, Instr.matchPattern]; decide)
theorem next (rsv : BitVec 24) (imm : Word) : Statement (.next rsv imm) :=
  statement_of_pattern _ (by simp only [Instr.opcode, Instr.matchPattern]; decide)
theorem step (rsv : BitVec 24) (imm : Word) : Statement (.step rsv imm) :=
  statement_of_pattern _ (by simp only [Instr.opcode, Instr.matchPattern]; decide)
theorem setmode (rsv : BitVec 24) (imm : Word) : Statement (.setmode rsv imm) :=
  statement_of_pattern _ (by simp only [Instr.opcode, Instr.matchPattern]; decide)
theorem enc (rsv : BitVec 24) (imm : Word) : Statement (.enc rsv imm) :=
  statement_of_pattern _ (by simp only [Instr.opcode, Instr.matchPattern]; decide)
theorem draw (rsv : BitVec 24) (imm : Word) : Statement (.draw rsv imm) :=
  statement_of_pattern _ (by simp only [Instr.opcode, Instr.matchPattern]; decide)
theorem enci (rsv : BitVec 24) (imm : Word) : Statement (.enci rsv imm) :=
  statement_of_pattern _ (by simp only [Instr.opcode, Instr.matchPattern]; decide)
theorem clrerr (rsv : BitVec 24) (imm : Word) : Statement (.clrerr rsv imm) :=
  statement_of_pattern _ (by simp only [Instr.opcode, Instr.matchPattern]; decide)
theorem rdreg (rsv : BitVec 24) (imm : Word) : Statement (.rdreg rsv imm) :=
  statement_of_pattern _ (by simp only [Instr.opcode, Instr.matchPattern]; decide)

end Sys2Proof.Laws.EncodeFields
end

