-- ==== Sys2Proof/Laws/Steps.lean ====
section
/-! SUPPORT. What completing a command, one event and one step can do, said once each. -/

namespace Sys2Proof.Machine

/-- Performing a word is performing its command, or recording ILLEGAL_OPCODE. -/
theorem performWord_cases (w : CommandWord) (s : State) :
    (∃ i, decode w = .command i ∧ performWord w s = exec i s) ∨
    (∃ op, decode w = .illegalOpcode op ∧ performWord w s = .next (s.raiseError .illegalOpcode)) := by
  unfold performWord
  cases h : decode w with
  | command i => exact .inl ⟨i, rfl, rfl⟩
  | illegalOpcode op => exact .inr ⟨op, rfl, rfl⟩

/-- All performing any word can do: commit an effect that depends on its unit's registers alone. -/
theorem performWord_eq_commit (w : CommandWord) :
    ∃ f : UnitState → UnitState × Word, ∀ s, performWord w s = .next (s.commit (f s.regs)) := by
  unfold performWord
  cases decode w with
  | command i => exact exec_eq_commit i
  | illegalOpcode op => exact ⟨fun u => (u.recordError .illegalOpcode, 0), fun _ => rfl⟩

/-- Completing on a port with a command in flight. -/
theorem completeCommand_busy {k : Nat} {s : State} {w : CommandWord} (h : (s.port k).cmd = some w) :
    completeCommand k s = performWord w (s.takeCommand k) := by
  simp [completeCommand, h]

/-- Completing on an idle port. -/
theorem completeCommand_idle {k : Nat} {s : State} (h : (s.port k).cmd = none) : completeCommand k s = .next s := by
  simp [completeCommand, h]

/-- A port is busy exactly when a command is in flight on it. -/
theorem busy_iff (s : State) (k : Nat) : s.busy k = true ↔ ∃ w, (s.port k).cmd = some w :=
  Option.isSome_iff_exists

theorem not_busy_iff (s : State) (k : Nat) : s.busy k = false ↔ (s.port k).cmd = none := by
  simp [State.busy]

/-- All one step can do: an idle system stays as it is, a unit completes its command (because an event awaits it, or
because the agenda is used up), or the first event of the agenda happens. -/
theorem step_cases (s : State) :
    (s.agenda = [] ∧ s.firstBusy = none ∧ step s = .next s) ∨
    (∃ k, s.agenda = [] ∧ s.firstBusy = some k ∧ step s = completeCommand k s) ∨
    (∃ e rest k, s.agenda = e :: rest ∧ e.awaits = some k ∧ s.busy k = true ∧ step s = completeCommand k s) ∨
    (∃ e rest, s.agenda = e :: rest ∧ (∀ k, e.awaits = some k → s.busy k = false) ∧
      step s = performEvent e { s with agenda := rest }) := by
  unfold step advance
  cases ha : s.agenda with
  | nil =>
    cases hb : s.firstBusy with
    | none => exact .inl ⟨rfl, rfl, rfl⟩
    | some k => exact .inr (.inl ⟨k, rfl, rfl, rfl⟩)
  | cons e rest =>
    cases hw : e.awaits with
    | none => exact .inr (.inr (.inr ⟨e, rest, rfl, by simp [hw], by simp [hw]⟩))
    | some k =>
      cases hk : s.busy k with
      | true => exact .inr (.inr (.inl ⟨e, rest, k, rfl, hw, hk, by simp [hw, hk]⟩))
      | false =>
        refine .inr (.inr (.inr ⟨e, rest, rfl, fun j hj => ?_, by simp [hw, hk]⟩))
        rw [hw] at hj
        rw [← Option.some.inj hj]
        exact hk

/-- A run whose first step goes on. -/
theorem run_succ_of_next {M : Host.Core} {n : Nat} {s u : M.State} (h : M.step s = .next u) :
    M.run (n + 1) s = M.run n u := by
  simp only [Host.Core.run, h]

/-- A run whose first step does not go on has no final state. -/
theorem run_succ_ne_next {M : Host.Core} {n : Nat} {s t : M.State} (h : ∀ u, M.step s ≠ .next u) :
    M.run (n + 1) s ≠ .next t := by
  intro hr
  cases hs : M.step s with
  | next u => exact h u hs
  | fault r =>
    simp only [Host.Core.run, hs] at hr
    exact nomatch hr
  | refused r =>
    simp only [Host.Core.run, hs] at hr
    exact nomatch hr

/-- A run of one more step. -/
theorem runsTo_succ {n : Nat} {s t : State} :
    RunsTo (n + 1) s t ↔ ∃ u, step s = .next u ∧ RunsTo n u t := by
  refine ⟨fun h => ?_, fun ⟨u, hu, h⟩ => (run_succ_of_next (M := Sys2Proof.core) hu).trans h⟩
  by_contra hn
  refine run_succ_ne_next (M := Sys2Proof.core) (fun u hu => hn ⟨u, hu, ?_⟩) h
  exact (run_succ_of_next (M := Sys2Proof.core) hu).symm.trans h

/-- Runs compose. -/
theorem runsTo_add {m n : Nat} {s t u : State} (h1 : RunsTo m s t) (h2 : RunsTo n t u) : RunsTo (m + n) s u := by
  induction m generalizing s with
  | zero =>
    have : s = t := by
      have h : Host.Outcome.next s = Host.Outcome.next t := h1
      cases h
      rfl
    rw [Nat.zero_add, this]
    exact h2
  | succ m ih =>
    obtain ⟨v, hv, hr⟩ := runsTo_succ.1 h1
    rw [Nat.succ_add]
    exact runsTo_succ.2 ⟨v, hv, ih hr⟩

end Sys2Proof.Machine
end

