-- ==== Sys2Proof/Tests/Slice0.lean ====
section
/-! SUPPORT. The model's own tests. Expected values come from spec/95_test_vectors.md (V, P, S numbers and section 2),
30_encoding.md R70 or the rule named; words are written out from 30_encoding.md R60 and R64. -/

namespace Sys2Proof.Tests

open Sys2Proof.Machine

-- The many small theorems below are checked one after the other: in parallel they need more threads than a build with
-- a memory limit may have.
set_option Elab.async false

/-- A system whose unit 0 holds `u`. -/
def unitAt (u : UnitState) : State := { State.reset with units := [(0, u)] }

/-- A unit seeded with `x`. -/
def seeded (x : Word) : UnitState := { UnitState.reset with x := x, seeded := true }

/-- A unit with an error on record. -/
def inError (c : BitVec 4) : UnitState := { UnitState.reset with err := true, ecode := c }

/-- The registers and the response after one result, if it is a next state. -/
def answer : Result → Option (UnitState × Option Word)
  | .next t => some (t.regs, (t.port t.active).resp)
  | _ => none

/-- One step with a word placed where the next step takes it. -/
def stepWord (s : State) (w : Nat) : Option (UnitState × Option Word) := answer (step (s.withFetchWord 64 w))

/-- A system with word `w` in flight at unit 0 and agenda `es`. -/
def inFlight (w : CommandWord) (es : List Event) : State :=
  { State.reset with ports := [(0, { cmd := some w, resp := none })], agenda := es }

/-! ## Well-formedness: each check refuses an ill-formed command (30_encoding.md R63, R66) -/

theorem test_wf_nop_rsv : Instr.wellFormed (.nop 1 0) = false := by decide
theorem test_wf_nop_imm : Instr.wellFormed (.nop 0 1) = false := by decide
theorem test_wf_seed_rsv : Instr.wellFormed (.seed 0x800000 5) = false := by decide
theorem test_wf_next_rsv : Instr.wellFormed (.next 1 0) = false := by decide
theorem test_wf_next_imm : Instr.wellFormed (.next 0 0x80000000) = false := by decide
theorem test_wf_step_rsv : Instr.wellFormed (.step 1 100) = false := by decide
theorem test_wf_setmode_rsv : Instr.wellFormed (.setmode 1 1) = false := by decide
theorem test_wf_setmode_imm : Instr.wellFormed (.setmode 0 2) = false := by decide
theorem test_wf_enc_rsv : Instr.wellFormed (.enc 1 0) = false := by decide
theorem test_wf_enc_imm : Instr.wellFormed (.enc 0 1) = false := by decide
theorem test_wf_draw_rsv : Instr.wellFormed (.draw 1 0) = false := by decide
theorem test_wf_draw_imm : Instr.wellFormed (.draw 0 1) = false := by decide
theorem test_wf_enci_rsv : Instr.wellFormed (.enci 1 0) = false := by decide
theorem test_wf_clrerr_rsv : Instr.wellFormed (.clrerr 1 0) = false := by decide
theorem test_wf_clrerr_imm : Instr.wellFormed (.clrerr 0 1) = false := by decide
theorem test_wf_rdreg_rsv : Instr.wellFormed (.rdreg 1 0) = false := by decide
theorem test_wf_rdreg_imm : Instr.wellFormed (.rdreg 0 4) = false := by decide
theorem test_wf_admits :
    Instr.wellFormed (.seed 0 0xFFFFFFFF) = true ∧ Instr.wellFormed (.setmode 0 1) = true ∧
    Instr.wellFormed (.rdreg 0 3) = true := by decide

/-! ## Decoding: words written out bit by bit, RSV then OP then IMM -/

theorem test_decode_nop :
    decode 0b000000000000000000000000_00000000_00000000000000000000000000000000 = .command (.nop 0 0) := by decide
theorem test_decode_seed :
    decode 0b000000000000000000000000_00000001_00000000000000000000000000101010 = .command (.seed 0 42) := by decide
theorem test_decode_next :
    decode 0b000000000000000000000000_00000010_00000000000000000000000000000000 = .command (.next 0 0) := by decide
theorem test_decode_step :
    decode 0b000000000000000000000000_00000011_00000000000000000000000001100100 = .command (.step 0 100) := by decide
theorem test_decode_setmode :
    decode 0b000000000000000000000000_00000100_00000000000000000000000000000001 = .command (.setmode 0 1) := by decide
theorem test_decode_enc :
    decode 0b000000000000000000000000_00000101_00000000000000000000000000000000 = .command (.enc 0 0) := by decide
theorem test_decode_draw :
    decode 0b000000000000000000000000_00000110_00000000000000000000000000000000 = .command (.draw 0 0) := by decide
theorem test_decode_enci :
    decode 0b000000000000000000000000_00000111_00010010001101000101011001111000 = .command (.enci 0 0x12345678) := by
  decide
theorem test_decode_clrerr :
    decode 0b000000000000000000000000_00001000_00000000000000000000000000000000 = .command (.clrerr 0 0) := by decide
theorem test_decode_rdreg :
    decode 0b000000000000000000000000_00001001_00000000000000000000000000000011 = .command (.rdreg 0 3) := by decide
theorem test_decode_keeps_rsv_and_imm :
    decode 0b100000000000000000000001_00000010_10000000000000000000000000000001 =
      .command (.next 0x800001 0x80000001) := by decide
theorem test_decode_illegal_first : decode 0x0000000A00000000 = .illegalOpcode 0x0A := by decide
theorem test_decode_illegal_last : decode 0x000001FF00000000 = .illegalOpcode 0xFF := by decide
theorem test_decode_table_word : decodeTableWord 64 0x0000000900000003 = some (.rdreg 0 3) := by decide
theorem test_decode_table_word_illegal : decodeTableWord 64 0x0000000A00000000 = none := by decide

/-! ## One step on one word (95_test_vectors.md section 2.4) -/

/-- V1. -/
theorem test_nop : stepWord State.reset 0x0000000000000000 = some (UnitState.reset, some 0) := by decide
/-- V2. -/
theorem test_seed : stepWord State.reset 0x000000010000002A = some (seeded 0x2A, some 0) := by decide
/-- V4. -/
theorem test_next : stepWord (unitAt (seeded 1)) 0x0000000200000000 =
    some ({ seeded 0x00042021 with raw := 0x00042021 }, some 0x00042021) := by decide
/-- V30: ERR does not block. -/
theorem test_next_in_error : stepWord (unitAt { inError 1 with x := 1, seeded := true }) 0x0000000200000000 =
    some ({ inError 1 with x := 0x00042021, seeded := true, raw := 0x00042021 }, some 0x00042021) := by decide
/-- V6. -/
theorem test_step : stepWord (unitAt { seeded 1 with raw := 0xAAAAAAAA }) 0x0000000300000064 =
    some ({ seeded 0x08C93AF7 with raw := 0xAAAAAAAA }, some 0) := by decide +kernel
/-- V18: the seed check applies for n = 0. -/
theorem test_step_unseeded : stepWord State.reset 0x0000000300000000 = some (inError 3, some 0) := by decide
/-- V8. -/
theorem test_setmode : stepWord State.reset 0x0000000400000001 =
    some ({ UnitState.reset with mode := .colorful }, some 0) := by decide
/-- V26. -/
theorem test_setmode_reserved : stepWord State.reset 0x0000000400000002 = some (inError 2, some 0) := by decide
/-- V9. -/
theorem test_enc : stepWord (unitAt { UnitState.reset with raw := 0x00042021 }) 0x0000000500000000 =
    some ({ UnitState.reset with raw := 0x00042021, pix := 0x00212121 }, some 0x00212121) := by decide
/-- V12. -/
theorem test_draw : stepWord (unitAt { seeded 1 with mode := .colorful }) 0x0000000600000000 =
    some ({ seeded 0x00042021 with raw := 0x00042021, pix := 0x00042021, mode := .colorful }, some 0x00042021) := by
  decide
/-- V19. -/
theorem test_draw_unseeded : stepWord State.reset 0x0000000600000000 = some (inError 3, some 0) := by decide
/-- V11, S1. -/
theorem test_enci : stepWord (unitAt { UnitState.reset with mode := .colorful }) 0x0000000712345678 =
    some ({ UnitState.reset with mode := .colorful, pix := 0x00345678 }, some 0x00345678) := by decide
/-- V14. -/
theorem test_clrerr : stepWord (unitAt (inError 3)) 0x0000000800000000 = some (UnitState.reset, some 0) := by decide
/-- V28: a failed CLRERR clears nothing. -/
theorem test_clrerr_reserved : stepWord (unitAt (inError 3)) 0x0000000800000001 = some (inError 3, some 0) := by decide
/-- V31. -/
theorem test_rdreg_status :
    (stepWord (unitAt { inError 2 with seeded := true, mode := .colorful }) 0x0000000900000003).map Prod.snd =
      some (some 0x0000002F) := by decide
/-- V20. -/
theorem test_rdreg_unseeded : stepWord State.reset 0x0000000900000000 = some (inError 3, some 0) := by decide
/-- V22: the opcode check comes before the RSV check. -/
theorem test_illegal_before_reserved : stepWord State.reset 0x000001FF00000000 = some (inError 1, some 0) := by decide
/-- V24: the RSV check comes before the seed check. -/
theorem test_reserved_before_unseeded : stepWord State.reset 0x0000010200000000 = some (inError 2, some 0) := by decide

/-! ## The functions (95_test_vectors.md sections 2.1 to 2.3, 2.6) -/

theorem test_mix_all_ones : mix 0xFFFFFFFF = 0x0003E01F := by decide
theorem test_mix_right_shift : mix 0x00020000 = 0x40462021 := by decide
theorem test_mixN_warmup : mixN 100 0xFFFFFFFF = 0x50F0CE69 := by decide +kernel
theorem test_enc_no_sign_extension : pixelEncode 0x80808080 .colorful = 0x00808080 := by decide
theorem test_enc_channel_order : pixelEncode 0x01020304 .colorful = 0x00020304 := by decide

/-- The test constants of section 2.6, which are not the source's. -/
def testConstants : Config.SeedConstants where
  seedMul := 3
  seedAdd := 7
  rowMul := 5
  rowAdd := 11

theorem test_master_start : masterStart testConstants 42 = 0xD77D8BDB := by decide +kernel
theorem test_row_start : rowStart testConstants 42 1 = 0x20A10947 := by decide +kernel
theorem test_sample : sampleAt testConstants 42 .colorful 1 0 = 0x00B4D9E3 := by decide +kernel

/-! ## The assembler (30_encoding.md R68, R69) -/

theorem test_assemble_line :
    assemble "  setmode COLOR ; a comment".toList = .ok [0x0000000400000001] := by decide +kernel
theorem test_assemble_init :
    assemble "INIT 42\nRDX".toList = .ok [0x000000010000002A, 0x0000000300000064, 0x0000000900000000] := by
  decide +kernel
theorem test_assemble_too_large : assemble "STEP 0x100000000".toList = .error .operandOutOfRange := by decide +kernel
theorem test_assemble_setmode_2 : assemble "SETMODE 2".toList = .error .operandOutOfRange := by decide +kernel
theorem test_assemble_rdreg_4 : assemble "RDREG 4".toList = .error .operandOutOfRange := by decide +kernel

/-! ## Witnesses: for each statement with hypotheses, a state and operands that meet them together -/

theorem witness_completion_on_agenda :
    decode 0x0000000200000000 = .command (.next 0 0) ∧ decode 0x0000000A00000000 = .illegalOpcode 0x0A ∧
    ((inFlight 0x0000000200000000 [.complete 0]).port 0).cmd = some 0x0000000200000000 ∧
    (inFlight 0x0000000200000000 [.complete 0]).agenda = .complete 0 :: [] := by decide
theorem witness_completion_awaited :
    ((inFlight 0x0000000A00000000 [.host (.takeMaster 0)]).port 0).cmd = some 0x0000000A00000000 ∧
    (inFlight 0x0000000A00000000 [.host (.takeMaster 0)]).agenda = .host (.takeMaster 0) :: [] ∧
    (Event.host (.takeMaster 0)).awaits = some 0 := by decide
theorem witness_completion_agenda_used_up :
    ((inFlight 0xFFFFFF02FFFFFFFF []).port 0).cmd = some 0xFFFFFF02FFFFFFFF ∧
    (inFlight 0xFFFFFF02FFFFFFFF []).firstBusy = some 0 := by decide
/-- NEXT, STEP, DRAW and RDREG 0 on a seeded unit; also for the statements with SEEDED = 1 as hypothesis
(repeated NEXT, DRAW against NEXT then ENC). -/
theorem witness_seeded_unit : (unitAt (seeded 0)).regs.seeded = true ∧ (unitAt (seeded 0xFFFFFFFF)).regs.seeded = true := by
  decide
/-- NEXT, STEP, DRAW and RDREG 0 on an unseeded unit. -/
theorem witness_unseeded_unit : State.reset.regs.seeded = false := by decide
/-- The boundary immediates of the reserved-field clauses. -/
theorem witness_reserved_immediates :
    1 < (2 : Word).toNat ∧ 3 < (4 : Word).toNat ∧ (0x800000 : BitVec 24) ≠ 0 ∧ (0x80000000 : Word) ≠ 0 := by decide
theorem witness_seed_zero_then_next :
    ∃ t u, exec (.seed 0 0) State.reset = .next t ∧ performAll (List.replicate (0 + 1) (.next 0 0)) t = .next u :=
  ⟨_, _, rfl, rfl⟩
theorem witness_step_then_enc :
    ∃ t u, (unitAt (seeded 1)).regs.seeded = true ∧ exec (.step 0 0) (unitAt (seeded 1)) = .next t ∧
      exec (.enc 0 0) t = .next u := ⟨_, _, rfl, rfl, rfl⟩
theorem witness_failed_clrerr : ∃ t, exec (.clrerr 0 1) (unitAt (inError 3)) = .next t := ⟨_, rfl⟩
/-- A failed RDREG with no error on record before, and one that succeeds. -/
theorem witness_rdreg_both_ways :
    (∃ t, exec (.rdreg 0 3) State.reset = .next t ∧ t.regs = State.reset.regs) ∧
    ∃ t, exec (.rdreg 0 0) State.reset = .next t ∧ t.regs = inError 3 := ⟨⟨_, rfl, rfl⟩, ⟨_, rfl, rfl⟩⟩
/-- The reserved-field clause of the check order (its other clauses: `test_illegal_before_reserved`, `test_next`,
`test_draw_unseeded`). -/
theorem witness_check_order :
    decode 0x0000010200000000 = .command (.next 1 0) ∧ Instr.wellFormed (.next 1 0) = false ∧
    Instr.wellFormed (.next 0 0) = true ∧ needsSeeded (.next 0 0) = true := by decide
theorem witness_two_hosts_one_unit :
    (unitAt (seeded 1)).regs = ({ unitAt (seeded 1) with hostMaster := 7 } : State).regs ∧
    (∃ t, exec (.next 0 0) (unitAt (seeded 1)) = .next t) ∧
    ∃ t, exec (.next 0 0) { unitAt (seeded 1) with hostMaster := 7 } = .next t := ⟨rfl, ⟨_, rfl⟩, ⟨_, rfl⟩⟩
theorem witness_unseeded_x :
    State.reset.regs.seeded = false ∧ (∃ t, exec (.enc 0 0) State.reset = .next t) ∧
    ∃ t, exec (.enc 0 0) (State.reset.setRegs { State.reset.regs with x := 9 }) = .next t := ⟨rfl, ⟨_, rfl⟩, ⟨_, rfl⟩⟩
theorem witness_err_blocks_nothing :
    (∃ t, exec (.next 0 0) (unitAt (seeded 1)) = .next t) ∧
    ∃ t, exec (.next 0 0) ((unitAt (seeded 1)).setRegs { (unitAt (seeded 1)).regs with err := true, ecode := 2 }) =
      .next t := ⟨⟨_, rfl⟩, ⟨_, rfl⟩⟩
/-- For the statements about which registers a command changes: one command that changes the error record. -/
theorem witness_error_record_changes :
    ∃ t, exec (.draw 0 0) State.reset = .next t ∧ t.regs.err ≠ State.reset.regs.err := ⟨_, rfl, by decide⟩
/-- One that changes X and RAW, one PIX, one MODE, one SEEDED. -/
theorem witness_registers_change :
    (∃ t, exec (.next 0 0) (unitAt (seeded 1)) = .next t ∧ t.regs.x ≠ 1 ∧ t.regs.raw ≠ 0) ∧
    (∃ t, exec (.enci 0 1) State.reset = .next t ∧ t.regs.pix ≠ 0) ∧
    (∃ t, exec (.setmode 0 1) State.reset = .next t ∧ t.regs.mode ≠ .grayscale) ∧
    ∃ t, exec (.seed 0 0) State.reset = .next t ∧ t.regs.seeded ≠ false :=
  ⟨⟨_, rfl, by decide, by decide⟩, ⟨_, rfl, by decide⟩, ⟨_, rfl, by decide⟩, ⟨_, rfl, by decide⟩⟩
theorem witness_error_kept_and_cleared :
    (unitAt (inError 1)).regs.err = true ∧ (∃ t, exec (.next 0 0) (unitAt (inError 1)) = .next t) ∧
    ∃ t, exec (.clrerr 0 0) (unitAt (inError 1)) = .next t := ⟨rfl, ⟨_, rfl⟩, ⟨_, rfl⟩⟩
theorem witness_not_seed : (Instr.next 0 0).opcode ≠ 0x01 ∧ ∃ t, exec (.next 0 0) (unitAt (seeded 1)) = .next t :=
  ⟨by decide, _, rfl⟩
/-- Repeating NEXT at least once (the second clause of the STEP statement needs m < n). -/
theorem witness_repeat_count : 0 < (1 : Word).toNat := by decide
theorem witness_equal_low_bytes : (0x12345678 : Word).extractLsb' 0 8 = (0x00000078 : Word).extractLsb' 0 8 := by decide
theorem witness_idempotent :
    (Instr.step 0 0).opcode ≠ 0x02 ∧ (Instr.step 0 0).opcode ≠ 0x06 ∧ (Instr.step 0 0).imm = 0 ∧
    ∃ t u, exec (.step 0 0) (unitAt (seeded 5)) = .next t ∧ exec (.step 0 0) t = .next u :=
  ⟨by decide, by decide, rfl, _, _, rfl, rfl⟩
theorem witness_reset_in_flight :
    (inFlight 0x0000000300000064 [.reset 0]).agenda = .reset 0 :: [] ∧ unitExists 0 = true := by decide
/-- The invariant on a system that has handed off one buffer, of one slot, and is filling another, of two slots, the
first of them written; its next step writes the second. -/
def invariantState : State where
  units := [(0, seeded 1)]
  ports := [(0, ⟨none, some 0x00212121⟩)]
  active := 0
  agenda := [.host (.storePixel 0 1)]
  hostMem := [(0, 7), (1, 8), (2, 9), (3, 1), (4, 2), (5, 3), (6, 0), (7, 0), (8, 0)]
  hostMaster := 5
  hostDraws := [(0, 5)]
  buffer := some ⟨3, 6, [0]⟩
  handedOff := [⟨0, 3, [0]⟩]

theorem witness_invariant_step :
    State.reset.Inv ∧ invariantState.Inv ∧ (∃ t, step State.reset = .next t) ∧ ∃ t, step invariantState = .next t := by
  have sound : UnitState.reset.sound := ⟨by decide, by decide, by decide, fun _ => rfl⟩
  refine ⟨⟨fun k => sound, fun k h => absurd h Bool.false_ne_true, rfl, rfl, rfl, rfl,
    fun k h => absurd h Bool.false_ne_true, rfl, nofun, List.Pairwise.nil, nofun, nofun⟩,
    ⟨fun k => ?_, fun k h => ?_, rfl, rfl, by decide, rfl, fun k h => ?_, rfl, ?_, by decide, ?_, ?_⟩, ⟨_, rfl⟩, ⟨_, rfl⟩⟩
  · by_cases hk : 0 = k
    · subst hk
      exact ⟨by decide, by decide, by decide, by decide⟩
    · simpa [State.unit, invariantState, sparseGet, sparseFind, hk] using sound
  · by_cases hk : 0 = k
    · subst hk
      exact absurd h (by decide)
    · simp [State.port, invariantState, sparseGet, sparseFind, hk, Port.idle] at h
  · by_cases hk : 0 = k
    · subst hk
      exact rfl
    · simp [State.busy, State.port, invariantState, sparseGet, sparseFind, hk, Port.idle] at h
  · have hr : ∀ b ∈ invariantState.buffers, b.base + b.bytes ≤ 9 := by decide
    have hm : ∀ a < 9, (invariantState.memRead a).isSome := by decide
    exact fun b hb => ⟨fun a _ ha => hm a (Nat.lt_of_lt_of_le ha (hr b hb)), by revert b; decide, by revert b; decide⟩
  · intro b hb slot ch h1 h2 h3
    obtain rfl : (⟨3, 6, [0]⟩ : Buffer) = b := Option.some.inj hb
    rw [Buffer.holdsSlot, decide_eq_true_iff] at h1
    have hs : slot < 2 := by simp only at h1; omega
    have h : ∀ slot < 2, slot ∉ [0] → ∀ ch < 3, invariantState.memRead (3 + 3 * slot + ch) = some 0 := by decide
    exact h slot hs h2 ch h3
  · intro b hb slot h1
    obtain rfl : b = ⟨0, 3, [0]⟩ := List.mem_singleton.1 hb
    rw [Buffer.holdsSlot, decide_eq_true_iff] at h1
    have hs : slot = 0 := by simp only at h1; omega
    rw [hs]
    exact List.mem_singleton_self 0
theorem witness_send_busy :
    (inFlight 0x0000000000000000 [.send 0 (.word 0)]).agenda = .send 0 (.word 0) :: [] ∧
    (inFlight 0x0000000000000000 [.send 0 (.word 0)]).busy 0 = true := by decide
theorem witness_send_idle :
    ({ State.reset with agenda := [.send 0 (.word 0)] } : State).agenda = .send 0 (.word 0) :: [] ∧
    ({ State.reset with agenda := [.send 0 (.word 0)] } : State).busy 0 = false ∧ unitExists 0 = true ∧
    ({ State.reset with agenda := [.send 0 (.word 0)] } : State).resolve (.word 0) = some 0 := by decide
theorem witness_agenda_used_up : (inFlight 0x0000000200000000 []).agenda = [] := by decide
theorem witness_idle_system : State.reset.agenda = [] ∧ ∀ k, State.reset.busy k = false := ⟨rfl, fun _ => rfl⟩
/-- Two units with a command in flight each. -/
theorem witness_two_units : (0 : Nat) ≠ 1 ∧
    ∀ k < 2, ({ State.reset with ports := [(0, ⟨some 1, none⟩), (1, ⟨some 2, none⟩)] } : State).busy k = true := by
  decide

/-- Seed 42, 4 by 2, as in 95_test_vectors.md section 2.6. -/
def testRun : RunInputs where
  seed := 42
  width := 4
  height := 2
  mode := .grayscale
  base := 1000

/-- A run with a zero dimension. -/
def emptyRun : RunInputs := { testRun with width := 0 }

/-- The open buffer of `testRun`, with some slots written. -/
def openBuffer (written : List Nat) : Buffer where
  base := 1000
  bytes := 24
  written := written

/-- A system with unit 0 seeded, the buffer of `testRun` open with its second slot written, and agenda `es`. -/
def filling (es : List Event) : State := { unitAt (seeded 1) with buffer := some (openBuffer [1]), agenda := es }

/-- A system that has handed off the finished buffer of `testRun`, with agenda `es`. -/
def handedOver (es : List Event) : State := { State.reset with handedOff := [openBuffer (List.range 8)], agenda := es }

theorem witness_pixel :
    (filling (drawPixel testRun 0 1 3 ++ [])).agenda = drawPixel testRun 0 1 3 ++ [] ∧ unitExists 0 = true ∧
    (filling (drawPixel testRun 0 1 3 ++ [])).busy 0 = false ∧
    ((filling (drawPixel testRun 0 1 3 ++ [])).unit 0).seeded = true ∧
    (filling (drawPixel testRun 0 1 3 ++ [])).buffer = some (openBuffer [1]) ∧
    (openBuffer [1]).holdsSlot (pixelSlot testRun 1 3) = true ∧ pixelSlot testRun 1 3 ∉ (openBuffer [1]).written := by
  decide
theorem witness_allocate :
    (handedOver [.host (.allocate 1024 4 2)]).agenda = .host (.allocate 1024 4 2) :: [] ∧
    (handedOver [.host (.allocate 1024 4 2)]).readyFor (newBuffer 1024 4 2) := ⟨rfl, rfl, by decide⟩
theorem witness_dimensions :
    2 ^ 32 - 1 < (0xFFFFFFFF : Word).toNat * (2 : Word).toNat ∧
    (0xFFFFFFFF : Word).toNat * (1 : Word).toNat ≤ 2 ^ 32 - 1 := by decide
theorem witness_zero_dimension :
    (handedOver (runAround emptyRun [.complete 0])).agenda = runAround emptyRun [.complete 0] ∧
    (handedOver (runAround emptyRun [.complete 0])).buffer = none ∧ emptyRun.width = 0 := ⟨rfl, rfl, rfl⟩
/-- The shape of a hand-off does not fit. -/
theorem witness_hand_off_mismatch :
    (filling [.host (.handOff 4 3)]).agenda = .host (.handOff 4 3) :: [] ∧
    (filling [.host (.handOff 4 3)]).buffer = some (openBuffer [1]) ∧
    (openBuffer [1]).bytes ≠ (4 : Word).toNat * (3 : Word).toNat * 3 := by decide
/-- The shape fits and every slot is written. -/
theorem witness_hand_off :
    ({ filling [.host (.handOff 4 2)] with buffer := some (openBuffer (List.range 8)) } : State).agenda =
      .host (.handOff 4 2) :: [] ∧
    ({ filling [.host (.handOff 4 2)] with buffer := some (openBuffer (List.range 8)) } : State).buffer =
      some (openBuffer (List.range 8)) ∧
    (openBuffer (List.range 8)).bytes = (4 : Word).toNat * (2 : Word).toNat * 3 ∧
    ∀ slot < (4 : Word).toNat * (2 : Word).toNat, slot ∈ (openBuffer (List.range 8)).written := by decide
/-- The shape fits and a slot is not written. -/
theorem witness_hand_off_incomplete :
    (filling [.host (.handOff 4 2)]).agenda = .host (.handOff 4 2) :: [] ∧
    (filling [.host (.handOff 4 2)]).buffer = some (openBuffer [1]) ∧
    (openBuffer [1]).bytes = (4 : Word).toNat * (2 : Word).toNat * 3 ∧
    7 < (4 : Word).toNat * (2 : Word).toNat ∧ 7 ∉ (openBuffer [1]).written := by decide
/-- One state for each way a host breaks a buffer rule, at the first slot outside the buffer, at its last slot, and at
the last byte of a buffer handed off. -/
theorem witness_host_breaches :
    ((filling [.host (.storePixel 0 8)]).busy 0 = false ∧ (openBuffer [1]).bytes < 3 * 8 + 3) ∧
    (3 * 7 + 3 ≤ (openBuffer [7]).bytes ∧ 7 ∈ (openBuffer [7]).written ∧
      ({ filling [.host (.storePixel 0 7)] with buffer := some (openBuffer [7]) } : State).buffer =
        some (openBuffer [7])) ∧
    (filling [.host (.allocate 5000 1 1)]).buffer = some (openBuffer [1]) ∧
    (openBuffer (List.range 8) ∈ (handedOver [.host (.allocate 1023 1 1)]).handedOff ∧
      (handedOver [.host (.allocate 1023 1 1)]).buffer = none ∧ 1023 < 1000 + (openBuffer (List.range 8)).bytes ∧
      1023 < 1023 + 3 * ((1 : Word).toNat * (1 : Word).toNat)) ∧
    (handedOver [.host (.storePixel 0 0)]).buffer = none ∧ State.reset.buffer = none := by decide
theorem witness_take_master :
    (filling [.host (.takeMaster 0)]).busy 0 = false ∧ ((filling [.host (.takeMaster 0)]).port 0).resp = none ∧
    (({ filling [.host (.takeMaster 0)] with ports := [(0, ⟨none, some 7⟩)] } : State).port 0).resp = some 7 := by
  decide
theorem witness_take_draw :
    (filling [.host (.takeDraw 0 5)]).busy 0 = false ∧ ((filling [.host (.takeDraw 0 5)]).port 0).resp = none ∧
    ({ filling [.host (.takeDraw 0 5)] with ports := [(0, ⟨none, some 7⟩)] } : State).busy 0 = false ∧
    (({ filling [.host (.takeDraw 0 5)] with ports := [(0, ⟨none, some 7⟩)] } : State).port 0).resp = some 7 := by
  decide
/-- A row seed with its draw taken, and one without. -/
theorem witness_row_seed :
    (filling [.send 0 (.seedRow 1 5 11)]).busy 0 = false ∧ unitExists 0 = true ∧
    sparseFind (filling [.send 0 (.seedRow 1 5 11)]).hostDraws 1 = none ∧
    sparseFind ({ filling [.send 0 (.seedRow 1 5 11)] with hostDraws := [(0, 3), (1, 9)] } : State).hostDraws 1 =
      some 9 := by decide
theorem witness_no_such_unit :
    Config.numUnits ≤ Config.numUnits ∧
    ({ State.reset with agenda := [.reset Config.numUnits] } : State).busy Config.numUnits = false ∧
    ({ State.reset with agenda := [.reset Config.numUnits] } : State).agenda = .reset Config.numUnits :: [] :=
  ⟨Nat.le_refl _, rfl, rfl⟩
theorem witness_row_task :
    (filling (rowTask testRun 0 1 (.word (encode (.seed 0 5))))).buffer = some (openBuffer [1]) ∧
    unitExists 0 = true ∧
    ∀ j < testRun.width.toNat, (openBuffer [1]).holdsSlot (pixelSlot testRun 1 j) = true ∧
      pixelSlot testRun 1 j ∉ (openBuffer [1]).written := by decide
/-- A run beside a buffer handed off before. -/
theorem witness_single_unit_run :
    ({ State.reset with handedOff := [⟨1024, 3, [0]⟩] } : State).readyForRun testRun ∧
    unitExists 0 = true ∧ testRun.width.toNat * testRun.height.toNat ≤ 2 ^ 32 - 1 := ⟨⟨rfl, by decide⟩, rfl, by decide⟩
/-- The rows in the order 1 then 0 (95_test_vectors.md S7), with a completion in between. -/
theorem witness_overlapped_run :
    overlapsRows testConstants testRun [(1, 0), (0, 0)]
      (multiUnitRow testConstants testRun (1, 0) ++ [.complete 0] ++ multiUnitRow testConstants testRun (0, 0)) ∧
    (([(1, 0), (0, 0)] : List (Nat × Nat)).map Prod.fst).Perm (List.range testRun.height.toNat) ∧
    ∀ task ∈ ([(1, 0), (0, 0)] : List (Nat × Nat)), unitExists task.2 = true := by
  refine ⟨⟨fun e he => ?_, fun k => ?_⟩, by decide, by decide⟩
  · have h : ∀ e ∈ multiUnitRow testConstants testRun (1, 0) ++ [.complete 0] ++
        multiUnitRow testConstants testRun (0, 0), e.awaits = some 0 ∨ e = .complete 0 := by decide +kernel
    exact (h e he).imp (fun h0 => by rw [h0]; simp) (fun h0 => ⟨0, h0⟩)
  · simp [eventsOf, Event.awaits]
/-- The master generator on unit 0, whose rows run there too: both draws first, then the rows in the order 1 then 0, with a
completion in between; and with a row between the draws, so that the master state is restored. -/
theorem witness_master_unit_run :
    overlapsMasterUnit testConstants testRun 0 [.draw false 0, .draw false 1, .row 1 0, .row 0 0]
      (masterUnitCommands testConstants testRun 0 [.draw false 0, .draw false 1, .row 1 0] ++ [.complete 0] ++
        Job.events testConstants testRun 0 (.row 0 0)) ∧
    overlapsMasterUnit testConstants testRun 0 [.draw true 0, .row 0 0, .draw true 1, .row 1 0]
      (masterUnitCommands testConstants testRun 0 [.draw true 0, .row 0 0, .draw true 1, .row 1 0]) := by
  refine ⟨⟨by decide, by decide, by decide, by decide +kernel, fun e he => ?_, fun k => ?_⟩,
    ⟨by decide, by decide, by decide, by decide +kernel, fun e he => ?_, fun k => rfl⟩⟩
  · have h : ∀ e ∈ masterUnitCommands testConstants testRun 0 [.draw false 0, .draw false 1, .row 1 0] ++
        [.complete 0] ++ Job.events testConstants testRun 0 (.row 0 0), e.awaits = some 0 ∨ e = .complete 0 := by
      decide +kernel
    exact (h e he).imp (fun h0 => by rw [h0]; simp) (fun h0 => ⟨0, h0⟩)
  · simp [masterUnitCommands, eventsOf, Event.awaits]
  · have h : ∀ e ∈ masterUnitCommands testConstants testRun 0 [.draw true 0, .row 0 0, .draw true 1, .row 1 0],
        e.awaits = some 0 := by decide +kernel
    exact .inl (by rw [h e he]; simp)
/-- Both rows drawn, row 0 on unit 0, the master generator's own unit. -/
theorem witness_master_unit_units :
    unitExists 0 = true ∧ ∀ task ∈ rowTasks [.draw false 0, .draw false 1, .row 1 0, .row 0 0], unitExists task.2 = true := by
  decide
theorem witness_admissible : testConstants.admissible = true := by decide
/-- The seed that makes the master pre-state zero under the test constants (95_test_vectors.md section 2.6), and a row
seed of 0 for constants whose row pair is (0, 0). -/
theorem witness_zero_state :
    masterSeed testConstants 0x55555553 = 0 ∧
    rowSeed { testConstants with rowMul := 0, rowAdd := 0 } 42 0 = 0 ∧
    Config.SeedConstants.admissible { testConstants with rowMul := 0, rowAdd := 0 } = true := by decide +kernel
theorem witness_assembled : assemble "RDREG STATUS".toList = .ok [0x0000000900000003] := by decide +kernel
theorem witness_pseudo_operand :
    parseU32 "0xffffFFFF".toList = .ok 0xFFFFFFFF ∧ parseU32 "0".toList = .ok 0 := by decide +kernel

/-- A system whose host memory is the RasterBuffer of a 1 by 1 Grayscale run. -/
def rasterRun : RunInputs := { testRun with width := 1, height := 1 }

/-- Its memory: the one pixel, 0x56 in each channel (95_test_vectors.md section 2.6, entry 0). -/
def rasterState : State := { State.reset with hostMem := [(1000, 0x56), (1001, 0x56), (1002, 0x56)] }

theorem witness_raster : HoldsRaster testConstants rasterRun State.reset rasterState ∧ rasterRun.mode = .grayscale := by
  have h : ∀ ch < 3, rasterState.memRead (pixelAddress rasterRun 0 0 + ch) =
      some (channelByte (sampleAt testConstants rasterRun.seed rasterRun.mode 0 0) ch) := by decide +kernel
  refine ⟨⟨fun i j ch hi hj hch => ?_, fun addr ha => ?_⟩, rfl⟩
  · have hi0 : i = 0 := Nat.lt_one_iff.1 hi
    have hj0 : j = 0 := Nat.lt_one_iff.1 hj
    subst hi0 hj0
    exact h ch hch
  · have ha' : addr < 1000 ∨ 1003 ≤ addr := ha
    have h0 : 1000 ≠ addr := by omega
    have h1 : 1001 ≠ addr := by omega
    have h2 : 1002 ≠ addr := by omega
    simp [State.memRead, rasterState, sparseFind, State.reset, h0, h1, h2]

end Sys2Proof.Tests
end

namespace Sys2Proof.Machine

/-! ## What the next step is, for each shape of the agenda

`step_cases` says all a step can do; these say which of it happens when the agenda is known. -/

/-- With the agenda used up, the first busy unit completes its command (70_reset_and_hazards.md R197). -/
theorem step_of_agenda_nil {s : State} {k : Nat} (ha : s.agenda = []) (hk : s.firstBusy = some k) :
    step s = completeCommand k s := by
  simp [step, advance, ha, hk]

/-- An event that awaits a busy unit lets that unit complete its command (70_reset_and_hazards.md R194). -/
theorem step_of_awaits_busy {s : State} {e : Event} {rest : List Event} {k : Nat} (ha : s.agenda = e :: rest)
    (he : e.awaits = some k) (hk : s.busy k = true) : step s = completeCommand k s := by
  simp [step, advance, ha, he, hk]

/-- An event that awaits an idle unit happens at once. -/
theorem step_of_awaits_idle {s : State} {e : Event} {rest : List Event} {k : Nat} (ha : s.agenda = e :: rest)
    (he : e.awaits = some k) (hk : s.busy k = false) : step s = performEvent e { s with agenda := rest } := by
  simp [step, advance, ha, he, hk]

/-- An event that awaits no unit happens at once. -/
theorem step_of_awaits_none {s : State} {e : Event} {rest : List Event} (ha : s.agenda = e :: rest)
    (he : e.awaits = none) : step s = performEvent e { s with agenda := rest } := by
  simp [step, advance, ha, he]

/-- A completion event performs the word in flight, once the event is off the agenda. -/
theorem step_of_complete {s : State} {k : Nat} {w : CommandWord} {rest : List Event}
    (ha : s.agenda = .complete k :: rest) (hw : (s.port k).cmd = some w) :
    step s = performWord w (({ s with agenda := rest } : State).takeCommand k) :=
  calc step s = completeCommand k { s with agenda := rest } := step_of_awaits_none ha rfl
    _ = performWord w (({ s with agenda := rest } : State).takeCommand k) := completeCommand_busy hw

/-- Placing a whole 64-bit word: it is handed over to the active unit, whose completion comes first. -/
theorem withFetchWord_toNat (s : State) (w : CommandWord) :
    s.withFetchWord 64 w.toNat = { s.handOver s.active w with agenda := .complete s.active :: s.agenda } := by
  have hw : BitVec.ofNat 64 (w.toNat % 2 ^ 64) = w := by
    rw [Nat.mod_eq_of_lt w.isLt, BitVec.ofNat_toNat, BitVec.setWidth_eq]
  rw [State.withFetchWord, hw]

/-- A word placed by `withFetchWord` is the word the next step performs. -/
theorem step_withFetchWord (s : State) (w : CommandWord) :
    step (s.withFetchWord 64 w.toNat) = performWord w ((s.handOver s.active w).takeCommand s.active) := by
  rw [withFetchWord_toNat]
  exact step_of_complete rfl (by rw [State.withAgenda_port, State.port_handOver_same])

/-! ## What performing a word is -/

/-- A word that decodes to a command performs that command (30_encoding.md R65). -/
theorem performWord_of_command {w : CommandWord} {i : Instr} (h : decode w = .command i) (s : State) :
    performWord w s = exec i s := by
  simp [performWord, h]

/-- A word with an illegal opcode fails with code 1 (60_exceptions.md R171). -/
theorem performWord_of_illegalOpcode {w : CommandWord} {op : BitVec 8} (h : decode w = .illegalOpcode op)
    (s : State) : ∃ t, performWord w s = .next t ∧ Failed s 1 t :=
  ⟨s.raiseError .illegalOpcode, by simp [performWord, h], raiseError_failed s .illegalOpcode⟩

/-! ## Units that do not exist -/

/-- A unit number not below `NUM_UNITS` names no unit (00_scope.md R6). -/
theorem unitExists_eq_false_iff (k : Nat) : unitExists k = false ↔ Config.numUnits ≤ k := by
  rw [← Bool.not_eq_true, unitExists_iff, Nat.not_lt]

/-- A command sent where no unit is: the fault, whatever its source. -/
theorem performEvent_send_noSuchUnit {k : Nat} (hk : unitExists k = false) (src : CommandSource) (s : State) :
    performEvent (.send k src) s = .fault (.noSuchUnit k) := by
  simp [performEvent, hk]

/-- A reset where no unit is: the fault. -/
theorem performEvent_reset_noSuchUnit {k : Nat} (hk : unitExists k = false) (s : State) :
    performEvent (.reset k) s = .fault (.noSuchUnit k) := by
  simp [performEvent, hk]

/-! ## The obligations of 00_scope.md -/

/-- Settles O17: the effect a command commits is a function of its unit's registers (`exec_eq_commit`). -/
theorem commandReadsOnlyItsUnit : Obligations.CommandReadsOnlyItsUnit := by
  intro i s s' t t' hregs ht ht'
  obtain ⟨effect, hexec⟩ := exec_eq_commit i
  obtain rfl : s.commit (effect s.regs) = t := Host.Outcome.next.inj ((hexec s).symm.trans ht)
  obtain rfl : s'.commit (effect s'.regs) = t' := Host.Outcome.next.inj ((hexec s').symm.trans ht')
  simp [hregs]

/-- Settles O3: each way a step completes unit `k`'s command comes down to `completeCommand_busy`, and the frame of
`takeCommand` is its laws. -/
theorem stepPerformsTheCommandInFlight : Obligations.StepPerformsTheCommandInFlight := by
  refine fun s k w => ⟨fun hw => ?_, step_withFetchWord s w, fun i hi => performWord_of_command hi s,
    fun op hop => performWord_of_illegalOpcode hop s⟩
  have hbusy : s.busy k = true := (busy_iff s k).2 ⟨w, hw⟩
  have htake : completeCommand k s = performWord w (s.takeCommand k) := completeCommand_busy hw
  refine ⟨fun rest ha => step_of_complete ha hw, fun e rest ha he => ?awaited, fun ha hk => ?usedUp, ?frame⟩
  case awaited => exact (step_of_awaits_busy ha he hbusy).trans htake
  case usedUp => exact (step_of_agenda_nil ha hk).trans htake
  case frame =>
    have hport : ∀ j, j ≠ k → (s.takeCommand k).port j = s.port j := fun j hj => State.port_takeCommand_ne s k hj
    exact ⟨rfl, rfl, by simp, by simp, fun _ => rfl, hport, rfl, rfl, rfl, rfl, rfl, fun _ => rfl⟩

/-- Settles O44: a send finds the port idle and a reset awaits nothing, so the event happens at once, and it names no
unit. -/
theorem noUnitBeyondNumUnits : Obligations.NoUnitBeyondNumUnits := by
  refine ⟨Nat.le_add_left 1 Config.extraUnits, fun s k rest hk hidle => ⟨fun src ha => ?send, fun ha => ?reset⟩⟩
  all_goals have hnone : unitExists k = false := (unitExists_eq_false_iff k).2 hk
  case send => exact (step_of_awaits_idle ha rfl hidle).trans (performEvent_send_noSuchUnit hnone src _)
  case reset => exact (step_of_awaits_none ha rfl).trans (performEvent_reset_noSuchUnit hnone _)

end Sys2Proof.Machine

namespace Sys2Proof.Machine

/-! ## What each command does, from its unit's registers alone

`exec` runs every command through `performChecked`. Here the operand form and the effect of each command are named, so
that a later proof splits on a command's outcome (a failed check, or its effect) and not on `exec`. -/

/-- The operand form of each command (30_encoding.md R63, R64). -/
def operandForm : Instr → OperandForm
  | .nop _ _ | .next _ _ | .enc _ _ | .draw _ _ | .clrerr _ _ => .none
  | .seed _ _ | .step _ _ | .enci _ _ => .u32
  | .setmode _ _ => .bit
  | .rdreg _ _ => .index

/-- The registers and the response of each command whose checks have passed. -/
def effectOf (i : Instr) (u : UnitState) : UnitState × Word :=
  match i with
  | .nop _ _ => (u, 0)
  | .seed _ imm => ({ u with x := imm, seeded := true }, 0)
  | .next _ _ => ({ u with x := mix u.x, raw := mix u.x }, mix u.x)
  | .step _ imm => ({ u with x := mixN imm.toNat u.x }, 0)
  | .setmode _ imm => ({ u with mode := Mode.ofBit (imm.extractLsb' 0 1) }, 0)
  | .enc _ _ => ({ u with pix := pixelEncode u.raw u.mode }, pixelEncode u.raw u.mode)
  | .draw _ _ =>
    ({ u with x := mix u.x, raw := mix u.x, pix := pixelEncode (mix u.x) u.mode }, pixelEncode (mix u.x) u.mode)
  | .enci _ imm => ({ u with pix := pixelEncode imm u.mode }, pixelEncode imm u.mode)
  | .clrerr _ _ => (u.clearError, 0)
  | .rdreg _ imm => (u, u.readRegister imm)

/-- The error of the first check that the command fails (60_exceptions.md R174). -/
def failedCheck (i : Instr) (u : UnitState) : Option ErrorCode :=
  firstFailedCheck i.rsv (operandForm i) i.imm (needsSeeded i) u

/-- The registers and the response a command leaves, whether its checks pass or not. -/
def outcomeOf (i : Instr) (u : UnitState) : UnitState × Word :=
  checkedEffect i.rsv (operandForm i) i.imm (needsSeeded i) (effectOf i) u

/-- Every command is its checks and its effect. -/
theorem exec_eq_performChecked (i : Instr) (s : State) :
    exec i s = performChecked i.rsv (operandForm i) i.imm (needsSeeded i) (effectOf i) s := by
  cases i <;> rfl

/-- Every command commits its outcome. -/
theorem exec_eq_commit_outcomeOf (i : Instr) (s : State) : exec i s = .next (s.commit (outcomeOf i s.regs)) :=
  (exec_eq_performChecked i s).trans (performChecked_eq_commit ..)

/-- The state after a command. -/
theorem eq_commit_of_exec {i : Instr} {s t : State} (h : exec i s = .next t) : t = s.commit (outcomeOf i s.regs) :=
  Host.Outcome.next.inj (h.symm.trans (exec_eq_commit_outcomeOf i s))

theorem regs_of_exec {i : Instr} {s t : State} (h : exec i s = .next t) : t.regs = (outcomeOf i s.regs).1 := by
  rw [eq_commit_of_exec h, State.commit_regs]

theorem resp_of_exec {i : Instr} {s t : State} (h : exec i s = .next t) :
    (t.port s.active).resp = some (outcomeOf i s.regs).2 := by
  rw [eq_commit_of_exec h, State.port_commit_same]

/-- The checks pass exactly when no field is reserved and a needed seed is there (60_exceptions.md R174). -/
theorem failedCheck_eq_none_iff (i : Instr) (u : UnitState) : failedCheck i u = none ↔
    i.rsv = 0 ∧ immAdmitted (operandForm i) i.imm = true ∧ (needsSeeded i = true → u.seeded = true) :=
  firstFailedCheck_eq_none ..

/-- The only well-formed CLRERR is the one with both fields 0 (42_control.md R121). -/
theorem eq_clrerr_of_passed {i : Instr} {u : UnitState} (hi : i.opcode = 0x08) (hpass : failedCheck i u = none) :
    i = .clrerr 0 0 := by
  cases i with
  | clrerr rsv imm =>
    obtain ⟨rfl, himm, -⟩ := (failedCheck_eq_none_iff _ _).1 hpass
    rw [(immAdmitted_none imm).1 himm]
  | _ => exact absurd hi (by simp [Instr.opcode])

/-- Of all registers the checks look at SEEDED only. -/
theorem failedCheck_congr {u u' : UnitState} (i : Instr) (h : u'.seeded = u.seeded) :
    failedCheck i u' = failedCheck i u := by
  rw [failedCheck, failedCheck, firstFailedCheck, firstFailedCheck, h]

theorem outcomeOf_of_failed {i : Instr} {u : UnitState} {c : ErrorCode} (h : failedCheck i u = some c) :
    outcomeOf i u = (u.recordError c, 0) := by
  rw [failedCheck] at h
  rw [outcomeOf, checkedEffect, h]

theorem outcomeOf_of_passed {i : Instr} {u : UnitState} (h : failedCheck i u = none) :
    outcomeOf i u = effectOf i u := by
  rw [failedCheck] at h
  rw [outcomeOf, checkedEffect, h]

/-- All that can happen to the registers and the response of a unit that performs a command. -/
theorem outcomeOf_cases (i : Instr) (u : UnitState) :
    (∃ c, failedCheck i u = some c ∧ outcomeOf i u = (u.recordError c, 0)) ∨
    (failedCheck i u = none ∧ outcomeOf i u = effectOf i u) := by
  cases h : failedCheck i u with
  | some c => exact .inl ⟨c, rfl, outcomeOf_of_failed h⟩
  | none => exact .inr ⟨rfl, outcomeOf_of_passed h⟩

/-! ### Recording an error changes ERR and ECODE only (60_exceptions.md R172) -/

theorem recordError_zs (u : UnitState) (c : ErrorCode) : (u.recordError c).zs = u.zs := rfl

/-- ECODE keeps the first code (10_state.md R28). -/
theorem recordError_ecode_of_err {u : UnitState} (c : ErrorCode) (h : u.err = true) :
    (u.recordError c).ecode = u.ecode :=
  if_pos h

/-! ### Which registers an effect leaves unchanged (10_state.md R20, R21, R24) -/

section unwritten
variable {i : Instr} (u : UnitState)

theorem effectOf_x (hseed : i.opcode ≠ 0x01) (hnext : i.opcode ≠ 0x02) (hstep : i.opcode ≠ 0x03)
    (hdraw : i.opcode ≠ 0x06) : (effectOf i u).1.x = u.x := by
  cases i with
  | seed => exact absurd rfl hseed
  | next => exact absurd rfl hnext
  | step => exact absurd rfl hstep
  | draw => exact absurd rfl hdraw
  | _ => rfl

theorem effectOf_seeded (hseed : i.opcode ≠ 0x01) : (effectOf i u).1.seeded = u.seeded := by
  cases i with
  | seed => exact absurd rfl hseed
  | _ => rfl

/-- SEED leaves SEEDED at 1 (40_generator.md R82). -/
theorem effectOf_seeded_of_seed (hseed : i.opcode = 0x01) : (effectOf i u).1.seeded = true := by
  cases i with
  | seed => rfl
  | _ => exact absurd hseed (by simp [Instr.opcode])

theorem effectOf_raw (hnext : i.opcode ≠ 0x02) (hdraw : i.opcode ≠ 0x06) : (effectOf i u).1.raw = u.raw := by
  cases i with
  | next => exact absurd rfl hnext
  | draw => exact absurd rfl hdraw
  | _ => rfl

theorem effectOf_pix (henc : i.opcode ≠ 0x05) (hdraw : i.opcode ≠ 0x06) (henci : i.opcode ≠ 0x07) :
    (effectOf i u).1.pix = u.pix := by
  cases i with
  | enc => exact absurd rfl henc
  | draw => exact absurd rfl hdraw
  | enci => exact absurd rfl henci
  | _ => rfl

theorem effectOf_mode (hsetmode : i.opcode ≠ 0x04) : (effectOf i u).1.mode = u.mode := by
  cases i with
  | setmode => exact absurd rfl hsetmode
  | _ => rfl

theorem effectOf_errorRecord (hclrerr : i.opcode ≠ 0x08) :
    (effectOf i u).1.err = u.err ∧ (effectOf i u).1.ecode = u.ecode := by
  cases i with
  | clrerr => exact absurd rfl hclrerr
  | _ => exact ⟨rfl, rfl⟩

end unwritten

/-! ### No draw makes or loses a zero state (40_generator.md R81) -/

/-- A left shift by at least 1 moves every bit of a non-zero value. -/
theorem eq_zero_of_eq_shiftLeft {w k : Nat} {x : BitVec w} (hk : 0 < k) (h : x = x <<< k) : x = 0#w := by
  have hbit : ∀ j, x.getLsbD j = false := by
    intro j
    induction j using Nat.strong_induction_on with
    | _ j ih =>
      rw [h, BitVec.getLsbD_shiftLeft]
      by_cases hj : j < k
      · simp [hj]
      · rw [ih (j - k) (by omega), Bool.and_false]
  exact BitVec.eq_of_getLsbD_eq fun j _ => by rw [hbit j, BitVec.getLsbD_zero]

/-- A right shift by at least 1 makes every non-zero value smaller. -/
theorem eq_zero_of_eq_ushiftRight {w k : Nat} {x : BitVec w} (hk : 0 < k) (h : x = x >>> k) : x = 0#w := by
  have hdiv : x.toNat = x.toNat / 2 ^ k := by
    rw [← Nat.shiftRight_eq_div_pow, ← BitVec.toNat_ushiftRight, ← h]
  refine BitVec.eq_of_toNat_eq ?_
  rw [BitVec.toNat_ofNat, Nat.zero_mod]
  by_contra hne
  have hless : x.toNat / 2 ^ k < x.toNat := Nat.div_lt_self (Nat.pos_of_ne_zero hne) (Nat.one_lt_two_pow hk.ne')
  omega

/-- mix takes no value to 0 but 0: each of its three steps does (40_generator.md R81 (b)). -/
theorem mix_eq_zero_iff (x : Word) : mix x = 0 ↔ x = 0 := by
  refine ⟨fun h => ?_, fun h => by rw [h]; decide⟩
  have ofLeftShift : ∀ {k : Nat} {y : Word}, 0 < k → y ^^^ (y <<< k) = 0 → y = 0 :=
    fun hk hy => eq_zero_of_eq_shiftLeft hk (BitVec.xor_eq_zero_iff.1 hy)
  have ofRightShift : ∀ {k : Nat} {y : Word}, 0 < k → y ^^^ (y >>> k) = 0 → y = 0 :=
    fun hk hy => eq_zero_of_eq_ushiftRight hk (BitVec.xor_eq_zero_iff.1 hy)
  exact ofLeftShift (by decide) (ofRightShift (by decide) (ofLeftShift (by decide) h))

/-- No number of mixes takes a value to 0 but 0 (40_generator.md R81 (c)). -/
theorem mixN_eq_zero_iff (n : Nat) (x : Word) : mixN n x = 0 ↔ x = 0 := by
  induction n generalizing x with
  | zero => rfl
  | succ n ih => rw [mixN, ih, mix_eq_zero_iff]

/-- ZS looks at SEEDED and at whether X is 0 (10_state.md R29). -/
theorem zs_congr {u u' : UnitState} (hseeded : u'.seeded = u.seeded) (hx : u'.x = 0 ↔ u.x = 0) : u'.zs = u.zs := by
  rw [UnitState.zs, UnitState.zs, hseeded, beq_eq_beq.2 hx]

/-- Every effect but SEED's keeps ZS. -/
theorem effectOf_zs {i : Instr} (u : UnitState) (hseed : i.opcode ≠ 0x01) : (effectOf i u).1.zs = u.zs := by
  refine zs_congr (effectOf_seeded u hseed) ?_
  cases i with
  | seed => exact absurd rfl hseed
  | next | draw => exact mix_eq_zero_iff u.x
  | step _ n => exact mixN_eq_zero_iff n.toNat u.x
  | _ => rfl

/-! ## Changing X in an unseeded unit -/

/-- While SEEDED is 0, STATUS does not show X: ZS is 0 whatever X is (10_state.md R23, R29). -/
theorem status_with_x {u : UnitState} (v : Word) (hu : u.seeded = false) :
    ({ u with x := v } : UnitState).status = u.status := by
  simp only [UnitState.status, UnitState.zs, hu, Bool.false_and]

/-- While SEEDED is 0, only index 0 would show X (42_control.md R122). -/
theorem readRegister_with_x {u : UnitState} (v : Word) {index : Word} (hu : u.seeded = false) (hindex : index ≠ 0) :
    ({ u with x := v } : UnitState).readRegister index = u.readRegister index := by
  have hpos : index.toNat ≠ 0 := fun h => hindex (BitVec.eq_of_toNat_eq h)
  unfold UnitState.readRegister
  split
  · contradiction
  · rfl
  · rfl
  · exact status_with_x v hu

/-- Two outcomes that differ at most in X, and not at all once the unit is seeded. -/
structure SameUpToUnseededX (o o' : UnitState × Word) : Prop where
  response : o'.2 = o.2
  registers : { o'.1 with x := o.1.x } = o.1
  onceSeeded : o.1.seeded = true → o'.1 = o.1

/-- On an unseeded unit, a command that needs no seed does not use X. -/
theorem effectOf_with_x {i : Instr} {u : UnitState} (v : Word) (hi : needsSeeded i = false) (hu : u.seeded = false) :
    SameUpToUnseededX (effectOf i u) (effectOf i { u with x := v }) := by
  have unseeded : ∀ {p : Prop}, u.seeded = true → p := fun h => absurd h (by simp [hu])
  cases i with
  | next | step | draw => exact absurd hi (by simp [needsSeeded])
  | seed => exact ⟨rfl, rfl, fun _ => rfl⟩
  | rdreg _ imm =>
    have himm : imm ≠ 0 := by simpa [needsSeeded] using hi
    exact ⟨readRegister_with_x v hu himm, rfl, unseeded⟩
  | nop | setmode | enc | enci | clrerr => exact ⟨rfl, rfl, unseeded⟩

/-- On an unseeded unit no command shows or uses X (10_state.md R23). -/
theorem outcomeOf_with_x (i : Instr) {u : UnitState} (v : Word) (hu : u.seeded = false) :
    SameUpToUnseededX (outcomeOf i u) (outcomeOf i { u with x := v }) := by
  have hsame : failedCheck i { u with x := v } = failedCheck i u := failedCheck_congr i rfl
  rcases outcomeOf_cases i u with ⟨c, hc, ho⟩ | ⟨hc, ho⟩
  · rw [ho, outcomeOf_of_failed (hsame.trans hc)]
    exact ⟨rfl, rfl, fun h => absurd (hu.symm.trans h) Bool.false_ne_true⟩
  · rw [ho, outcomeOf_of_passed (hsame.trans hc)]
    obtain ⟨-, -, hneeds⟩ := (failedCheck_eq_none_iff i u).1 hc
    refine effectOf_with_x v ?_ hu
    cases hn : needsSeeded i with
    | false => rfl
    | true => exact absurd (hu.symm.trans (hneeds hn)) Bool.false_ne_true

/-! ## Changing the error record -/

/-- Two units that differ at most in ERR and ECODE. -/
structure SameUpToError (u u' : UnitState) : Prop where
  x : u'.x = u.x
  seeded : u'.seeded = u.seeded
  raw : u'.raw = u.raw
  pix : u'.pix = u.pix
  mode : u'.mode = u.mode

theorem SameUpToError.recordError {u u' : UnitState} (h : SameUpToError u u') (c : ErrorCode) :
    SameUpToError (u.recordError c) (u'.recordError c) :=
  ⟨h.x, h.seeded, h.raw, h.pix, h.mode⟩

/-- An effect uses neither ERR nor ECODE for the other registers. -/
theorem effectOf_sameUpToError (i : Instr) {u u' : UnitState} (h : SameUpToError u u') :
    SameUpToError (effectOf i u).1 (effectOf i u').1 := by
  obtain ⟨hx, hseeded, hraw, hpix, hmode⟩ := h
  have hdrawn : mix u'.x = mix u.x := congrArg mix hx
  cases i with
  | nop | clrerr | rdreg => exact ⟨hx, hseeded, hraw, hpix, hmode⟩
  | seed => exact ⟨rfl, rfl, hraw, hpix, hmode⟩
  | next => exact ⟨hdrawn, hseeded, hdrawn, hpix, hmode⟩
  | step _ n => exact ⟨congrArg (mixN n.toNat) hx, hseeded, hraw, hpix, hmode⟩
  | setmode => exact ⟨hx, hseeded, hraw, hpix, rfl⟩
  | enc => exact ⟨hx, hseeded, hraw, congrArg₂ pixelEncode hraw hmode, hmode⟩
  | draw => exact ⟨hdrawn, hseeded, hdrawn, congrArg₂ pixelEncode hdrawn hmode, hmode⟩
  | enci _ imm => exact ⟨hx, hseeded, hraw, congrArg (pixelEncode imm) hmode, hmode⟩

/-- Only the STATUS word shows ERR and ECODE. -/
theorem effectOf_response_of_sameUpToError {i : Instr} {u u' : UnitState} (h : SameUpToError u u')
    (hpass : failedCheck i u = none) (hi : i ≠ .rdreg 0 3) : (effectOf i u').2 = (effectOf i u).2 := by
  obtain ⟨hx, -, hraw, hpix, hmode⟩ := h
  cases i with
  | nop | seed | step | setmode | clrerr => rfl
  | next => exact congrArg mix hx
  | enc => exact congrArg₂ pixelEncode hraw hmode
  | draw => exact congrArg₂ pixelEncode (congrArg mix hx) hmode
  | enci _ imm => exact congrArg (pixelEncode imm) hmode
  | rdreg rsv imm =>
    obtain ⟨rfl, himm, -⟩ := (failedCheck_eq_none_iff _ _).1 hpass
    rcases (immAdmitted_index imm).1 himm with rfl | rfl | rfl | rfl
    · exact hx
    · exact hraw
    · exact hpix
    · exact absurd rfl hi

/-- ERR and ECODE block no command and change no result but the STATUS word (10_state.md R27). -/
theorem outcomeOf_sameUpToError (i : Instr) {u u' : UnitState} (h : SameUpToError u u') :
    SameUpToError (outcomeOf i u).1 (outcomeOf i u').1 ∧
    (i ≠ .rdreg 0 3 → (outcomeOf i u').2 = (outcomeOf i u).2) := by
  have hsame : failedCheck i u' = failedCheck i u := failedCheck_congr i h.seeded
  rcases outcomeOf_cases i u with ⟨c, hc, ho⟩ | ⟨hc, ho⟩
  · rw [ho, outcomeOf_of_failed (hsame.trans hc)]
    exact ⟨h.recordError c, fun _ => rfl⟩
  · rw [ho, outcomeOf_of_passed (hsame.trans hc)]
    exact ⟨effectOf_sameUpToError i h, effectOf_response_of_sameUpToError h hc⟩

/-! ## The STATUS word -/

section status
variable (u : UnitState)

/-- The flags of the STATUS word (10_state.md R30). -/
theorem status_flags : u.status.getLsbD 0 = decide (u.mode = .colorful) ∧ u.status.getLsbD 1 = u.seeded ∧
    u.status.getLsbD 2 = u.zs ∧ u.status.getLsbD 3 = u.err := by
  have hmode : u.mode.bit.getLsbD 0 = decide (u.mode = .colorful) := by cases u.mode <;> rfl
  rw [← hmode]
  simp only [UnitState.status, BitVec.getLsbD_append]
  simp

/-- Above its flags the STATUS word holds ECODE, and then zeros (10_state.md R30). -/
theorem getLsbD_status_add_four (j : Nat) : u.status.getLsbD (4 + j) = u.ecode.getLsbD j := by
  have hskip : ¬ (4 + j < 1) ∧ ¬ (4 + j - 1 < 1) ∧ ¬ (4 + j - 1 - 1 < 1) ∧ ¬ (4 + j - 1 - 1 - 1 < 1) := by omega
  have hsub : 4 + j - 1 - 1 - 1 - 1 = j := by omega
  simp only [UnitState.status, BitVec.getLsbD_append, hskip, hsub, if_false]
  by_cases hj : j < 4
  · rw [if_pos hj]
  · rw [if_neg hj, BitVec.getLsbD_of_ge _ _ (Nat.le_of_not_lt hj)]
    exact BitVec.getLsbD_zero

theorem extractLsb'_status_ecode : u.status.extractLsb' 4 4 = u.ecode := by
  refine BitVec.eq_of_getLsbD_eq fun j hj => ?_
  rw [BitVec.getLsbD_extractLsb', getLsbD_status_add_four, decide_eq_true hj, Bool.true_and]

theorem extractLsb'_status_top : u.status.extractLsb' 8 24 = 0 := by
  refine BitVec.eq_of_getLsbD_eq fun j _ => ?_
  have hbit : u.status.getLsbD (8 + j) = false := by
    rw [show 8 + j = 4 + (4 + j) by omega, getLsbD_status_add_four, BitVec.getLsbD_of_ge _ _ (Nat.le_add_right 4 j)]
  rw [BitVec.getLsbD_extractLsb', hbit, Bool.and_false]
  exact BitVec.getLsbD_zero.symm

end status


/-! ## The obligations of 10_state.md about one command -/

/-- Settles O18: the two runs' outcomes differ at most in an X that is still unseeded (`outcomeOf_with_x`). -/
theorem unseededXIsUnobservable : Obligations.UnseededXIsUnobservable := by
  intro i v s t t' hu ht ht'
  have hregs' := regs_of_exec ht'
  have hresp' := resp_of_exec ht'
  rw [State.setRegs_regs] at hregs' hresp'
  obtain ⟨hresp, hregs, hseeded⟩ := outcomeOf_with_x i v hu
  rw [regs_of_exec ht, resp_of_exec ht, hregs']
  exact ⟨hresp'.trans (congrArg some hresp), hregs, hseeded⟩

/-- Settles O19: the two runs' outcomes agree but for the error record and the STATUS word
(`outcomeOf_sameUpToError`). -/
theorem errBlocksNoCommand : Obligations.ErrBlocksNoCommand := by
  intro i e c s t t' ht ht'
  have hregs' := regs_of_exec ht'
  have hresp' := resp_of_exec ht'
  rw [State.setRegs_regs] at hregs' hresp'
  have hsame : SameUpToError s.regs { s.regs with err := e, ecode := c } := ⟨rfl, rfl, rfl, rfl, rfl⟩
  obtain ⟨⟨hx, hseeded, hraw, hpix, hmode⟩, hresp⟩ := outcomeOf_sameUpToError i hsame
  rw [regs_of_exec ht, resp_of_exec ht, hregs']
  exact ⟨hx, hseeded, hraw, hpix, hmode, fun hi => hresp'.trans (congrArg some (hresp hi))⟩

/-- Settles O20: a failed check writes the error record only, and an effect leaves every register as it is that is not
its own to write. -/
theorem registersChangeOnlyByTheirWriters : Obligations.RegistersChangeOnlyByTheirWriters := by
  intro i s t ht
  rcases outcomeOf_cases i s.regs with ⟨c, -, ho⟩ | ⟨-, ho⟩
  · have hfailed : Failed s c.code t := by
      rw [eq_commit_of_exec ht, ho, ← State.raiseError_eq_commit]
      exact raiseError_failed s c
    rw [regs_of_exec ht, ho]
    exact ⟨absurd rfl, absurd rfl, absurd rfl, absurd rfl, absurd rfl, fun _ => .inr ⟨c.code, hfailed⟩⟩
  · rw [regs_of_exec ht, ho]
    refine ⟨fun hne => ?x, fun hne => ?seeded, fun hne => ?raw, fun hne => ?pix, fun hne => ?mode, fun hne => ?record⟩
    all_goals by_contra hno
    case x =>
      simp only [not_or] at hno
      obtain ⟨hseed, hnext, hstep, hdraw⟩ := hno
      exact hne (effectOf_x s.regs hseed hnext hstep hdraw)
    case seeded =>
      refine hne (effectOf_seeded s.regs fun hseed => hno ⟨hseed, ?_⟩)
      exact effectOf_seeded_of_seed s.regs hseed
    case raw =>
      obtain ⟨hnext, hdraw⟩ := not_or.1 hno
      exact hne (effectOf_raw s.regs hnext hdraw)
    case pix =>
      simp only [not_or] at hno
      obtain ⟨henc, hdraw, henci⟩ := hno
      exact hne (effectOf_pix s.regs henc hdraw henci)
    case mode => exact hne (effectOf_mode s.regs hno)
    case record =>
      obtain ⟨herr, hecode⟩ := effectOf_errorRecord s.regs fun hclrerr => hno (.inl hclrerr)
      exact hne.elim (absurd herr) (absurd hecode)

/-- Settles O21: recording a second error keeps the first code, and no effect but CLRERR's writes the error record. -/
theorem firstErrorIsKeptUntilCleared : Obligations.FirstErrorIsKeptUntilCleared := by
  intro i s t herr ht
  rw [regs_of_exec ht]
  rcases outcomeOf_cases i s.regs with ⟨c, -, ho⟩ | ⟨hpass, ho⟩ <;> rw [ho]
  · exact .inl ⟨rfl, recordError_ecode_of_err c herr⟩
  · by_cases hi : i.opcode = 0x08
    · obtain rfl := eq_clrerr_of_passed hi hpass
      exact .inr ⟨rfl, rfl, rfl⟩
    · obtain ⟨hkeepErr, hkeepCode⟩ := effectOf_errorRecord s.regs hi
      exact .inl ⟨hkeepErr.trans herr, hkeepCode⟩

/-- Settles O23: no error record touches ZS, and no effect but SEED's does, as mix keeps zero and non-zero apart. -/
theorem onlySeedChangesZeroState : Obligations.OnlySeedChangesZeroState := by
  intro i s t hi ht
  rw [regs_of_exec ht]
  rcases outcomeOf_cases i s.regs with ⟨c, -, ho⟩ | ⟨-, ho⟩ <;> rw [ho]
  · exact recordError_zs s.regs c
  · exact effectOf_zs s.regs hi

/-- Settles O28: RDREG 3 always passes its checks and answers the STATUS word. -/
theorem statusWordLayout : Obligations.StatusWordLayout := by
  intro s t ht
  have hpass : failedCheck (.rdreg 0 3) s.regs = none := (failedCheck_eq_none_iff _ _).2 ⟨rfl, rfl, nofun⟩
  have ho : outcomeOf (.rdreg 0 3) s.regs = (s.regs, s.regs.status) := outcomeOf_of_passed hpass
  have hresp := resp_of_exec ht
  have hregs := regs_of_exec ht
  rw [ho] at hresp hregs
  obtain ⟨hmode, hseeded, hzs, herr⟩ := status_flags s.regs
  exact ⟨_, hresp, hregs, hmode, hseeded, hzs, herr, extractLsb'_status_ecode _, extractLsb'_status_top _⟩

/-- Settles O30: a unit that State.reset does not list is as reset leaves it, and its port is idle. -/
theorem resetLeavesTheListedValues : Obligations.ResetLeavesTheListedValues := by
  intro k
  have hbusy : State.reset.busy k = false := (not_busy_iff State.reset k).2 (by rw [reset_port]; rfl)
  rw [reset_unit]
  exact ⟨rfl, rfl, rfl, rfl, rfl, rfl, rfl, by decide, hbusy⟩

end Sys2Proof.Machine

namespace Sys2Proof.Machine

/-! ## Registers stay sound: what each command keeps of `UnitState.sound` -/

/-- A packed pixel has no bit above its three channels (10_state.md R25). -/
theorem packPixel_top (r g b : Byte) : (packPixel r g b).extractLsb' 24 8 = 0 := by
  refine BitVec.eq_of_getLsbD_eq fun j _ => ?_
  have hbit : (b ++ g ++ r).getLsbD (24 + j) = false := BitVec.getLsbD_of_ge _ _ (Nat.le_add_right 24 j)
  simp only [packPixel, BitVec.getLsbD_extractLsb', BitVec.getLsbD_setWidth, hbit, Bool.and_false]
  exact BitVec.getLsbD_zero.symm

/-- Every encoded pixel has PIX[31:24] = 0 (41_encoder.md R101 (d)). -/
theorem pixelEncode_top (v : Word) (m : Mode) : (pixelEncode v m).extractLsb' 24 8 = 0 := by
  cases m with
  | grayscale => exact packPixel_top ..
  | colorful => exact packPixel_top ..

theorem reset_sound : UnitState.reset.sound := ⟨by decide, by decide, by decide, fun _ => rfl⟩

/-- Every error has a code from 1 to 3 (60_exceptions.md R170). -/
theorem code_legal (c : ErrorCode) : c.code ≠ 0 ∧ c.code.toNat ≤ 3 := by
  cases c <;> decide

/-- Recording an error keeps a unit sound: the code it writes, or the one it keeps, is legal and not NONE. -/
theorem recordError_sound {u : UnitState} (c : ErrorCode) (h : u.sound) : (u.recordError c).sound := by
  obtain ⟨hpix, hlegal, herr, hraw⟩ := h
  obtain ⟨hcode, hcodeLegal⟩ := code_legal c
  have hecode : (u.recordError c).ecode ≠ 0 ∧ (u.recordError c).ecode.toNat ≤ 3 := by
    cases he : u.err with
    | true =>
      rw [recordError_ecode_of_err c he]
      exact ⟨fun h0 => absurd (he.symm.trans (herr.2 h0)) (by decide), hlegal⟩
    | false => simpa [UnitState.recordError, he] using And.intro hcode hcodeLegal
  exact ⟨hpix, hecode.2, ⟨nofun, fun h0 => absurd h0 hecode.1⟩, hraw⟩

/-- An effect whose checks have passed keeps a unit sound: a pixel is an encoded one, and a draw found the unit
seeded. -/
theorem effectOf_sound {i : Instr} {u : UnitState} (hpass : failedCheck i u = none) (h : u.sound) :
    (effectOf i u).1.sound := by
  obtain ⟨hpix, hlegal, herr, hraw⟩ := h
  obtain ⟨-, -, hneeds⟩ := (failedCheck_eq_none_iff i u).1 hpass
  have drawn : ∀ {p : Prop}, needsSeeded i = true → u.seeded = false → p :=
    fun hn hu => absurd ((hneeds hn).symm.trans hu) (by decide)
  cases i with
  | nop | step | setmode | rdreg => exact ⟨hpix, hlegal, herr, hraw⟩
  | seed => exact ⟨hpix, hlegal, herr, nofun⟩
  | next => exact ⟨hpix, hlegal, herr, drawn rfl⟩
  | enc | enci => exact ⟨pixelEncode_top .., hlegal, herr, hraw⟩
  | draw => exact ⟨pixelEncode_top .., hlegal, herr, drawn rfl⟩
  | clrerr => exact ⟨hpix, Nat.zero_le 3, ⟨fun _ => rfl, fun _ => rfl⟩, hraw⟩

theorem outcomeOf_sound (i : Instr) {u : UnitState} (h : u.sound) : (outcomeOf i u).1.sound := by
  rcases outcomeOf_cases i u with ⟨c, -, ho⟩ | ⟨hpass, ho⟩ <;> rw [ho]
  · exact recordError_sound c h
  · exact effectOf_sound hpass h

/-- Performing any word commits registers that are sound again. -/
theorem performWord_commits_sound (w : CommandWord) {s : State} (h : s.regs.sound) :
    ∃ e, performWord w s = .next (s.commit e) ∧ e.1.sound := by
  rcases performWord_cases w s with ⟨i, -, hw⟩ | ⟨op, -, hw⟩
  · exact ⟨_, hw.trans (exec_eq_commit_outcomeOf i s), outcomeOf_sound i h⟩
  · rw [State.raiseError_eq_commit] at hw
    exact ⟨_, hw, recordError_sound _ h⟩

/-! ## The two halves of the invariant

Commands and resets change units and ports only; host actions change host memory, the draws and the buffers only. -/

/-- The part of `State.Inv` that speaks of units and ports. -/
structure State.UnitInv (s : State) : Prop where
  unitsSound : ∀ k, (s.unit k).sound
  portsSound : ∀ k, (s.port k).sound
  unitsCanonical : sparseCanonical UnitState.reset s.units = true
  portsCanonical : sparseCanonical Port.idle s.ports = true
  busyExists : ∀ k, s.busy k = true → unitExists k = true
  activeExists : unitExists s.active = true

/-- The part of `State.Inv` that speaks of the host: its memory, its draws and its buffers. -/
structure State.HostInv (s : State) : Prop where
  memoryWf : Memory.wf s.hostMem = true
  drawsRising : sparseRising s.hostDraws = true
  buffersHeld : ∀ b ∈ s.buffers, s.HoldsBuffer b
  buffersApart : s.buffers.Pairwise fun b c => b.meets c = false
  unwrittenZero : ∀ b ∈ s.buffer, ∀ slot ch, b.holdsSlot slot = true → slot ∉ b.written → ch < 3 →
    s.memRead (b.slotAddress slot + ch) = some 0
  handedOffComplete : ∀ b ∈ s.handedOff, ∀ slot, b.holdsSlot slot = true → slot ∈ b.written

/-- The invariant is its two halves. -/
theorem State.inv_iff (s : State) : s.Inv ↔ s.UnitInv ∧ s.HostInv :=
  ⟨fun h => ⟨⟨h.unitsSound, h.portsSound, h.unitsCanonical, h.portsCanonical, h.busyExists, h.activeExists⟩,
      ⟨h.memoryWf, h.drawsRising, h.buffersHeld, h.buffersApart, h.unwrittenZero, h.handedOffComplete⟩⟩,
    fun ⟨hu, hh⟩ => ⟨hu.unitsSound, hu.portsSound, hu.unitsCanonical, hu.portsCanonical, hh.memoryWf, hh.drawsRising,
      hu.busyExists, hu.activeExists, hh.buffersHeld, hh.buffersApart, hh.unwrittenZero, hh.handedOffComplete⟩⟩

section
variable {s t : State}

/-! ### Units and ports -/

/-- The unit half depends on the units, the ports and the active unit alone. -/
theorem State.UnitInv.congr (h : s.UnitInv) (hunits : t.units = s.units) (hports : t.ports = s.ports)
    (hactive : t.active = s.active) : t.UnitInv := by
  have hunit : ∀ k, t.unit k = s.unit k := fun k => by rw [State.unit, State.unit, hunits]
  have hport : ∀ k, t.port k = s.port k := fun k => by rw [State.port, State.port, hports]
  refine ⟨fun k => hunit k ▸ h.unitsSound k, fun k => hport k ▸ h.portsSound k, hunits ▸ h.unitsCanonical,
    hports ▸ h.portsCanonical, fun k hk => h.busyExists k ?_, hactive ▸ h.activeExists⟩
  rwa [State.busy, ← hport k]

theorem State.UnitInv.setUnit (h : s.UnitInv) (k : Nat) {u : UnitState} (hu : u.sound) : (s.setUnit k u).UnitInv := by
  refine ⟨fun j => ?_, h.portsSound, setUnit_canonical k u h.unitsCanonical, h.portsCanonical, h.busyExists,
    h.activeExists⟩
  by_cases hj : j = k
  · rw [hj, State.unit_setUnit_same]
    exact hu
  · rw [State.unit_setUnit_ne s k u hj]
    exact h.unitsSound j

theorem State.UnitInv.setPort (h : s.UnitInv) {k : Nat} {p : Port} (hp : p.sound)
    (hk : p.cmd.isSome = true → unitExists k = true) : (s.setPort k p).UnitInv := by
  refine ⟨h.unitsSound, fun j => ?sound, h.unitsCanonical, setPort_canonical k p h.portsCanonical, fun j hbusy => ?busy,
    h.activeExists⟩
  case sound =>
    by_cases hj : j = k
    · rw [hj, State.port_setPort_same]
      exact hp
    · rw [State.port_setPort_ne s k p hj]
      exact h.portsSound j
  case busy =>
    by_cases hj : j = k
    · rw [hj, State.busy, State.port_setPort_same] at hbusy
      exact hj ▸ hk hbusy
    · rw [State.busy, State.port_setPort_ne s k p hj] at hbusy
      exact h.busyExists j hbusy

/-- A port with nothing in flight is sound. -/
theorem Port.sound_of_idle {p : Port} (h : p.cmd = none) : p.sound := by
  simp [Port.sound, h]

/-- Setting a port on which nothing is in flight. -/
theorem State.UnitInv.setPort_idle (h : s.UnitInv) (k : Nat) {p : Port} (hp : p.cmd = none) : (s.setPort k p).UnitInv :=
  h.setPort (Port.sound_of_idle hp) (by simp [hp])

theorem State.UnitInv.takeCommand (h : s.UnitInv) {k : Nat} (hk : unitExists k = true) : (s.takeCommand k).UnitInv :=
  have hport : (s.setPort k { s.port k with cmd := none }).UnitInv := h.setPort_idle k rfl
  ⟨hport.unitsSound, hport.portsSound, hport.unitsCanonical, hport.portsCanonical, hport.busyExists, hk⟩

/-- A unit responds only once its command is off the port (70_reset_and_hazards.md R194). -/
theorem State.UnitInv.commit (h : s.UnitInv) {e : UnitState × Word} (he : e.1.sound)
    (hidle : (s.port s.active).cmd = none) : (s.commit e).UnitInv :=
  (h.setUnit s.active he).setPort_idle s.active hidle

theorem State.UnitInv.handOver (h : s.UnitInv) {k : Nat} (hk : unitExists k = true) (w : CommandWord) :
    (s.handOver k w).UnitInv :=
  h.setPort (fun _ => rfl) fun _ => hk

theorem State.UnitInv.resetUnit (h : s.UnitInv) (k : Nat) : (s.resetUnit k).UnitInv :=
  (h.setUnit k reset_sound).setPort_idle k rfl

/-! ### Host memory, draws and buffers -/

/-- A buffer stays held where no byte of it loses its value. -/
theorem State.HoldsBuffer.mono {b : Buffer} (h : s.HoldsBuffer b)
    (hread : ∀ a, (s.memRead a).isSome = true → (t.memRead a).isSome = true) : t.HoldsBuffer b :=
  ⟨fun a hlo hhi => hread a (h.readable a hlo hhi), h.writtenRising, h.writtenHeld⟩

/-- The host half depends on host memory, the draws and the buffers alone. -/
theorem State.HostInv.congr (h : s.HostInv) (hmem : t.hostMem = s.hostMem) (hdraws : t.hostDraws = s.hostDraws)
    (hbuffer : t.buffer = s.buffer) (hhanded : t.handedOff = s.handedOff) : t.HostInv := by
  have hread : ∀ a, t.memRead a = s.memRead a := fun a => by rw [State.memRead, State.memRead, hmem]
  have hbuffers : t.buffers = s.buffers := by rw [State.buffers, State.buffers, hbuffer, hhanded]
  refine ⟨hmem ▸ h.memoryWf, hdraws ▸ h.drawsRising, fun b hb => ?_, hbuffers ▸ h.buffersApart, fun b hb slot ch => ?_,
    fun b hb => ?_⟩
  · exact (h.buffersHeld b (hbuffers ▸ hb)).mono fun a ha => (hread a).symm ▸ ha
  · rw [hread]
    exact h.unwrittenZero b (hbuffer ▸ hb) slot ch
  · exact h.handedOffComplete b (hhanded ▸ hb)

/-- Allocating takes no value from any address (20_memory.md R42). -/
theorem isSome_memRead_allocateBuffer (base : Nat) (width height : Word) {a : Nat} (h : (s.memRead a).isSome = true) :
    ((s.allocateBuffer base width height).memRead a).isSome = true := by
  rw [memRead_allocateBuffer]
  split_ifs
  · rfl
  · exact h

/-- A pixel takes no value from any address (44_host_sequences.md R148). -/
theorem isSome_memRead_writePixel (addr : Nat) (p : Word) {a : Nat} (h : (s.memRead a).isSome = true) :
    ((s.writePixel addr p).memRead a).isSome = true := by
  rw [memRead_writePixel]
  split_ifs
  · rfl
  · exact h

/-- A buffer allocated beside those handed off: all its bytes are 0, and it shares none with them. -/
theorem State.HostInv.allocateBuffer (h : s.HostInv) {base : Nat} {width height : Word} (hnone : s.buffer = none)
    (happart : ∀ c ∈ s.handedOff, (newBuffer base width height).meets c = false) :
    (s.allocateBuffer base width height).HostInv := by
  have hbuffers : s.buffers = s.handedOff := by rw [State.buffers, hnone]; rfl
  have hbuffers' : (s.allocateBuffer base width height).buffers = newBuffer base width height :: s.handedOff := by
    rw [State.buffers, allocateBuffer_buffer, allocateBuffer_handedOff]; rfl
  have hzero : ∀ a, base ≤ a → a < base + 3 * pixelCount width height →
      (s.allocateBuffer base width height).memRead a = some 0 := fun a hlo hhi => by
    rw [memRead_allocateBuffer, if_pos ⟨hlo, hhi⟩]
  refine ⟨allocateBuffer_wf base width height h.memoryWf, ?draws, ?held, ?apart, ?zero, ?complete⟩
  case draws =>
    rw [allocateBuffer_hostDraws]
    exact h.drawsRising
  case held =>
    rw [hbuffers', List.forall_mem_cons]
    refine ⟨⟨fun a hlo hhi => by rw [hzero a hlo hhi]; rfl, List.Pairwise.nil, nofun⟩, fun b hb => ?_⟩
    exact (h.buffersHeld b (hbuffers ▸ hb)).mono fun a => isSome_memRead_allocateBuffer base width height
  case apart =>
    rw [hbuffers', List.pairwise_cons]
    exact ⟨happart, hbuffers ▸ h.buffersApart⟩
  case zero =>
    intro b hb slot ch hslot _ hch
    obtain rfl : newBuffer base width height = b := Option.some.inj hb
    have hend : 3 * slot + 3 ≤ 3 * pixelCount width height := (Buffer.holdsSlot_iff _ _).1 hslot
    refine hzero _ ?_ ?_ <;> simp only [Buffer.slotAddress, newBuffer] <;> omega
  case complete =>
    rw [allocateBuffer_handedOff]
    exact h.handedOffComplete

/-- A slot not yet written is written: the other slots keep their bytes, and the buffers stay where they are. -/
theorem State.HostInv.storePixel (h : s.HostInv) {b : Buffer} {slot : Nat} (p : Word) (hb : s.buffer = some b)
    (hslot : b.holdsSlot slot = true) (hnew : slot ∉ b.written) :
    ({ s.writePixel (b.slotAddress slot) p with buffer := some (b.markWritten slot) } : State).HostInv := by
  have hbuffers : s.buffers = b :: s.handedOff := by rw [State.buffers, hb]; rfl
  have hheld := h.buffersHeld
  have hpart := h.buffersApart
  rw [hbuffers, List.forall_mem_cons] at hheld
  rw [hbuffers, List.pairwise_cons] at hpart
  obtain ⟨hheldOpen, hheldOff⟩ := hheld
  have hread : ∀ a, (s.memRead a).isSome = true → ((s.writePixel (b.slotAddress slot) p).memRead a).isSome = true :=
    fun a => isSome_memRead_writePixel _ p
  refine ⟨writePixel_wf _ p h.memoryWf, h.drawsRising, ?held, ?apart, ?zero, h.handedOffComplete⟩
  case held =>
    refine List.forall_mem_cons.2 ⟨⟨fun a hlo hhi => hread a (hheldOpen.readable a hlo hhi),
      Buffer.markWritten_rising hheldOpen.writtenRising hnew, fun k hk => ?_⟩, fun c hc => (hheldOff c hc).mono hread⟩
    rcases (b.mem_markWritten slot).1 hk with rfl | hk'
    · exact hslot
    · exact hheldOpen.writtenHeld k hk'
  case apart => exact List.pairwise_cons.2 hpart
  case zero =>
    intro b' hb' k ch hk hunwritten hch
    obtain rfl : b.markWritten slot = b' := Option.some.inj hb'
    obtain ⟨hne, hunwritten'⟩ := not_or.1 (mt (b.mem_markWritten slot).2 hunwritten)
    refine (memRead_writePixel ..).trans ?_
    rw [if_neg (by simp only [Buffer.slotAddress, Buffer.markWritten_base]; omega)]
    exact h.unwrittenZero b hb k ch hk hunwritten' hch

/-- A buffer whose every slot has been written is handed off. -/
theorem State.HostInv.handOff (h : s.HostInv) {b : Buffer} {n : Nat} (hb : s.buffer = some b) (hbytes : b.bytes = 3 * n)
    (hwritten : ∀ slot < n, slot ∈ b.written) :
    ({ s with buffer := none, handedOff := b :: s.handedOff } : State).HostInv := by
  have hbuffers : s.buffers = b :: s.handedOff := by rw [State.buffers, hb]; rfl
  refine ⟨h.memoryWf, h.drawsRising, fun c hc => ?_, hbuffers ▸ h.buffersApart, nofun, ?complete⟩
  · exact (h.buffersHeld c (hbuffers.symm ▸ hc)).mono fun _ => id
  case complete =>
    refine List.forall_mem_cons.2 ⟨fun slot hslot => hwritten slot ?_, h.handedOffComplete⟩
    have hend := (b.holdsSlot_iff slot).1 hslot
    omega

theorem State.HostInv.takeDraw (h : s.HostInv) (row : Nat) (v : Word) :
    ({ s with hostMaster := v, hostDraws := sparseInsert s.hostDraws row v } : State).HostInv :=
  have hsame : ({ s with hostMaster := v } : State).HostInv := h.congr rfl rfl rfl rfl
  ⟨hsame.memoryWf, sparseRising_insert row v h.drawsRising, fun b hb => (h.buffersHeld b hb).mono fun _ => id,
    hsame.buffersApart, hsame.unwrittenZero, hsame.handedOffComplete⟩

/-! ### Each thing a step can do keeps the invariant -/

/-- A unit that completes its command: its registers stay sound, and its port is free before it answers. -/
theorem completeCommand_keeps_inv {k : Nat} (h : s.Inv) (ht : completeCommand k s = .next t) : t.Inv := by
  obtain ⟨hunits, hhost⟩ := s.inv_iff.1 h
  cases hcmd : (s.port k).cmd with
  | none =>
    rw [completeCommand_idle hcmd] at ht
    exact Host.Outcome.next.inj ht ▸ h
  | some w =>
    have hexists : unitExists k = true := hunits.busyExists k ((busy_iff s k).2 ⟨w, hcmd⟩)
    have htaken : (s.takeCommand k).UnitInv := hunits.takeCommand hexists
    obtain ⟨e, he, hsound⟩ := performWord_commits_sound w (s := s.takeCommand k) (hunits.unitsSound k)
    obtain rfl : (s.takeCommand k).commit e = t := by
      rw [completeCommand_busy hcmd, he] at ht
      exact Host.Outcome.next.inj ht
    refine (State.inv_iff _).2 ⟨htaken.commit hsound ?_, hhost.congr rfl rfl rfl rfl⟩
    rw [State.takeCommand_active, State.port_takeCommand_same]

/-- A host action leaves units and ports alone, and keeps what holds of the host's memory and buffers. -/
theorem performHostAction_keeps_inv {a : HostAction} (h : s.Inv) (ht : performHostAction a s = .next t) : t.Inv := by
  obtain ⟨hunits, hhost⟩ := s.inv_iff.1 h
  rw [State.inv_iff]
  cases a with
  | checkDimensions width height =>
    simp only [performHostAction] at ht
    split_ifs at ht
    cases ht
    exact ⟨hunits, hhost⟩
  | allocate base width height =>
    simp only [performHostAction] at ht
    rcases hostAllocate_cases base width height s with ⟨_, _, hr⟩ | ⟨_, _, hr⟩ | ⟨hnone, happart, hr⟩ <;> rw [hr] at ht
    · exact nomatch ht
    · exact nomatch ht
    · cases ht
      exact ⟨hunits.congr (allocateBuffer_units ..) (allocateBuffer_ports ..) (allocateBuffer_active ..),
        hhost.allocateBuffer hnone happart⟩
  | takeMaster k =>
    obtain ⟨v, -, rfl⟩ := hostTakeMaster_next ht
    exact ⟨hunits.congr rfl rfl rfl, hhost.congr rfl rfl rfl rfl⟩
  | takeDraw k row =>
    obtain ⟨v, -, rfl⟩ := hostTakeDraw_next ht
    exact ⟨hunits.congr rfl rfl rfl, hhost.takeDraw row v⟩
  | storePixel k slot =>
    obtain ⟨b, p, hb, hslot, hnew, -, rfl⟩ := hostStorePixel_next ht
    exact ⟨hunits.congr rfl rfl rfl, hhost.storePixel p hb hslot hnew⟩
  | handOff width height =>
    obtain ⟨b, hb, hbytes, hwritten, rfl⟩ := hostHandOff_next ht
    exact ⟨hunits.congr rfl rfl rfl, hhost.handOff hb hbytes hwritten⟩

theorem performEvent_keeps_inv {e : Event} (h : s.Inv) (ht : performEvent e s = .next t) : t.Inv := by
  obtain ⟨hunits, hhost⟩ := s.inv_iff.1 h
  cases e with
  | send k src =>
    simp only [performEvent] at ht
    split_ifs at ht with hk
    cases hw : s.resolve src with
    | none =>
      rw [hw] at ht
      exact nomatch ht
    | some w =>
      rw [hw] at ht
      cases ht
      exact (State.inv_iff _).2 ⟨hunits.handOver hk w, hhost.congr rfl rfl rfl rfl⟩
  | complete k => exact completeCommand_keeps_inv h ht
  | reset k =>
    simp only [performEvent] at ht
    split_ifs at ht
    cases ht
    exact (State.inv_iff _).2 ⟨hunits.resetUnit k, hhost.congr rfl rfl rfl rfl⟩
  | host a => exact performHostAction_keeps_inv h ht

/-- The invariant does not speak of the agenda. -/
theorem State.Inv.withAgenda (h : s.Inv) (es : List Event) : ({ s with agenda := es } : State).Inv := by
  obtain ⟨hunits, hhost⟩ := s.inv_iff.1 h
  exact (State.inv_iff _).2 ⟨hunits.congr rfl rfl rfl, hhost.congr rfl rfl rfl rfl⟩

end

/-- At reset every unit and every port is as an unlisted one, and the host holds nothing. -/
theorem reset_inv : State.reset.Inv := by
  refine (State.inv_iff _).2 ⟨⟨fun _ => reset_sound, fun _ => Port.sound_of_idle rfl, rfl, rfl, ?_, rfl⟩,
    ⟨rfl, rfl, nofun, List.Pairwise.nil, nofun, nofun⟩⟩
  exact fun _ => nofun

/-! ## The obligations of 10_state.md about the invariant -/

/-- Settles O32. -/
theorem invariantHoldsAtReset : Obligations.InvariantHoldsAtReset := reset_inv

/-- Settles O33: a step does nothing, completes a command, or lets an event happen (`step_cases`), and each keeps the
invariant. -/
theorem stepKeepsTheInvariant : Obligations.StepKeepsTheInvariant := by
  intro s t h ht
  rcases step_cases s with ⟨-, -, hs⟩ | ⟨k, -, -, hs⟩ | ⟨_, _, k, -, -, -, hs⟩ | ⟨e, rest, -, -, hs⟩
  all_goals rw [hs] at ht
  · exact Host.Outcome.next.inj ht ▸ h
  · exact completeCommand_keeps_inv h ht
  · exact completeCommand_keeps_inv h ht
  · exact performEvent_keeps_inv (h.withAgenda rest) ht

end Sys2Proof.Machine

namespace Sys2Proof.Machine

/-! ## What completing a command does

A completion depends on the unit's own registers and port, and changes nothing else: each register, port and host field
after it is said once here. -/

/-- Nothing of the host's has changed: its agenda, its memory, its variables and its buffers. -/
structure HostUnchanged (s t : State) : Prop where
  agenda : t.agenda = s.agenda
  hostMem : t.hostMem = s.hostMem
  hostMaster : t.hostMaster = s.hostMaster
  hostDraws : t.hostDraws = s.hostDraws
  buffer : t.buffer = s.buffer
  handedOff : t.handedOff = s.handedOff

section
variable {s t u : State}

theorem HostUnchanged.refl (s : State) : HostUnchanged s s := ⟨rfl, rfl, rfl, rfl, rfl, rfl⟩

theorem HostUnchanged.symm (h : HostUnchanged s t) : HostUnchanged t s :=
  ⟨h.agenda.symm, h.hostMem.symm, h.hostMaster.symm, h.hostDraws.symm, h.buffer.symm, h.handedOff.symm⟩

theorem HostUnchanged.trans (h : HostUnchanged s t) (h' : HostUnchanged t u) : HostUnchanged s u :=
  ⟨h'.agenda.trans h.agenda, h'.hostMem.trans h.hostMem, h'.hostMaster.trans h.hostMaster,
    h'.hostDraws.trans h.hostDraws, h'.buffer.trans h.buffer, h'.handedOff.trans h.handedOff⟩

theorem HostUnchanged.memRead (h : HostUnchanged s t) (a : Nat) : t.memRead a = s.memRead a := by
  rw [State.memRead, State.memRead, h.hostMem]

end

/-- The registers and the response that performing a word leaves, legal or not (30_encoding.md R65, 60_exceptions.md
R171). -/
def wordOutcome (w : CommandWord) (u : UnitState) : UnitState × Word :=
  match decode w with
  | .command i => outcomeOf i u
  | .illegalOpcode _ => (u.recordError .illegalOpcode, 0)

/-- Every word commits its outcome. -/
theorem performWord_eq_commit_wordOutcome (w : CommandWord) (s : State) :
    performWord w s = .next (s.commit (wordOutcome w s.regs)) := by
  unfold performWord wordOutcome
  cases decode w with
  | command i => exact exec_eq_commit_outcomeOf i s
  | illegalOpcode op => rfl

/-- A unit's registers and port once the command in flight, if there is one, has completed. -/
def afterCompletion (u : UnitState) (p : Port) : UnitState × Port :=
  match p.cmd with
  | some w => ((wordOutcome w u).1, { cmd := none, resp := some (wordOutcome w u).2 })
  | none => (u, p)

/-- From `s` unit `k` has completed what was in flight on its port, and nothing else has changed but which unit is the
active one. -/
structure CompletedAt (k : Nat) (s t : State) : Prop where
  regsPort : (t.unit k, t.port k) = afterCompletion (s.unit k) (s.port k)
  others : ∀ j, j ≠ k → t.unit j = s.unit j ∧ t.port j = s.port j
  host : HostUnchanged s t

/-- A completion never stops (60_exceptions.md R172), and is `CompletedAt`. -/
theorem completeCommand_completes (k : Nat) (s : State) : ∃ t, completeCommand k s = .next t ∧ CompletedAt k s t := by
  cases hcmd : (s.port k).cmd with
  | none =>
    exact ⟨s, completeCommand_idle hcmd, by simp [afterCompletion, hcmd], fun j _ => ⟨rfl, rfl⟩, .refl s⟩
  | some w =>
    refine ⟨(s.takeCommand k).commit (wordOutcome w (s.unit k)), ?_, ?regsPort, fun j hj => ⟨?unit, ?port⟩,
      ⟨rfl, rfl, rfl, rfl, rfl, rfl⟩⟩
    · rw [completeCommand_busy hcmd, performWord_eq_commit_wordOutcome, State.takeCommand_regs]
    case regsPort =>
      have hunit := State.commit_regs (s.takeCommand k) (wordOutcome w (s.unit k))
      have hport := State.port_commit_same (s.takeCommand k) (wordOutcome w (s.unit k))
      rw [State.takeCommand_active, State.port_takeCommand_same] at hport
      rw [State.regs, State.commit_active, State.takeCommand_active] at hunit
      rw [hunit, hport, afterCompletion, hcmd]
    case unit => rw [State.unit_commit_ne _ _ hj, State.takeCommand_unit]
    case port => rw [State.port_commit_ne _ _ hj, State.port_takeCommand_ne s k hj]

theorem completedAt_of_next {k : Nat} {s t : State} (h : completeCommand k s = .next t) : CompletedAt k s t := by
  obtain ⟨t', ht', hcompleted⟩ := completeCommand_completes k s
  exact Host.Outcome.next.inj (ht'.symm.trans h) ▸ hcompleted

/-- After completions at `j` and then at `k`, each of the two units is as its own completion leaves it from the start,
and every other unit is as it was (20_memory.md R51). -/
theorem CompletedAt.pair {j k : Nat} {s a b : State} (hjk : j ≠ k) (hj : CompletedAt j s a) (hk : CompletedAt k a b)
    (m : Nat) : (b.unit m, b.port m) =
      if m = j ∨ m = k then afterCompletion (s.unit m) (s.port m) else (s.unit m, s.port m) := by
  by_cases hmk : m = k
  · subst hmk
    obtain ⟨hunit, hport⟩ := hj.others m hjk.symm
    rw [hk.regsPort, hunit, hport, if_pos (.inr rfl)]
  · obtain ⟨hunit, hport⟩ := hk.others m hmk
    rw [hunit, hport]
    by_cases hmj : m = j
    · subst hmj
      rw [hj.regsPort, if_pos (.inl rfl)]
    · obtain ⟨hunit', hport'⟩ := hj.others m hmj
      rw [hunit', hport', if_neg (not_or.2 ⟨hmj, hmk⟩)]

/-! ## Written pixels stay (20_memory.md R42, 44_host_sequences.md R152) -/

/-- From `s` to `t` every buffer handed off stays so, byte for byte; and the buffer being filled is still there, open or
handed off, with its written slots and their bytes. -/
structure PixelsKept (s t : State) : Prop where
  handedOff : ∀ b ∈ s.handedOff, b ∈ t.handedOff ∧
    ∀ a, b.base ≤ a → a < b.base + b.bytes → t.memRead a = s.memRead a
  filling : ∀ b, s.buffer = some b → ∃ b', (t.buffer = some b' ∧ t.handedOff = s.handedOff ∨
      t.buffer = none ∧ t.handedOff = b' :: s.handedOff) ∧
    b'.base = b.base ∧ b'.bytes = b.bytes ∧ ∀ slot ∈ b.written, slot ∈ b'.written ∧
      ∀ ch, ch < 3 → t.memRead (b.slotAddress slot + ch) = s.memRead (b.slotAddress slot + ch)

section
variable {s t : State}

/-- Whatever touches neither host memory nor buffers keeps the pixels. -/
theorem PixelsKept.of_unchanged (hmem : t.hostMem = s.hostMem) (hbuffer : t.buffer = s.buffer)
    (hhanded : t.handedOff = s.handedOff) : PixelsKept s t := by
  have hread : ∀ a, t.memRead a = s.memRead a := fun a => by rw [State.memRead, State.memRead, hmem]
  exact ⟨fun b hb => ⟨hhanded ▸ hb, fun a _ _ => hread a⟩,
    fun b hb => ⟨b, .inl ⟨hbuffer.trans hb, hhanded⟩, rfl, rfl, fun slot hslot => ⟨hslot, fun ch _ => hread _⟩⟩⟩

theorem HostUnchanged.pixelsKept (h : HostUnchanged s t) : PixelsKept s t :=
  .of_unchanged h.hostMem h.buffer h.handedOff

/-- An allocation with no open buffer and beside those handed off. -/
theorem PixelsKept.allocateBuffer {base : Nat} {width height : Word} (hnone : s.buffer = none)
    (happart : ∀ c ∈ s.handedOff, (newBuffer base width height).meets c = false) :
    PixelsKept s (s.allocateBuffer base width height) := by
  refine ⟨fun c hc => ⟨(allocateBuffer_handedOff s base width height).symm ▸ hc, fun a hlo hhi => ?_⟩,
    fun b hb => nomatch hnone.symm.trans hb⟩
  have houtside : ¬ (base ≤ a ∧ a < base + 3 * pixelCount width height) := fun hin =>
    Buffer.not_both_of_meets_eq_false (happart c hc) hin ⟨hlo, hhi⟩
  rw [memRead_allocateBuffer, if_neg houtside]

/-- A pixel in a slot of the open buffer not written before: that slot's bytes lie in no other slot, and in no buffer
handed off. -/
theorem PixelsKept.storePixel (h : s.HostInv) {b : Buffer} {slot : Nat} (p : Word) (hb : s.buffer = some b)
    (hslot : b.holdsSlot slot = true) (hnew : slot ∉ b.written) :
    PixelsKept s { s.writePixel (b.slotAddress slot) p with buffer := some (b.markWritten slot) } := by
  have hbuffers : s.buffers = b :: s.handedOff := by rw [State.buffers, hb]; rfl
  have happart := h.buffersApart
  rw [hbuffers, List.pairwise_cons] at happart
  have hend := (b.holdsSlot_iff slot).1 hslot
  have hread : ∀ a, ¬ (b.slotAddress slot ≤ a ∧ a < b.slotAddress slot + 3) →
      (s.writePixel (b.slotAddress slot) p).memRead a = s.memRead a := fun a ha => by
    rw [memRead_writePixel, if_neg ha]
  refine ⟨fun c hc => ⟨hc, fun a hlo hhi => hread a fun hin => ?handedOff⟩, fun b' hb' => ?filling⟩
  case handedOff =>
    refine Buffer.not_both_of_meets_eq_false (happart.1 c hc) (a := a) ?_ ⟨hlo, hhi⟩
    simp only [Buffer.slotAddress] at hin
    omega
  case filling =>
    obtain rfl : b = b' := Option.some.inj (hb.symm.trans hb')
    refine ⟨b.markWritten slot, .inl ⟨rfl, rfl⟩, rfl, rfl, fun k hk =>
      ⟨(b.mem_markWritten slot).2 (.inr hk), fun ch hch => hread _ ?_⟩⟩
    have hne : k ≠ slot := fun heq => hnew (heq ▸ hk)
    simp only [Buffer.slotAddress]
    omega

/-- A hand-off moves the open buffer and writes no byte. -/
theorem PixelsKept.handOff {b : Buffer} (hb : s.buffer = some b) :
    PixelsKept s { s with buffer := none, handedOff := b :: s.handedOff } := by
  refine ⟨fun c hc => ⟨List.mem_cons_of_mem b hc, fun _ _ _ => rfl⟩, fun b' hb' => ?_⟩
  obtain rfl : b = b' := Option.some.inj (hb.symm.trans hb')
  exact ⟨b, .inr ⟨rfl, rfl⟩, rfl, rfl, fun slot hslot => ⟨hslot, fun _ _ => rfl⟩⟩

theorem completeCommand_keeps_pixels {k : Nat} (ht : completeCommand k s = .next t) : PixelsKept s t :=
  (completedAt_of_next ht).host.pixelsKept

theorem performHostAction_keeps_pixels {a : HostAction} (h : s.HostInv) (ht : performHostAction a s = .next t) :
    PixelsKept s t := by
  cases a with
  | checkDimensions width height =>
    simp only [performHostAction] at ht
    split_ifs at ht
    cases ht
    exact .of_unchanged rfl rfl rfl
  | allocate base width height =>
    simp only [performHostAction] at ht
    rcases hostAllocate_cases base width height s with ⟨_, _, hr⟩ | ⟨_, _, hr⟩ | ⟨hnone, happart, hr⟩ <;> rw [hr] at ht
    · exact nomatch ht
    · exact nomatch ht
    · cases ht
      exact .allocateBuffer hnone happart
  | takeMaster k =>
    obtain ⟨v, -, rfl⟩ := hostTakeMaster_next ht
    exact .of_unchanged rfl rfl rfl
  | takeDraw k row =>
    obtain ⟨v, -, rfl⟩ := hostTakeDraw_next ht
    exact .of_unchanged rfl rfl rfl
  | storePixel k slot =>
    obtain ⟨b, p, hb, hslot, hnew, -, rfl⟩ := hostStorePixel_next ht
    exact .storePixel h p hb hslot hnew
  | handOff width height =>
    obtain ⟨b, hb, -, -, rfl⟩ := hostHandOff_next ht
    exact .handOff hb

theorem performEvent_keeps_pixels {e : Event} (h : s.HostInv) (ht : performEvent e s = .next t) : PixelsKept s t := by
  cases e with
  | send k src =>
    simp only [performEvent] at ht
    split_ifs at ht
    cases hw : s.resolve src with
    | none =>
      rw [hw] at ht
      exact nomatch ht
    | some w =>
      rw [hw] at ht
      cases ht
      exact .of_unchanged rfl rfl rfl
  | complete k => exact completeCommand_keeps_pixels ht
  | reset k =>
    simp only [performEvent] at ht
    split_ifs at ht
    cases ht
    exact .of_unchanged rfl rfl rfl
  | host a => exact performHostAction_keeps_pixels h ht

/-- The agenda holds no pixel. -/
theorem PixelsKept.of_withAgenda {es : List Event} (h : PixelsKept { s with agenda := es } t) : PixelsKept s t :=
  ⟨h.handedOff, h.filling⟩

end

/-- A step does nothing, completes a command, or lets an event happen (`step_cases`). -/
theorem step_keeps_pixels {s t : State} (h : s.Inv) (ht : step s = .next t) : PixelsKept s t := by
  rcases step_cases s with ⟨-, -, hs⟩ | ⟨k, -, -, hs⟩ | ⟨_, _, k, -, -, -, hs⟩ | ⟨e, rest, -, -, hs⟩
  all_goals rw [hs] at ht
  · exact Host.Outcome.next.inj ht ▸ .of_unchanged rfl rfl rfl
  · exact completeCommand_keeps_pixels ht
  · exact completeCommand_keeps_pixels ht
  · obtain ⟨-, hhost⟩ := (State.inv_iff _).1 (h.withAgenda rest)
    exact (performEvent_keeps_pixels hhost ht).of_withAgenda

/-! ## Performing a command twice (20_memory.md R47) -/

/-- A second failure finds ERR set, so ECODE stays (10_state.md R28). -/
theorem recordError_recordError (u : UnitState) (c : ErrorCode) :
    (u.recordError c).recordError c = u.recordError c := by
  simp [UnitState.recordError]

/-- An effect never makes a unit unseeded, so a command that passed its checks passes them again. -/
theorem failedCheck_effectOf {i : Instr} {u : UnitState} (hpass : failedCheck i u = none) :
    failedCheck i (effectOf i u).1 = none := by
  obtain ⟨hrsv, himm, hneeds⟩ := (failedCheck_eq_none_iff i u).1 hpass
  refine (failedCheck_eq_none_iff i _).2 ⟨hrsv, himm, fun hn => ?_⟩
  by_cases hseed : i.opcode = 0x01
  · exact effectOf_seeded_of_seed u hseed
  · rw [effectOf_seeded u hseed]
    exact hneeds hn

/-- The effect of every command but NEXT, DRAW and STEP of a count above 0 is idempotent on the registers. -/
theorem effectOf_effectOf {i : Instr} (u : UnitState) (hnext : i.opcode ≠ 0x02) (hdraw : i.opcode ≠ 0x06)
    (hstep : i.opcode = 0x03 → i.imm = 0) : (effectOf i (effectOf i u).1).1 = (effectOf i u).1 := by
  cases i with
  | next => exact absurd rfl hnext
  | draw => exact absurd rfl hdraw
  | step rsv imm =>
    obtain rfl : imm = 0 := hstep rfl
    rfl
  | nop | seed | setmode | enc | enci | clrerr | rdreg => rfl

/-! ## What the host's actions are refused for (20_memory.md R42, 44_host_sequences.md R147, R152) -/

section
variable {s : State} {b : Buffer} {k slot : Nat}

theorem hostStorePixel_outsideBuffer (hb : s.buffer = some b) (hslot : b.holdsSlot slot = false) :
    hostStorePixel k slot s = .refused (.nonconformingHost .outsideBuffer) := by
  simp [hostStorePixel, hb, hslot]

theorem hostStorePixel_slotWrittenTwice (hb : s.buffer = some b) (hslot : b.holdsSlot slot = true)
    (hwritten : slot ∈ b.written) : hostStorePixel k slot s = .refused (.nonconformingHost .slotWrittenTwice) := by
  simp [hostStorePixel, hb, hslot, hwritten]

theorem hostStorePixel_missingBuffer (hb : s.buffer = none) :
    hostStorePixel k slot s = .refused (.nonconformingHost s.missingBuffer) := by
  simp [hostStorePixel, hb]

theorem hostHandOff_missingBuffer (width height : Word) (hb : s.buffer = none) :
    hostHandOff width height s = .refused (.nonconformingHost s.missingBuffer) := by
  simp [hostHandOff, hb]

theorem missingBuffer_eq (s : State) : s.missingBuffer = if s.handedOff = [] then .noBuffer else .afterHandOff := by
  simp [State.missingBuffer]

theorem hostAllocate_reallocation (base : Nat) (width height : Word) (hb : s.buffer = some b) :
    hostAllocate base width height s = .refused (.nonconformingHost .reallocation) := by
  simp [hostAllocate, hb]

/-- An allocation that would share a byte `a` with a buffer handed off. -/
theorem hostAllocate_afterHandOff {base a : Nat} {width height : Word} (hnone : s.buffer = none) (hb : b ∈ s.handedOff)
    (hin : b.base ≤ a ∧ a < b.base + b.bytes) (hnew : base ≤ a ∧ a < base + 3 * pixelCount width height) :
    hostAllocate base width height s = .refused (.nonconformingHost .afterHandOff) := by
  rcases hostAllocate_cases base width height s with ⟨c, hc, -⟩ | ⟨-, -, hr⟩ | ⟨-, happart, -⟩
  · exact nomatch hnone.symm.trans hc
  · exact hr
  · exact absurd hin (Buffer.not_both_of_meets_eq_false (happart b hb) hnew)

/-- An allocation that meets no buffer goes on. -/
theorem hostAllocate_of_readyFor {base : Nat} {width height : Word} (h : s.readyFor (newBuffer base width height)) :
    hostAllocate base width height s = .next (s.allocateBuffer base width height) := by
  obtain ⟨hnone, happart⟩ := h
  rcases hostAllocate_cases base width height s with ⟨c, hc, -⟩ | ⟨-, ⟨c, hc, hmeets⟩, -⟩ | ⟨-, -, hr⟩
  · exact nomatch hnone.symm.trans hc
  · exact nomatch hmeets.symm.trans (happart c hc)
  · exact hr

end

/-! ## The obligations of 20_memory.md -/

/-- Settles O53. -/
theorem writtenPixelsAreNeverOverwritten : Obligations.WrittenPixelsAreNeverOverwritten := fun _ _ h ht =>
  have hkept := step_keeps_pixels h ht
  ⟨hkept.handedOff, hkept.filling⟩

/-- Settles O29: a command that failed a check fails it again, and one that passed passes again. -/
theorem repeatingAnIdempotentCommand : Obligations.RepeatingAnIdempotentCommand := by
  intro i s t u hnext hdraw hstep ht hu
  rw [regs_of_exec hu, regs_of_exec ht]
  rcases outcomeOf_cases i s.regs with ⟨c, hfail, ho⟩ | ⟨hpass, ho⟩ <;> rw [ho]
  · have hagain : failedCheck i (s.regs.recordError c) = some c := (failedCheck_congr i rfl).trans hfail
    rw [outcomeOf_of_failed hagain]
    exact recordError_recordError s.regs c
  · rw [outcomeOf_of_passed (failedCheck_effectOf hpass)]
    exact effectOf_effectOf s.regs hnext hdraw hstep

/-- Settles O37: by `CompletedAt.pair` both orders leave each unit and port as the same function of the start. -/
theorem commandsOfDifferentUnitsCommute : Obligations.CommandsOfDifferentUnitsCommute := by
  intro s j k hjk
  obtain ⟨a, ha, hja⟩ := completeCommand_completes j s
  obtain ⟨b, hb, hkb⟩ := completeCommand_completes k a
  obtain ⟨c, hc, hkc⟩ := completeCommand_completes k s
  obtain ⟨d, hd, hjd⟩ := completeCommand_completes j c
  have hhost : HostUnchanged d b := (hkc.host.trans hjd.host).symm.trans (hja.host.trans hkb.host)
  refine ⟨a, b, c, d, ha, hb, hc, hd, fun m => Prod.mk.inj ?_, hhost.memRead, hhost.agenda, hhost.hostMaster,
    hhost.hostDraws, hhost.buffer, hhost.handedOff⟩
  rw [hja.pair hjk hkb, hkc.pair hjk.symm hjd]
  exact if_congr or_comm rfl rfl

/-- Settles O39: an allocation awaits nothing, and `memRead_allocateBuffer` says every byte after it. -/
theorem allocatedBufferIsZero : Obligations.AllocatedBufferIsZero := by
  intro s base width height rest ha hready
  have hread := memRead_allocateBuffer { s with agenda := rest } base width height
  refine ⟨({ s with agenda := rest } : State).allocateBuffer base width height, ?step, by simp, rfl,
    fun a hlo hhi => (hread a).trans (if_pos ⟨hlo, hhi⟩), fun a hout => (hread a).trans (if_neg ?outside),
    fun k => by simp, by simp, by simp, by simp⟩
  case step => exact (step_of_awaits_none ha rfl).trans (hostAllocate_of_readyFor hready)
  case outside =>
    rw [pixelCount]
    omega

/-- Settles O54: each event happens at once, and is refused by the lemma named after its breach. -/
theorem hostBreachesAreRefused : Obligations.HostBreachesAreRefused := by
  refine fun s rest => ⟨fun k slot b ha hidle hb => ⟨fun hout => ?outside, fun hin hwritten => ?twice⟩,
    fun base width height ha => ⟨fun b hb => ?mid, fun b hb a hnone hlo hhi hlo' hhi' => ?overlap⟩,
    fun hnone hev => ?missing⟩
  case outside =>
    refine (step_of_awaits_idle ha rfl hidle).trans (hostStorePixel_outsideBuffer hb ?_)
    rw [← Bool.not_eq_true, b.holdsSlot_iff]
    omega
  case twice =>
    exact (step_of_awaits_idle ha rfl hidle).trans
      (hostStorePixel_slotWrittenTwice hb ((b.holdsSlot_iff slot).2 hin) hwritten)
  case mid => exact (step_of_awaits_none ha rfl).trans (hostAllocate_reallocation base width height hb)
  case overlap =>
    exact (step_of_awaits_none ha rfl).trans (hostAllocate_afterHandOff hnone hb ⟨hlo, hhi⟩ ⟨hlo', hhi'⟩)
  case missing =>
    rw [← missingBuffer_eq]
    rcases hev with ⟨k, slot, ha, hidle⟩ | ⟨width, height, ha⟩
    · exact (step_of_awaits_idle ha rfl hidle).trans (hostStorePixel_missingBuffer hnone)
    · exact (step_of_awaits_none ha rfl).trans (hostHandOff_missingBuffer width height hnone)

end Sys2Proof.Machine

namespace Sys2Proof.Machine

/-! ## The decoder and the encoder (30_encoding.md R60, R64, R65)

`decode_cases` says once what the decoder can answer; which words are illegal, and that a command's word is its encoding,
follow from it and from the laws of the fields. -/

/-- Every command's word holds its fields and matches its row (the family `Laws.EncodeFields`). -/
theorem encode_fields (i : Instr) : Laws.EncodeFields.Statement i := by
  cases i with
  | nop rsv imm => exact Laws.EncodeFields.nop rsv imm
  | seed rsv imm => exact Laws.EncodeFields.seed rsv imm
  | next rsv imm => exact Laws.EncodeFields.next rsv imm
  | step rsv imm => exact Laws.EncodeFields.step rsv imm
  | setmode rsv imm => exact Laws.EncodeFields.setmode rsv imm
  | enc rsv imm => exact Laws.EncodeFields.enc rsv imm
  | draw rsv imm => exact Laws.EncodeFields.draw rsv imm
  | enci rsv imm => exact Laws.EncodeFields.enci rsv imm
  | clrerr rsv imm => exact Laws.EncodeFields.clrerr rsv imm
  | rdreg rsv imm => exact Laws.EncodeFields.rdreg rsv imm

/-- The command carries the three fields of the word (30_encoding.md R60, R65). -/
structure HasFieldsOf (i : Instr) (w : CommandWord) : Prop where
  rsv : i.rsv = rsvField w
  opcode : i.opcode = opField w
  imm : i.imm = immField w

/-- A word with a command's fields is that command's word. -/
theorem HasFieldsOf.eq_encode {i : Instr} {w : CommandWord} (h : HasFieldsOf i w) : w = encode i := by
  rw [encode, h.rsv, h.opcode, h.imm, Laws.EncodeFields.commandWord_of_fields]

/-- All the decoder can answer: OP is at most 9 and the answer is the command with the word's fields, or OP is above 9
and the word is an illegal opcode (30_encoding.md R65, R66). -/
theorem decode_cases (w : CommandWord) :
    (∃ i, decode w = .command i ∧ (opField w).toNat ≤ 9 ∧ HasFieldsOf i w) ∨
    (decode w = .illegalOpcode (opField w) ∧ 9 < (opField w).toNat) := by
  unfold decode
  split
  case h_11 => exact .inr ⟨rfl, by grind⟩
  all_goals next hop => exact .inl ⟨_, rfl, by omega, rfl, BitVec.eq_of_toNat_eq hop.symm, rfl⟩

/-- The decoder reads back every command, whatever its RSV and IMM. -/
theorem decode_encode (i : Instr) : decode (encode i) = .command i := by
  obtain ⟨hrsv, hop, himm, -⟩ := encode_fields i
  rw [decode, hrsv, hop, himm]
  cases i <;> rfl

theorem hasFieldsOf_of_decode {w : CommandWord} {i : Instr} (h : decode w = .command i) : HasFieldsOf i w := by
  rcases decode_cases w with ⟨j, hj, -, hfields⟩ | ⟨hill, -⟩
  · exact Decoded.command.inj (hj.symm.trans h) ▸ hfields
  · exact nomatch hill.symm.trans h

theorem decode_eq_illegalOpcode_iff (w : CommandWord) :
    decode w = .illegalOpcode (opField w) ↔ 9 < (opField w).toNat := by
  rcases decode_cases w with ⟨i, hi, hle, -⟩ | ⟨hill, hlt⟩
  · exact iff_of_false (fun h => nomatch hi.symm.trans h) (Nat.not_lt.2 hle)
  · exact iff_of_true hill hlt

theorem decode_eq_command_iff (w : CommandWord) : (∃ i, decode w = .command i) ↔ (opField w).toNat ≤ 9 := by
  rcases decode_cases w with ⟨i, hi, hle, -⟩ | ⟨hill, hlt⟩
  · exact iff_of_true ⟨i, hi⟩ hle
  · exact iff_of_false (fun ⟨i, hi⟩ => nomatch hill.symm.trans hi) (Nat.not_le.2 hlt)

/-! ## The response to a word that records an error (60_exceptions.md R172) -/

/-- From ERR = 0, no effect sets ERR. -/
theorem effectOf_err_of_clear (i : Instr) {u : UnitState} (hu : u.err = false) : (effectOf i u).1.err = false := by
  by_cases hi : i.opcode = 0x08
  · cases i with
    | clrerr => rfl
    | _ => exact absurd hi (by simp [Instr.opcode])
  · exact (effectOf_errorRecord u hi).1.trans hu

theorem outcomeOf_response_of_newError {i : Instr} {u : UnitState} (hu : u.err = false)
    (hnew : (outcomeOf i u).1.err = true) : (outcomeOf i u).2 = 0 := by
  rcases outcomeOf_cases i u with ⟨c, -, ho⟩ | ⟨-, ho⟩
  · rw [ho]
  · rw [ho, effectOf_err_of_clear i hu] at hnew
    exact nomatch hnew

theorem wordOutcome_response_of_newError {w : CommandWord} {u : UnitState} (hu : u.err = false)
    (hnew : (wordOutcome w u).1.err = true) : (wordOutcome w u).2 = 0 := by
  unfold wordOutcome at hnew ⊢
  cases hw : decode w with
  | command i =>
    rw [hw] at hnew
    exact outcomeOf_response_of_newError hu hnew
  | illegalOpcode op => rfl

/-! ## What the assembler emits (30_encoding.md R68)

Every word it emits is the word of a well-formed command: `EmitsWellFormed` says so of a list of words, and each level of
the assembler keeps it. -/

/-- The words are those of well-formed commands. -/
def EmitsWellFormed (ws : List CommandWord) : Prop := ∀ w ∈ ws, ∃ i : Instr, w = encode i ∧ i.wellFormed = true

theorem emitsWellFormed_nil : EmitsWellFormed [] := fun _ hw => absurd hw List.not_mem_nil

theorem EmitsWellFormed.append {ws more : List CommandWord} (h : EmitsWellFormed ws) (h' : EmitsWellFormed more) :
    EmitsWellFormed (ws ++ more) := fun w hw =>
  (List.mem_append.1 hw).elim (h w) (h' w)

theorem emitsWellFormed_map_encode {is : List Instr} (h : ∀ i ∈ is, i.wellFormed = true) :
    EmitsWellFormed (is.map encode) := fun _ hw =>
  have ⟨i, hi, hw⟩ := List.mem_map.1 hw
  ⟨i, hw.symm, h i hi⟩

/-- A well-formed command has RSV = 0 (30_encoding.md R66). -/
theorem rsv_of_wellFormed {i : Instr} (h : i.wellFormed = true) : i.rsv = 0 := by
  cases i with
  | seed | step | enci => exact eq_of_beq h
  | nop | next | setmode | enc | draw | clrerr | rdreg => exact eq_of_beq (Bool.and_eq_true_iff.1 h).1

/-- The operand is at most the limit of its form, if the names of the form are (30_encoding.md R63, R68). -/
theorem parseOperand_le {names : List (List Char × Nat)} {hex : Bool} {limit : Nat} {text : List Char} {v : Word}
    (hnames : ∀ n, lookupText text names = some n → n ≤ limit) (h : parseOperand names hex limit text = .ok v) :
    ∃ n ≤ limit, v = BitVec.ofNat 32 n := by
  unfold parseOperand at h
  split at h
  next n hn => exact ⟨n, hnames n hn, (Except.ok.inj h).symm⟩
  next =>
    split at h
    next => exact nomatch h
    next n _ =>
      split at h
      next hle => exact ⟨n, hle, (Except.ok.inj h).symm⟩
      next => exact nomatch h

/-- What a lookup finds is listed. -/
theorem mem_of_lookupText {α : Type} {key : List Char} {table : List (List Char × α)} {v : α}
    (h : lookupText key table = some v) : (key, v) ∈ table := by
  induction table with
  | nil => exact nomatch h
  | cons entry rest ih =>
    obtain ⟨k, u⟩ := entry
    rw [lookupText] at h
    split at h
    next hk =>
      subst hk
      exact Option.some.inj h ▸ List.mem_cons_self
    next => exact List.mem_cons_of_mem _ (ih h)

theorem parseModeOperand_ok {text : List Char} {v : Word} (h : parseModeOperand text = .ok v) : v = 0 ∨ v = 1 := by
  have hnames : ∀ e ∈ [("GRAY".toList, 0), ("COLOR".toList, 1)], e.2 ≤ 1 := by decide
  obtain ⟨n, hn, rfl⟩ := parseOperand_le (fun n hn => hnames _ (mem_of_lookupText hn)) h
  interval_cases n
  · exact .inl rfl
  · exact .inr rfl

theorem parseIndexOperand_ok {text : List Char} {v : Word} (h : parseIndexOperand text = .ok v) :
    v = 0 ∨ v = 1 ∨ v = 2 ∨ v = 3 := by
  have hnames : ∀ e ∈ [("X".toList, 0), ("RAW".toList, 1), ("PIX".toList, 2), ("STATUS".toList, 3)], e.2 ≤ 3 := by
    decide
  obtain ⟨n, hn, rfl⟩ := parseOperand_le (fun n hn => hnames _ (mem_of_lookupText hn)) h
  interval_cases n
  · exact .inl rfl
  · exact .inr (.inl rfl)
  · exact .inr (.inr (.inl rfl))
  · exact .inr (.inr (.inr rfl))

theorem assembleBare_emitsWellFormed {is : List Instr} {args : List (List Char)} {ws : List CommandWord}
    (his : ∀ i ∈ is, i.wellFormed = true) (h : assembleBare is args = .ok ws) : EmitsWellFormed ws := by
  cases args with
  | nil => exact Except.ok.inj h ▸ emitsWellFormed_map_encode his
  | cons => exact nomatch h

theorem assembleUnary_emitsWellFormed {parse : List Char → Except AsmError Word} {is : Word → List Instr}
    {args : List (List Char)} {ws : List CommandWord}
    (his : ∀ a v, parse a = .ok v → ∀ i ∈ is v, i.wellFormed = true) (h : assembleUnary parse is args = .ok ws) :
    EmitsWellFormed ws := by
  unfold assembleUnary at h
  split at h
  next => exact nomatch h
  next a =>
    split at h
    next v hv => exact Except.ok.inj h ▸ emitsWellFormed_map_encode (his a v hv)
    next => exact nomatch h
  next => exact nomatch h

/-- Each statement emits well-formed commands only: RSV is written as 0, and an operand meets its form. -/
theorem assembleStatement_emitsWellFormed {args : List (List Char)} {st : Statement} {ws : List CommandWord}
    (h : assembleStatement args st = .ok ws) : EmitsWellFormed ws := by
  cases st with
  | nop | next | enc | draw | clrerr | warm | setgray | setcolor | rdx | rdstatus =>
    exact assembleBare_emitsWellFormed (by decide) h
  | seed | step | enci | init =>
    exact assembleUnary_emitsWellFormed (fun a v _ => by simp [Instr.wellFormed]) h
  | setmode =>
    exact assembleUnary_emitsWellFormed (fun a v hv => by simpa [Instr.wellFormed] using parseModeOperand_ok hv) h
  | rdreg =>
    refine assembleUnary_emitsWellFormed (fun a v hv => ?_) h
    simpa [Instr.wellFormed, or_assoc] using parseIndexOperand_ok hv

theorem assembleLine_emitsWellFormed {line : List Char} {ws : List CommandWord} (h : assembleLine line = .ok ws) :
    EmitsWellFormed ws := by
  unfold assembleLine at h
  split at h
  next => exact Except.ok.inj h ▸ emitsWellFormed_nil
  next =>
    split at h
    next => exact assembleStatement_emitsWellFormed h
    next => exact nomatch h

/-- Lines that assemble: the first assembles, the others do, and the words stand in that order. -/
theorem assembleLines_cons_ok {line : List Char} {rest : List (List Char)} {ws : List CommandWord} :
    assembleLines (line :: rest) = .ok ws ↔
      ∃ first more, assembleLine line = .ok first ∧ assembleLines rest = .ok more ∧ ws = first ++ more := by
  rw [assembleLines]
  cases assembleLine line with
  | error => simp
  | ok first =>
    cases assembleLines rest with
    | error => simp
    | ok more => simp [eq_comm]

theorem assembleLines_emitsWellFormed {lines : List (List Char)} {ws : List CommandWord}
    (h : assembleLines lines = .ok ws) : EmitsWellFormed ws := by
  induction lines generalizing ws with
  | nil => exact Except.ok.inj h ▸ emitsWellFormed_nil
  | cons line rest ih =>
    obtain ⟨first, more, hfirst, hmore, rfl⟩ := assembleLines_cons_ok.1 h
    exact (assembleLine_emitsWellFormed hfirst).append (ih hmore)

/-! ## How the assembler cuts a text (30_encoding.md R68)

What a word of a line may hold, and that the text around such words is cut at the separators only. -/

/-- A character that ends no word, starts no comment and ends no line. -/
structure PlainChar (c : Char) : Prop where
  notBlank : isBlank c = false
  notComment : c ≠ ';'
  notLineEnd : c ≠ '\n'

theorem plainChar_iff (c : Char) : PlainChar c ↔ isBlank c = false ∧ c ≠ ';' ∧ c ≠ '\n' :=
  ⟨fun h => ⟨h.notBlank, h.notComment, h.notLineEnd⟩, fun ⟨hblank, hcomment, hend⟩ => ⟨hblank, hcomment, hend⟩⟩

/-- Plain characters only. -/
def PlainText (cs : List Char) : Prop := ∀ c ∈ cs, PlainChar c

/-- A mnemonic and an operand that are plain text stand on one line, with no comment. -/
theorem operandLine_chars {m a : List Char} (hm : PlainText m) (ha : PlainText a) :
    ∀ c ∈ m ++ ' ' :: a, c ≠ ';' ∧ c ≠ '\n' := by
  have hplain : ∀ {cs}, PlainText cs → ∀ c ∈ cs, c ≠ ';' ∧ c ≠ '\n' :=
    fun h c hc => ⟨(h c hc).notComment, (h c hc).notLineEnd⟩
  exact List.forall_mem_append.2 ⟨hplain hm, List.forall_mem_cons.2 ⟨by decide, hplain ha⟩⟩

theorem stripComment_of_no_semicolon {cs : List Char} (h : ∀ c ∈ cs, c ≠ ';') : stripComment cs = cs := by
  induction cs with
  | nil => rfl
  | cons c rest ih =>
    obtain ⟨hc, hrest⟩ := List.forall_mem_cons.1 h
    rw [stripComment, if_neg hc, ih hrest]

/-- Characters with no white space among them add to the word being read. -/
theorem splitWords_append {cs : List Char} (h : ∀ c ∈ cs, isBlank c = false) (cur rest : List Char) :
    splitWords cur (cs ++ rest) = splitWords (cs.reverse ++ cur) rest := by
  induction cs generalizing cur with
  | nil => rfl
  | cons c cs ih =>
    obtain ⟨hc, hcs⟩ := List.forall_mem_cons.1 h
    simp [splitWords, hc, ih hcs]

/-- Characters with no line end among them add to the line being read. -/
theorem splitLines_append {cs : List Char} (h : ∀ c ∈ cs, c ≠ '\n') (cur rest : List Char) :
    splitLines cur (cs ++ rest) = splitLines (cs.reverse ++ cur) rest := by
  induction cs generalizing cur with
  | nil => rfl
  | cons c cs ih =>
    obtain ⟨hc, hcs⟩ := List.forall_mem_cons.1 h
    simp [splitLines, hc, ih hcs]

/-- Two words with a space between them. -/
theorem splitWords_pair {m a : List Char} (hm : ∀ c ∈ m, isBlank c = false) (ha : ∀ c ∈ a, isBlank c = false)
    (hmne : m ≠ []) (hane : a ≠ []) : splitWords [] (m ++ ' ' :: a) = [m, a] := by
  have hlast : splitWords [] a = [a] := by
    have h := splitWords_append ha [] []
    rw [List.append_nil, List.append_nil] at h
    simp [h, splitWords, hane]
  have hblank : isBlank ' ' = true := rfl
  rw [splitWords_append hm]
  simp [splitWords, hblank, hmne, hlast]

theorem splitLines_last {line : List Char} (h : ∀ c ∈ line, c ≠ '\n') : splitLines [] line = [line] := by
  have hcut := splitLines_append h [] []
  rw [List.append_nil, List.append_nil] at hcut
  rw [hcut, splitLines, List.reverse_reverse]

theorem splitLines_cons {line : List Char} (h : ∀ c ∈ line, c ≠ '\n') (rest : List Char) :
    splitLines [] (line ++ '\n' :: rest) = line :: splitLines [] rest := by
  rw [splitLines_append h, splitLines, if_pos rfl, List.append_nil, List.reverse_reverse]

/-- A mnemonic with one operand assembles as its statement does. -/
theorem assembleLine_operand {m a : List Char} {st : Statement} (hm : PlainText m) (ha : PlainText a)
    (hmne : m ≠ []) (hane : a ≠ []) (hst : lookupText (m.map Char.toUpper) mnemonicTable = some st) :
    assembleLine (m ++ ' ' :: a) = assembleStatement [a] st := by
  rw [assembleLine, stripComment_of_no_semicolon fun c hc => (operandLine_chars hm ha c hc).1,
    splitWords_pair (fun c hc => (hm c hc).notBlank) (fun c hc => (ha c hc).notBlank) hmne hane]
  simp only [hst]

/-- A text of one line. -/
theorem assemble_of_line {line : List Char} {ws : List CommandWord} (hline : ∀ c ∈ line, c ≠ '\n')
    (h : assembleLine line = .ok ws) : assemble line = .ok ws := by
  rw [assemble, splitLines_last hline]
  exact assembleLines_cons_ok.2 ⟨ws, [], h, rfl, (List.append_nil ws).symm⟩

/-- A text is its first line and the text after it. -/
theorem assemble_of_lines {line rest : List Char} {ws more : List CommandWord} (hline : ∀ c ∈ line, c ≠ '\n')
    (h : assembleLine line = .ok ws) (hrest : assemble rest = .ok more) :
    assemble (line ++ '\n' :: rest) = .ok (ws ++ more) := by
  rw [assemble, splitLines_cons hline]
  exact assembleLines_cons_ok.2 ⟨ws, more, h, hrest, rfl⟩

/-! ### A number holds digits only -/

/-- No character that separates words, comments or lines is a digit. -/
theorem plain_of_digitValue {base d : Nat} {c : Char} (h : digitValue base c = some d) : PlainChar c := by
  have hnone : ∀ sep ∈ [' ', '\t', '\r', ';', '\n'], digitValue base sep = none := by simp [digitValue]
  have hne : ∀ sep ∈ [' ', '\t', '\r', ';', '\n'], c ≠ sep := by
    rintro sep hsep rfl
    exact nomatch h.symm.trans (hnone c hsep)
  rw [plainChar_iff]
  simpa [isBlank, and_assoc] using hne

theorem plainText_of_parseDigitsFrom {base acc n : Nat} {cs : List Char} (h : parseDigitsFrom base acc cs = some n) :
    PlainText cs := by
  induction cs generalizing acc with
  | nil => exact fun c hc => absurd hc List.not_mem_nil
  | cons c rest ih =>
    rw [parseDigitsFrom] at h
    split at h
    next d hd => exact List.forall_mem_cons.2 ⟨plain_of_digitValue hd, ih h⟩
    next => exact nomatch h

theorem plainText_of_parseDigits {base n : Nat} {cs : List Char} (h : parseDigits base cs = some n) :
    PlainText cs ∧ cs ≠ [] := by
  cases cs with
  | nil => exact nomatch h
  | cons c rest => exact ⟨plainText_of_parseDigitsFrom h, List.cons_ne_nil c rest⟩

theorem plainText_of_parseNumber {hex : Bool} {n : Nat} {cs : List Char} (h : parseNumber hex cs = some n) :
    PlainText cs ∧ cs ≠ [] := by
  unfold parseNumber at h
  split at h
  next rest =>
    split at h
    next =>
      have hzeroX : PlainText ['0', 'x'] := by simp [PlainText, plainChar_iff, isBlank]
      obtain ⟨hrest, -⟩ := plainText_of_parseDigits h
      exact ⟨List.forall_mem_append.2 ⟨hzeroX, hrest⟩, List.cons_ne_nil _ _⟩
    next => exact nomatch h
  next => exact plainText_of_parseDigits h

theorem plainText_of_parseU32 {a : List Char} {v : Word} (h : parseU32 a = .ok v) : PlainText a ∧ a ≠ [] := by
  rw [parseU32, parseOperand, lookupText] at h
  cases hn : parseNumber true a with
  | none => simp [hn] at h
  | some n => exact plainText_of_parseNumber hn

/-- The line of a mnemonic with a `u32` operand holds no line end and assembles to the statement's words for it. -/
theorem assembleLine_u32 {m a : List Char} {v : Word} {st : Statement} {is : Word → List Instr} (hm : PlainText m)
    (hmne : m ≠ []) (hst : lookupText (m.map Char.toUpper) mnemonicTable = some st)
    (his : ∀ args, assembleStatement args st = assembleUnary parseU32 is args) (ha : parseU32 a = .ok v) :
    (∀ c ∈ m ++ ' ' :: a, c ≠ '\n') ∧ assembleLine (m ++ ' ' :: a) = .ok ((is v).map encode) := by
  obtain ⟨hplain, hane⟩ := plainText_of_parseU32 ha
  refine ⟨fun c hc => (operandLine_chars hm hplain c hc).2, ?_⟩
  rw [assembleLine_operand hm hplain hmne hane hst, his, assembleUnary, ha]

/-- The line INIT v and the two lines of its expansion (30_encoding.md R69). -/
theorem assemble_init {a : List Char} {v : Word} (ha : parseU32 a = .ok v) :
    assemble ("INIT ".toList ++ a) = .ok [encode (.seed 0 v), encode (.step 0 100)] ∧
    assemble ("SEED ".toList ++ a ++ "\nSTEP 100".toList) = .ok [encode (.seed 0 v), encode (.step 0 100)] := by
  have hinit : PlainText ['I', 'N', 'I', 'T'] := by simp [PlainText, plainChar_iff, isBlank]
  have hseed : PlainText ['S', 'E', 'E', 'D'] := by simp [PlainText, plainChar_iff, isBlank]
  have hstep : assemble "STEP 100".toList = .ok [encode (.step 0 100)] := by decide +kernel
  obtain ⟨hinitLine, hinitWords⟩ := assembleLine_u32 (st := .init) hinit (by simp) (by decide) (fun _ => rfl) ha
  obtain ⟨hseedLine, hseedWords⟩ := assembleLine_u32 (st := .seed) hseed (by simp) (by decide) (fun _ => rfl) ha
  refine ⟨assemble_of_line hinitLine hinitWords, ?_⟩
  rw [List.append_assoc]
  exact assemble_of_lines hseedLine hseedWords hstep

/-- A text and the word it assembles to: the word decodes to the command it is the word of. -/
theorem example_line {text : List Char} {w : CommandWord} {i : Instr} (hasm : assemble text = .ok [w])
    (hw : encode i = w) : assemble text = .ok [w] ∧ decode w = .command i :=
  ⟨hasm, hw ▸ decode_encode i⟩

/-! ## The obligations of 30_encoding.md -/

/-- Settles O1: the words read back by `decode_encode`, every other part by what `decode_cases` says of a word. -/
theorem decodeInvertsEncode : Obligations.DecodeInvertsEncode := by
  refine ⟨decode_encode, fun w i hw => ?decoded, fun w => (decode_eq_illegalOpcode_iff w).symm,
    fun w => (decode_eq_command_iff w).symm⟩
  case decoded =>
    have hfields : HasFieldsOf i w := hasFieldsOf_of_decode hw
    obtain ⟨-, -, -, hmatch⟩ := encode_fields i
    exact ⟨hfields.eq_encode, hfields.rsv, hfields.imm, hfields.eq_encode ▸ hmatch⟩

/-- Settles O16: the word commits its outcome, and a commit is `Performed`. -/
theorem everyWordGetsOneResponse : Obligations.EveryWordGetsOneResponse := by
  intro w s
  obtain ⟨hregs, hresp, houtside⟩ := commit_performed s (wordOutcome w s.regs)
  refine ⟨s.commit (wordOutcome w s.regs), (wordOutcome w s.regs).2, performWord_eq_commit_wordOutcome w s, hresp,
    houtside, fun hclear hnew => ?newError⟩
  case newError => exact wordOutcome_response_of_newError hclear (hregs ▸ hnew)

/-- Settles O50: every word emitted is a well-formed command's word, and decoding reads that command back. -/
theorem assembledWordsAreWellFormed : Obligations.AssembledWordsAreWellFormed := by
  intro text ws htext w hw
  obtain ⟨i, rfl, hwf⟩ := assembleLines_emitsWellFormed htext w hw
  obtain ⟨hrsv, -, -, -⟩ := encode_fields i
  exact ⟨hrsv.trans (rsv_of_wellFormed hwf), i, decode_encode i, hwf⟩

/-- Settles O51: INIT by `assemble_init`, for every operand text; the five others are fixed lines. -/
theorem pseudoInstructionsExpand : Obligations.PseudoInstructionsExpand := by
  refine ⟨fun a v ha => ?init, ?warm, ?setgray, ?setcolor, ?rdx, ?rdstatus⟩
  case init =>
    obtain ⟨hinit, hexpansion⟩ := assemble_init ha
    have hstep : encode (.step 0 100) = 0x0000000300000064 := by decide
    exact ⟨hstep ▸ hinit, hinit.trans hexpansion.symm⟩
  all_goals exact ⟨by decide +kernel, by decide +kernel⟩

/-- Settles O2: each word is the encoding of its command. -/
theorem specExampleWordsDecode : Obligations.SpecExampleWordsDecode := by
  refine ⟨?nop, ?seed, ?next, ?step, ?setmode, ?enc, ?draw, ?enci, ?clrerr, ?rdreg⟩
  all_goals exact example_line (by decide +kernel) (by decide)

end Sys2Proof.Machine

namespace Sys2Proof.Machine

/-! ## A command's outcome with its frame, by which of its checks fails (60_exceptions.md R172, R174) -/

section outcomes
variable {i : Instr} {s t : State}

/-- A command whose checks pass succeeds with its effect. -/
theorem succeeds_of_passed (hpass : failedCheck i s.regs = none) :
    Succeeds i s (effectOf i s.regs).1 (effectOf i s.regs).2 :=
  succeeds_of_checks (exec_eq_performChecked i s) hpass

/-- The same for a state already known to follow the command. -/
theorem performed_of_passed (hpass : failedCheck i s.regs = none) (ht : exec i s = .next t) :
    Performed s (effectOf i s.regs).1 (effectOf i s.regs).2 t := by
  rw [eq_commit_of_exec ht, outcomeOf_of_passed hpass]
  exact commit_performed s _

/-- RESERVED_FIELD comes before the seed check. -/
theorem failsWith_reservedField (h : i.rsv ≠ 0 ∨ immAdmitted (operandForm i) i.imm = false) : FailsWith i s 2 :=
  failsWith_of_check (exec_eq_performChecked i s) ((firstFailedCheck_eq_reserved ..).2 h)

/-- A command that takes no operand fails on any bit of RSV or IMM (30_encoding.md R63). -/
theorem failsWith_reservedField_of_none (hform : operandForm i = .none) (h : i.rsv ≠ 0 ∨ i.imm ≠ 0) :
    FailsWith i s 2 :=
  failsWith_reservedField (h.imp_right fun himm => by
    rw [hform, ← Bool.not_eq_true, immAdmitted_none]
    exact himm)

theorem failsWith_unseeded (hrsv : i.rsv = 0) (himm : immAdmitted (operandForm i) i.imm = true)
    (hneeds : needsSeeded i = true) (hunseeded : s.regs.seeded = false) : FailsWith i s 3 :=
  failsWith_of_check (exec_eq_performChecked i s) ((firstFailedCheck_eq_unseeded ..).2 ⟨hrsv, himm, hneeds, hunseeded⟩)

end outcomes

/-! ## When the generator commands pass their checks (40_generator.md R82-R84) -/

section passing
variable {u : UnitState}

theorem failedCheck_seed (v : Word) : failedCheck (.seed 0 v) u = none :=
  (failedCheck_eq_none_iff _ u).2 ⟨rfl, rfl, nofun⟩

theorem failedCheck_next (hseeded : u.seeded = true) : failedCheck (.next 0 0) u = none :=
  (failedCheck_eq_none_iff _ u).2 ⟨rfl, rfl, fun _ => hseeded⟩

theorem failedCheck_step (n : Word) (hseeded : u.seeded = true) : failedCheck (.step 0 n) u = none :=
  (failedCheck_eq_none_iff _ u).2 ⟨rfl, rfl, fun _ => hseeded⟩

end passing

/-! ## mix is a bijection (40_generator.md R81 (b))

Each of its three shift-xor steps is injective: two values that a step takes to one differ by a value that the shift
leaves as it is, and that is 0 only. -/

section shiftXor
variable {w k : Nat} {x y x' y' : BitVec w}

theorem xor_eq_xor_of_swap (h : x ^^^ x' = y ^^^ y') : x ^^^ y = x' ^^^ y' := by
  have hswap : (x ^^^ y) ^^^ (x' ^^^ y') = (x ^^^ x') ^^^ (y ^^^ y') := by ac_rfl
  exact BitVec.xor_eq_zero_iff.1 (hswap.trans (BitVec.xor_eq_zero_iff.2 h))

theorem xor_shiftLeft_injective (hk : 0 < k) : Function.Injective fun x : BitVec w => x ^^^ (x <<< k) := by
  intro x y h
  have hdiff : x ^^^ y = (x ^^^ y) <<< k := by
    rw [BitVec.shiftLeft_xor_distrib]
    exact xor_eq_xor_of_swap h
  exact BitVec.xor_eq_zero_iff.1 (eq_zero_of_eq_shiftLeft hk hdiff)

theorem xor_ushiftRight_injective (hk : 0 < k) : Function.Injective fun x : BitVec w => x ^^^ (x >>> k) := by
  intro x y h
  have hdiff : x ^^^ y = (x ^^^ y) >>> k := by
    rw [BitVec.ushiftRight_xor_distrib]
    exact xor_eq_xor_of_swap h
  exact BitVec.xor_eq_zero_iff.1 (eq_zero_of_eq_ushiftRight hk hdiff)

end shiftXor

theorem mix_injective : Function.Injective mix := by
  have hA : Function.Injective fun x : Word => x ^^^ (x <<< Config.shiftA) := xor_shiftLeft_injective (by decide)
  have hB : Function.Injective fun x : Word => x ^^^ (x >>> Config.shiftB) := xor_ushiftRight_injective (by decide)
  have hC : Function.Injective fun x : Word => x ^^^ (x <<< Config.shiftC) := xor_shiftLeft_injective (by decide)
  exact hC.comp (hB.comp hA)

/-! ## Repeated NEXTs (40_generator.md R83, R85) -/

theorem performAll_cons {i : Instr} {is : List Instr} {s t : State} (h : exec i s = .next t) :
    performAll (i :: is) s = performAll is t := by
  rw [performAll, h]

/-- One or more NEXTs on a seeded unit: X, RAW and the last response are the last mix, and no other register changes. -/
theorem performAll_next_succ (m : Nat) {s : State} (hseeded : s.regs.seeded = true) :
    ∃ t, performAll (List.replicate (m + 1) (.next 0 0)) s = .next t ∧
      t.regs = { s.regs with x := mixN (m + 1) s.regs.x, raw := mixN (m + 1) s.regs.x } ∧
      (t.port s.active).resp = some (mixN (m + 1) s.regs.x) := by
  induction m generalizing s with
  | zero =>
    obtain ⟨t, ht, hregs, hresp, -⟩ := succeeds_of_passed (failedCheck_next hseeded)
    exact ⟨t, performAll_cons ht, hregs, hresp⟩
  | succ m ih =>
    obtain ⟨t, ht, hregs, -, hactive, -⟩ := succeeds_of_passed (failedCheck_next hseeded)
    have htseeded : t.regs.seeded = true := by
      rw [hregs]
      exact hseeded
    obtain ⟨u, hu, huregs, huresp⟩ := ih htseeded
    rw [hregs] at huregs huresp
    exact ⟨u, (performAll_cons ht).trans hu, huregs, hactive ▸ huresp⟩

/-- Any number of NEXTs on a seeded unit leaves that many mixes of X. -/
theorem performAll_next_x (n : Nat) {s : State} (hseeded : s.regs.seeded = true) :
    ∃ t, performAll (List.replicate n (.next 0 0)) s = .next t ∧ t.regs.x = mixN n s.regs.x := by
  cases n with
  | zero => exact ⟨s, rfl, rfl⟩
  | succ m =>
    obtain ⟨t, ht, hregs, -⟩ := performAll_next_succ m hseeded
    exact ⟨t, ht, by rw [hregs]⟩

/-- After `SEED 0` every NEXT returns 0 (40_generator.md R82). -/
theorem next_after_seed_zero {n : Nat} {s t u : State} (ht : exec (.seed 0 0) s = .next t)
    (hu : performAll (List.replicate (n + 1) (.next 0 0)) t = .next u) :
    t.regs.zs = true ∧ u.regs.x = 0 ∧ (u.port s.active).resp = some 0 := by
  obtain ⟨hregs, -, hactive, -⟩ := performed_of_passed (failedCheck_seed 0) ht
  have hseeded : t.regs.seeded = true := by rw [hregs]; rfl
  have hx : mixN (n + 1) t.regs.x = 0 := (mixN_eq_zero_iff _ _).2 (by rw [hregs]; rfl)
  obtain ⟨u', hu', huregs, huresp⟩ := performAll_next_succ n hseeded
  obtain rfl : u' = u := Host.Outcome.next.inj (hu'.symm.trans hu)
  rw [hx] at huregs huresp
  exact ⟨by rw [hregs]; rfl, by rw [huregs], hactive ▸ huresp⟩

/-! ## The warm-up (40_generator.md R86) -/

/-- The two commands of INIT, one after the other, pass their checks in every state (40_generator.md R86). -/
theorem seed_then_step (v n : Word) (s : State) :
    ∃ t u, exec (.seed 0 v) s = .next t ∧ exec (.step 0 n) t = .next u ∧
      (t.port s.active).resp = some 0 ∧ (u.port s.active).resp = some 0 ∧
      u.regs = { s.regs with x := mixN n.toNat v, seeded := true } := by
  obtain ⟨t, ht, htregs, htresp, hactive, -⟩ := succeeds_of_passed (s := s) (failedCheck_seed v)
  have hseeded : t.regs.seeded = true := by rw [htregs]; rfl
  obtain ⟨u, hu, huregs, huresp, -⟩ := succeeds_of_passed (failedCheck_step n hseeded)
  rw [htregs] at huregs
  exact ⟨t, u, ht, hu, htresp, hactive ▸ huresp, huregs⟩

/-- The rules' example of the warm-up, in R84 and R86. -/
theorem mixN_warmup_one : mixN 100 1 = 0x08C93AF7 := by decide +kernel

/-! ## The obligations of 40_generator.md -/

/-- Settles O5: SEED has one check, RSV; the NEXTs after `SEED 0` are `next_after_seed_zero`. -/
theorem seedLoadsTheGenerator : Obligations.SeedLoadsTheGenerator := by
  refine ⟨fun rsv v s => ⟨rfl, ?effect, ?zeroState, fun hrsv => failsWith_reservedField (.inl hrsv)⟩,
    fun n s t u => next_after_seed_zero, by decide⟩
  case effect =>
    rintro rfl
    exact succeeds_of_passed (failedCheck_seed v)
  case zeroState =>
    rintro rfl t ht
    obtain ⟨hregs, -⟩ := performed_of_passed (failedCheck_seed v) ht
    rw [hregs]
    exact Bool.true_and (v == 0)

/-- Settles O6: the outcomes by the first failed check; ZS is kept because NEXT is not SEED
(`onlySeedChangesZeroState`). -/
theorem nextDrawsOnce : Obligations.NextDrawsOnce := by
  refine ⟨fun rsv imm s => ⟨rfl, ?effect, fun _ _ _ t => ?zeroState, ?reserved, ?unseeded⟩,
    by decide, by decide, by decide, by decide⟩
  case effect =>
    rintro rfl rfl hseeded
    exact succeeds_of_passed (failedCheck_next hseeded)
  case zeroState => exact onlySeedChangesZeroState _ s t (by simp [Instr.opcode])
  case reserved => exact failsWith_reservedField_of_none (i := .next rsv imm) rfl
  case unseeded =>
    rintro rfl rfl hunseeded
    exact failsWith_unseeded rfl rfl rfl hunseeded

/-- Settles O7: the outcomes by the first failed check, as for NEXT; the count plays no part in the checks. -/
theorem stepAdvancesByItsCount : Obligations.StepAdvancesByItsCount := by
  refine ⟨fun rsv n s => ⟨rfl, ?effect, fun _ _ t => ?zeroState, fun hrsv => failsWith_reservedField (.inl hrsv),
    fun hrsv => failsWith_unseeded hrsv rfl rfl⟩, fun _ => rfl, mixN_succ, fun n => (mixN_eq_zero_iff n 0).2 rfl,
    by decide, mixN_warmup_one⟩
  case effect =>
    rintro rfl hseeded
    exact succeeds_of_passed (failedCheck_step n hseeded)
  case zeroState => exact onlySeedChangesZeroState _ s t (by simp [Instr.opcode])

/-- Settles O22: an injective function on the finitely many words is a bijection. -/
theorem mixIsABijectionFixingZero : Obligations.MixIsABijectionFixingZero :=
  ⟨Finite.injective_iff_bijective.1 mix_injective, (mix_eq_zero_iff 0).2 rfl, mixN_eq_zero_iff⟩

/-- Settles O24: both sides leave `mixN n` of X, STEP by its effect and the NEXTs by induction on their number. -/
theorem stepEqualsRepeatedNext : Obligations.StepEqualsRepeatedNext := by
  refine fun n s hseeded => ⟨?same, fun m _ => ?draws⟩
  case same =>
    obtain ⟨t, ht, htregs, htresp, -⟩ := succeeds_of_passed (failedCheck_step n hseeded)
    obtain ⟨u, hu, hux⟩ := performAll_next_x n.toNat hseeded
    refine ⟨t, u, ht, hu, ?_, ?_, htresp⟩ <;> rw [htregs, hux] <;> rfl
  case draws =>
    obtain ⟨v, hv, hregs, hresp⟩ := performAll_next_succ m hseeded
    refine ⟨v, hv, ?_, ?_, ?_⟩ <;> rw [hregs]
    exact hresp

/-- Settles O25: `seed_then_step` with n = 100; mixing keeps zero and non-zero apart. -/
theorem warmUpLeavesTheHundredthMix : Obligations.WarmUpLeavesTheHundredthMix := by
  have hone : parseU32 "1".toList = .ok 1 := by decide
  obtain ⟨hinit, -⟩ := assemble_init hone
  refine ⟨fun v s => ?sequence, hinit, mixN_warmup_one, by decide +kernel⟩
  obtain ⟨t, u, ht, hu, htresp, huresp, hregs⟩ := seed_then_step v 100 s
  refine ⟨t, u, ht, hu, htresp, huresp, hregs, ?_⟩
  rw [hregs]
  exact mixN_eq_zero_iff 100 v

end Sys2Proof.Machine

namespace Sys2Proof.Machine

/-! ## When the encoder commands pass their checks (41_encoder.md R102-R105) -/

section passing
variable {u : UnitState}

theorem failedCheck_setmode {v : Word} (h : v = 0 ∨ v = 1) : failedCheck (.setmode 0 v) u = none :=
  (failedCheck_eq_none_iff _ u).2 ⟨rfl, (immAdmitted_bit v).2 h, nofun⟩

theorem failedCheck_enc : failedCheck (.enc 0 0) u = none :=
  (failedCheck_eq_none_iff _ u).2 ⟨rfl, rfl, nofun⟩

theorem failedCheck_enci (v : Word) : failedCheck (.enci 0 v) u = none :=
  (failedCheck_eq_none_iff _ u).2 ⟨rfl, rfl, nofun⟩

theorem failedCheck_draw (hseeded : u.seeded = true) : failedCheck (.draw 0 0) u = none :=
  (failedCheck_eq_none_iff _ u).2 ⟨rfl, rfl, fun _ => hseeded⟩

end passing

/-- No immediate above 1 is a mode (30_encoding.md R63). -/
theorem immAdmitted_bit_of_one_lt {v : Word} (h : 1 < v.toNat) : immAdmitted .bit v = false := by
  rw [← Bool.not_eq_true, immAdmitted_bit]
  rintro (rfl | rfl) <;> exact absurd h (by decide)

/-! ## The pixel encoder, channel by channel (41_encoder.md R100, R101) -/

section channels
variable (r g b : Byte)

theorem channelByte_packPixel_zero : channelByte (packPixel r g b) 0 = r := by
  rw [channelByte, packPixel, BitVec.extractLsb'_setWidth_of_le (by decide)]
  exact BitVec.extractLsb'_append_eq_right

theorem channelByte_packPixel_one : channelByte (packPixel r g b) 1 = g := by
  rw [channelByte, packPixel, BitVec.extractLsb'_setWidth_of_le (by decide),
    BitVec.extractLsb'_append_eq_of_le (by decide)]
  exact BitVec.extractLsb'_append_eq_right

theorem channelByte_packPixel_two : channelByte (packPixel r g b) 2 = b := by
  rw [channelByte, packPixel, BitVec.extractLsb'_setWidth_of_le (by decide),
    BitVec.extractLsb'_append_eq_of_le (by decide)]
  exact BitVec.extractLsb'_append_eq_left

end channels

/-- `v mod 256` is the low byte of v (41_encoder.md R101 (a)). -/
theorem pixelEncode_grayscale (v : Word) : pixelEncode v .grayscale =
    packPixel (v.extractLsb' 0 8) (v.extractLsb' 0 8) (v.extractLsb' 0 8) := by
  have hbyte : BitVec.ofNat 8 (v.toNat % 256) = v.extractLsb' 0 8 :=
    BitVec.eq_of_toNat_eq (by simp [BitVec.extractLsb'_toNat])
  rw [pixelEncode, hbyte]

/-- Grayscale gives every channel the low byte (41_encoder.md R101 (b)). -/
theorem channelByte_pixelEncode_grayscale (v : Word) {ch : Nat} (hch : ch < 3) :
    channelByte (pixelEncode v .grayscale) ch = v.extractLsb' 0 8 := by
  rw [pixelEncode_grayscale]
  match ch, hch with
  | 0, _ => exact channelByte_packPixel_zero ..
  | 1, _ => exact channelByte_packPixel_one ..
  | 2, _ => exact channelByte_packPixel_two ..

/-- A left shift that drops the bytes above a byte, then a right shift by 24, leaves that byte (41_encoder.md R100). -/
theorem setWidth_shiftLeft_ushiftRight (v : Word) {k : Nat} (hk : k ≤ 24) :
    ((v <<< k) >>> 24).setWidth 8 = v.extractLsb' (24 - k) 8 := by
  rw [BitVec.setWidth_ushiftRight_eq_extractLsb]
  refine BitVec.eq_of_getLsbD_eq fun j hj => ?_
  have hin : 24 + j < 32 := by omega
  have hge : ¬ 24 + j < k := by omega
  have hsub : 24 + j - k = 24 - k + j := by omega
  simp only [BitVec.getLsbD_extractLsb', BitVec.getLsbD_shiftLeft, hin, hge, hsub, decide_true, decide_false,
    Bool.not_false, Bool.true_and]

/-- Colorful takes the three low bytes of v, each to its channel (41_encoder.md R100). -/
theorem pixelEncode_colorful (v : Word) : pixelEncode v .colorful =
    packPixel (v.extractLsb' 0 8) (v.extractLsb' 8 8) (v.extractLsb' 16 8) := by
  rw [pixelEncode, setWidth_shiftLeft_ushiftRight v (by decide), setWidth_shiftLeft_ushiftRight v (by decide),
    setWidth_shiftLeft_ushiftRight v (by decide)]

/-- Three adjacent bytes packed are the low 24 bits (41_encoder.md R101 (c)). -/
theorem packPixel_extractLsb' (v : Word) :
    packPixel (v.extractLsb' 0 8) (v.extractLsb' 8 8) (v.extractLsb' 16 8) = v &&& 0x00FFFFFF := by
  have hlow : v.extractLsb' 16 8 ++ v.extractLsb' 8 8 ++ v.extractLsb' 0 8 = v.extractLsb' 0 24 := by
    rw [BitVec.extractLsb'_append_extractLsb'_eq_extractLsb' (start₁ := 8) (len₁ := 8) rfl]
    exact BitVec.extractLsb'_append_extractLsb'_eq_extractLsb' rfl
  have hmask : v.toNat &&& 0x00FFFFFF = v.toNat % 2 ^ 24 := Nat.and_two_pow_sub_one_eq_mod v.toNat 24
  rw [packPixel, hlow]
  refine BitVec.eq_of_toNat_eq ?_
  calc ((v.extractLsb' 0 24).setWidth 32).toNat = v.toNat % 2 ^ 24 := by
        rw [BitVec.toNat_setWidth_of_le (by decide), BitVec.extractLsb'_toNat, Nat.shiftRight_zero]
    _ = (v &&& 0x00FFFFFF).toNat := hmask.symm

theorem pixelEncode_colorful_eq_and (v : Word) : pixelEncode v .colorful = v &&& 0x00FFFFFF :=
  (pixelEncode_colorful v).trans (packPixel_extractLsb' v)

/-- A value whose low 24 bits are 0 is black in both modes (41_encoder.md R104, R105). -/
theorem pixelEncode_eq_zero {v : Word} (h : v &&& 0x00FFFFFF = 0) (m : Mode) : pixelEncode v m = 0 := by
  cases m with
  | colorful => rw [pixelEncode_colorful_eq_and, h]
  | grayscale =>
    have hmask : (0x00FFFFFF : Word).extractLsb' 0 8 = BitVec.allOnes 8 := by decide
    have hbyte : v.extractLsb' 0 8 = 0 :=
      calc v.extractLsb' 0 8 = (v &&& 0x00FFFFFF).extractLsb' 0 8 := by
            rw [BitVec.extractLsb'_and, hmask, BitVec.and_allOnes]
        _ = 0 := by rw [h]; rfl
    rw [pixelEncode_grayscale, hbyte]
    rfl

/-- The encoding of what one mix of 1 draws, the rules' example (41_encoder.md R103, R105). -/
theorem pixelEncode_grayscale_example : pixelEncode 0x00042021 .grayscale = 0x00212121 := by decide

/-! ## The obligations of 41_encoder.md -/

/-- Settles O8: `immAdmitted_bit` admits 0 and 1 only; STATUS bit 0 is MODE in every state (`status_flags`). -/
theorem setmodeSelectsTheMode : Obligations.SetmodeSelectsTheMode := by
  refine ⟨fun rsv imm s => ⟨rfl, ?grayscale, ?colorful, fun t _ => (status_flags t.regs).1, ?reserved⟩, rfl⟩
  case grayscale =>
    rintro rfl rfl
    exact succeeds_of_passed (failedCheck_setmode (.inl rfl))
  case colorful =>
    rintro rfl rfl
    exact succeeds_of_passed (failedCheck_setmode (.inr rfl))
  case reserved => exact fun h => failsWith_reservedField (h.imp_right immAdmitted_bit_of_one_lt)

/-- Settles O9: ENC has no seed check; STEP writes X only, so the ENC after it reads the earlier RAW. -/
theorem encEncodesTheLastRawValue : Obligations.EncEncodesTheLastRawValue := by
  refine ⟨fun rsv imm s => ⟨rfl, ?effect, failsWith_reservedField_of_none (i := .enc rsv imm) rfl⟩,
    fun n s t u hseeded ht hu => ?afterStep, by decide, pixelEncode_grayscale_example⟩
  case effect =>
    rintro rfl rfl
    exact succeeds_of_passed failedCheck_enc
  case afterStep =>
    obtain ⟨htregs, -⟩ := performed_of_passed (failedCheck_step n hseeded) ht
    obtain ⟨huregs, -⟩ := performed_of_passed failedCheck_enc hu
    rw [huregs, htregs]
    rfl

/-- Settles O10: every immediate is admitted, so RSV is the only check. -/
theorem enciEncodesItsImmediate : Obligations.EnciEncodesItsImmediate := by
  refine ⟨fun rsv imm s => ⟨rfl, ?effect, fun hrsv => failsWith_reservedField (.inl hrsv)⟩,
    fun m => ⟨pixelEncode_eq_zero rfl m, pixelEncode_eq_zero rfl m⟩, by decide, by decide, rfl, by decide⟩
  case effect =>
    rintro rfl
    exact succeeds_of_passed (failedCheck_enci imm)

/-- Settles O11: the outcomes by the first failed check; ZS is kept because DRAW is not SEED
(`onlySeedChangesZeroState`). -/
theorem drawDrawsAndEncodes : Obligations.DrawDrawsAndEncodes := by
  refine ⟨fun rsv imm s => ⟨rfl, ?effect, fun _ _ _ t => ?zeroState,
    failsWith_reservedField_of_none (i := .draw rsv imm) rfl, ?unseeded⟩,
    (mix_eq_zero_iff 0).2 rfl, pixelEncode_eq_zero rfl, by decide, pixelEncode_grayscale_example, by decide⟩
  case effect =>
    rintro rfl rfl hseeded
    exact succeeds_of_passed (failedCheck_draw hseeded)
  case zeroState => exact onlySeedChangesZeroState _ s t (by simp [Instr.opcode])
  case unseeded =>
    rintro rfl rfl hunseeded
    exact failsWith_unseeded rfl rfl rfl hunseeded

/-- Settles O26: NEXT leaves in RAW the value that DRAW encodes, and changes neither PIX nor MODE. -/
theorem drawEqualsNextThenEnc : Obligations.DrawEqualsNextThenEnc := by
  intro s hseeded
  obtain ⟨t, ht, htregs, htresp, -⟩ := succeeds_of_passed (failedCheck_draw hseeded)
  obtain ⟨u, hu, huregs, huresp, hactive, -⟩ := succeeds_of_passed (failedCheck_next hseeded)
  obtain ⟨v, hv, hvregs, hvresp, -⟩ := succeeds_of_passed (s := u) failedCheck_enc
  rw [hactive] at hvresp
  rw [huregs] at hvregs hvresp
  refine ⟨t, u, v, ht, hu, hv, htregs.trans hvregs.symm, htresp.trans hvresp.symm, ?_, ?_⟩
  · rw [huresp, huregs]
    rfl
  · rw [hvresp, hvregs]
    rfl

/-- Settles O27: each mode's word by its channels, `channelByte_pixelEncode_grayscale` and
`pixelEncode_colorful_eq_and`. -/
theorem encoderLaws : Obligations.EncoderLaws := by
  refine ⟨fun v w hlow => ?lowByte, fun v ch hch => ?channels, pixelEncode_colorful_eq_and, pixelEncode_top,
    pixelEncode_colorful_eq_and 0x12345678⟩
  case lowByte => rw [pixelEncode_grayscale, pixelEncode_grayscale, hlow]
  case channels =>
    rw [channelByte_pixelEncode_grayscale v hch]
    exact ⟨rfl, by simp [BitVec.extractLsb'_toNat]⟩

end Sys2Proof.Machine

namespace Sys2Proof.Machine

/-! ## What a failed command leaves (60_exceptions.md R172) -/

section failing
variable {i : Instr} {s t : State}

/-- A command whose check fails records that check's error, and does nothing else. -/
theorem failed_of_failedCheck {c : ErrorCode} (hfail : failedCheck i s.regs = some c) (ht : exec i s = .next t) :
    Failed s c.code t := by
  rw [eq_commit_of_exec ht, outcomeOf_of_failed hfail]
  exact raiseError_failed s c

/-- A command has one next state, so what `FailsWith` says holds of the state already known to follow it. -/
theorem failed_of_failsWith {c : BitVec 4} (h : FailsWith i s c) (ht : exec i s = .next t) : Failed s c t := by
  obtain ⟨t', ht', hfailed⟩ := h
  obtain rfl : t' = t := Host.Outcome.next.inj (ht'.symm.trans ht)
  exact hfailed

/-- Failing or not, a command leaves everything outside its unit as it was (00_scope.md R6, 20_memory.md R40). -/
theorem outsideUnchanged_of_exec (ht : exec i s = .next t) : OutsideUnchanged s t := by
  rw [eq_commit_of_exec ht]
  obtain ⟨-, -, houtside⟩ := commit_performed s (outcomeOf i s.regs)
  exact houtside

end failing

/-! ## When the control commands pass their checks (42_control.md R120-R122) -/

section passing
variable {u : UnitState}

theorem failedCheck_nop : failedCheck (.nop 0 0) u = none :=
  (failedCheck_eq_none_iff _ u).2 ⟨rfl, rfl, nofun⟩

theorem failedCheck_clrerr : failedCheck (.clrerr 0 0) u = none :=
  (failedCheck_eq_none_iff _ u).2 ⟨rfl, rfl, nofun⟩

/-- Index 0 reads X, which an unseeded unit does not have (10_state.md R23). -/
theorem failedCheck_rdreg_zero (hseeded : u.seeded = true) : failedCheck (.rdreg 0 0) u = none :=
  (failedCheck_eq_none_iff _ u).2 ⟨rfl, rfl, fun _ => hseeded⟩

theorem failedCheck_rdreg {index : Word} (h : index = 1 ∨ index = 2 ∨ index = 3) :
    failedCheck (.rdreg 0 index) u = none := by
  refine (failedCheck_eq_none_iff _ u).2 ⟨rfl, (immAdmitted_index index).2 (.inr h), ?unneeded⟩
  case unneeded => obtain rfl | rfl | rfl := h <;> exact nofun

end passing

/-- No immediate above 3 is a register index (30_encoding.md R63). -/
theorem immAdmitted_index_of_three_lt {v : Word} (h : 3 < v.toNat) : immAdmitted .index v = false :=
  decide_eq_false (Nat.not_le.2 h)

/-! ## RDREG (42_control.md R122, R123) -/

/-- The STATUS word from the registers alone, with ZS and the mode bit written out (10_state.md R29, R30). -/
theorem status_eq_append (u : UnitState) : u.status =
    (0 : BitVec 24) ++ u.ecode ++ BitVec.ofBool u.err ++ BitVec.ofBool (u.seeded && decide (u.x = 0)) ++
      BitVec.ofBool u.seeded ++ BitVec.ofBool (decide (u.mode = .colorful)) := by
  have hmode : u.mode.bit = BitVec.ofBool (decide (u.mode = .colorful)) := by cases u.mode <;> rfl
  rw [← hmode]
  rfl

/-- RDREG repeats its outcome: a failed check fails again and finds its error recorded, and a read writes nothing. -/
theorem outcomeOf_rdreg_again (rsv : BitVec 24) (index : Word) (u : UnitState) :
    outcomeOf (.rdreg rsv index) (outcomeOf (.rdreg rsv index) u).1 = outcomeOf (.rdreg rsv index) u := by
  rcases outcomeOf_cases (.rdreg rsv index) u with ⟨c, hfail, ho⟩ | ⟨-, ho⟩
  · have hagain : failedCheck (.rdreg rsv index) (u.recordError c) = some c := (failedCheck_congr _ rfl).trans hfail
    rw [ho, outcomeOf_of_failed hagain, recordError_recordError]
  · have hread : (outcomeOf (.rdreg rsv index) u).1 = u := congrArg Prod.fst ho
    rw [hread]

/-! ## The obligations of 42_control.md -/

/-- Settles O13: each outcome by the first failed check; the STATUS word after SEED 0 is computed from the registers
that SEED leaves. -/
theorem rdregReadsTheIndexedRegister : Obligations.RdregReadsTheIndexedRegister := by
  refine ⟨fun rsv imm s => ⟨rfl, ?readX, ?readRaw, ?readPix, ?readStatus, ?reserved, ?unseeded⟩,
    succeeds_of_passed (failedCheck_rdreg (.inr (.inr rfl))), succeeds_of_passed (failedCheck_rdreg (.inl rfl)),
    succeeds_of_passed (failedCheck_rdreg (.inr (.inl rfl))), fun t ht => ?statusAfterSeed, rfl⟩
  case readX =>
    rintro rfl rfl hseeded
    exact succeeds_of_passed (failedCheck_rdreg_zero hseeded)
  case readRaw =>
    rintro rfl rfl
    exact succeeds_of_passed (failedCheck_rdreg (.inl rfl))
  case readPix =>
    rintro rfl rfl
    exact succeeds_of_passed (failedCheck_rdreg (.inr (.inl rfl)))
  case readStatus =>
    rintro rfl rfl
    rw [← status_eq_append]
    exact succeeds_of_passed (failedCheck_rdreg (.inr (.inr rfl)))
  case reserved => exact fun h => failsWith_reservedField (h.imp_right immAdmitted_index_of_three_lt)
  case unseeded =>
    rintro rfl rfl hunseeded
    exact failsWith_unseeded rfl rfl rfl hunseeded
  case statusAfterSeed =>
    obtain ⟨hregs, -⟩ := performed_of_passed (failedCheck_seed 0) ht
    have hstatus : t.regs.status = 6 := by
      rw [hregs]
      rfl
    rw [← hstatus]
    exact succeeds_of_passed (failedCheck_rdreg (.inr (.inr rfl)))

/-- Settles O4: NOP takes no operand, so any bit of RSV or IMM fails it. -/
theorem nopDoesNothingAndReturnsZero : Obligations.NopDoesNothingAndReturnsZero := by
  refine fun rsv imm s => ⟨rfl, rfl, ?effect, failsWith_reservedField_of_none (i := .nop rsv imm) rfl⟩
  case effect =>
    rintro rfl rfl
    exact succeeds_of_passed failedCheck_nop

/-- Settles O12: a CLRERR that fails its checks records RESERVED_FIELD as any failed command does, and clears
nothing. -/
theorem clrerrClearsTheErrorRecord : Obligations.ClrerrClearsTheErrorRecord := by
  refine ⟨fun rsv imm s => ?_, rfl⟩
  have hfails : rsv ≠ 0 ∨ imm ≠ 0 → FailsWith (.clrerr rsv imm) s 2 :=
    failsWith_reservedField_of_none (i := .clrerr rsv imm) rfl
  refine ⟨rfl, ?effect, hfails, fun hreserved t ht => ?notCleared⟩
  case effect =>
    rintro rfl rfl
    exact succeeds_of_passed failedCheck_clrerr
  case notCleared =>
    obtain ⟨hregs, -⟩ := failed_of_failsWith (hfails hreserved) ht
    rw [hregs]
    exact ⟨rfl, rfl⟩

/-- Settles O14: an RDREG that passes leaves the registers as they were, and `outcomeOf_rdreg_again` gives the second
one the outcome of the first. -/
theorem rdregHasNoSideEffect : Obligations.RdregHasNoSideEffect := by
  intro rsv imm s t ht
  have houtside := outsideUnchanged_of_exec ht
  refine ⟨?registers, houtside, _, exec_eq_commit_outcomeOf _ t, ?again⟩
  case registers =>
    rcases outcomeOf_cases (.rdreg rsv imm) s.regs with ⟨c, hfail, -⟩ | ⟨hpass, -⟩
    · exact .inr ⟨c.code, failed_of_failedCheck hfail ht⟩
    · obtain ⟨hregs, -⟩ := performed_of_passed hpass ht
      exact .inl hregs
  case again =>
    obtain ⟨hactive, -⟩ := houtside
    rw [resp_of_exec ht, regs_of_exec ht, outcomeOf_rdreg_again, State.commit_regs, ← hactive, State.port_commit_same]
    exact ⟨rfl, rfl⟩

end Sys2Proof.Machine

namespace Sys2Proof.Machine

/-! ## What one host event does, once it need not wait (44_host_sequences.md R141, R148-R152) -/

section events
variable {s : State} {k : Nat}

theorem performEvent_send {src : CommandSource} {w : CommandWord} (hk : unitExists k = true)
    (hw : s.resolve src = some w) : performEvent (.send k src) s = .next (s.handOver k w) := by
  simp [performEvent, hk, hw]

theorem performEvent_send_drawNotTaken {src : CommandSource} (hk : unitExists k = true) (hw : s.resolve src = none) :
    performEvent (.send k src) s = .refused (.nonconformingHost .drawNotTaken) := by
  simp [performEvent, hk, hw]

theorem performEvent_checkDimensions (width height : Word) (s : State) :
    performEvent (.host (.checkDimensions width height)) s =
      if 2 ^ 32 - 1 < width.toNat * height.toNat then .fault .dimensionOverflow else .next s :=
  if_congr decide_eq_true_iff rfl rfl

theorem hostTakeMaster_of_resp {v : Word} (h : (s.port k).resp = some v) :
    hostTakeMaster k s = .next { s with hostMaster := v } := by
  simp [hostTakeMaster, h]

theorem hostTakeMaster_stuck (h : (s.port k).resp = none) : hostTakeMaster k s = .fault (.noResponse k) := by
  simp [hostTakeMaster, h]

theorem hostTakeDraw_of_resp {v : Word} (row : Nat) (h : (s.port k).resp = some v) : hostTakeDraw k row s =
    .next { s with hostMaster := v, hostDraws := sparseInsert s.hostDraws row v } := by
  simp [hostTakeDraw, h]

theorem hostTakeDraw_stuck (row : Nat) (h : (s.port k).resp = none) :
    hostTakeDraw k row s = .fault (.noResponse k) := by
  simp [hostTakeDraw, h]

theorem hostStorePixel_of_resp {b : Buffer} {slot : Nat} {p : Word} (hb : s.buffer = some b)
    (hslot : b.holdsSlot slot = true) (hnew : slot ∉ b.written) (hp : (s.port k).resp = some p) :
    hostStorePixel k slot s =
      .next { s.writePixel (b.slotAddress slot) p with buffer := some (b.markWritten slot) } := by
  simp [hostStorePixel, hb, hslot, hnew, hp]

theorem hostHandOff_of_complete {b : Buffer} {width height : Word} (hb : s.buffer = some b)
    (hbytes : b.bytes = 3 * pixelCount width height) (hall : ∀ slot < pixelCount width height, slot ∈ b.written) :
    hostHandOff width height s = .next { s with buffer := none, handedOff := b :: s.handedOff } := by
  simp [hostHandOff, hb, hbytes, (b.allWritten_iff _).2 hall]

end events

/-! ### The events around a run's commands -/

section runs
variable {s : State} {base : Nat} {width height : Word} {rest : List Event}

theorem runsTo_one {s t : State} (h : step s = .next t) : RunsTo 1 s t := runsTo_succ.2 ⟨t, h, rfl⟩

/-- A run whose dimensions fit, and whose buffer may be allocated, has it allocated after two steps. -/
theorem runsTo_allocated
    (ha : s.agenda = .host (.checkDimensions width height) :: .host (.allocate base width height) :: rest)
    (hfits : width.toNat * height.toNat ≤ 2 ^ 32 - 1) (hready : s.readyFor (newBuffer base width height)) :
    ∃ t, RunsTo 2 s t ∧ t.agenda = rest ∧ t.buffer = some (newBuffer base width height) ∧ t.handedOff = s.handedOff ∧
      (∀ a, t.memRead a = if base ≤ a ∧ a < base + 3 * pixelCount width height then some 0 else s.memRead a) ∧
      ∀ k, t.unit k = s.unit k ∧ t.port k = s.port k := by
  have hcheck : step s = .next { s with agenda := .host (.allocate base width height) :: rest } :=
    (step_of_awaits_none ha rfl).trans ((performEvent_checkDimensions ..).trans (if_neg (Nat.not_lt.2 hfits)))
  have hallocate : step { s with agenda := .host (.allocate base width height) :: rest } =
      .next (({ s with agenda := rest } : State).allocateBuffer base width height) :=
    (step_of_awaits_none (e := .host (.allocate base width height)) (rest := rest) rfl rfl).trans
      (hostAllocate_of_readyFor hready)
  exact ⟨_, runsTo_succ.2 ⟨_, hcheck, runsTo_one hallocate⟩, allocateBuffer_agenda .., allocateBuffer_buffer ..,
    allocateBuffer_handedOff .., memRead_allocateBuffer _ base width height,
    fun k => ⟨allocateBuffer_unit .., allocateBuffer_port ..⟩⟩

/-- A complete buffer is handed off in one step. -/
theorem runsTo_handedOff {b : Buffer} (ha : s.agenda = .host (.handOff width height) :: rest) (hb : s.buffer = some b)
    (hbytes : b.bytes = 3 * pixelCount width height) (hall : ∀ slot < pixelCount width height, slot ∈ b.written) :
    RunsTo 1 s { s with agenda := rest, buffer := none, handedOff := b :: s.handedOff } :=
  runsTo_one ((step_of_awaits_none ha rfl).trans
    (hostHandOff_of_complete (s := { s with agenda := rest }) hb hbytes hall))

end runs

/-- A run with a zero dimension has no slot (44_host_sequences.md R142). -/
theorem pixelCount_eq_zero {width height : Word} (h : width = 0 ∨ height = 0) : pixelCount width height = 0 := by
  obtain rfl | rfl := h
  · exact Nat.zero_mul _
  · exact Nat.mul_zero _

/-- An empty buffer may be allocated anywhere. -/
theorem readyFor_of_empty {s : State} {b : Buffer} (hnone : s.buffer = none) (hempty : b.bytes = 0) : s.readyFor b :=
  ⟨hnone, fun _ _ => (Buffer.meets_eq_false ..).2 (.inl hempty)⟩

/-- A command's word has the command's outcome. -/
theorem wordOutcome_encode (i : Instr) (u : UnitState) : wordOutcome (encode i) u = outcomeOf i u := by
  rw [wordOutcome, decode_encode]

/-- A unit that completes a command whose checks pass. -/
theorem afterCompletion_of_passed {i : Instr} {u : UnitState} {r : Option Word} (hpass : failedCheck i u = none) :
    afterCompletion u { cmd := some (encode i), resp := r } =
      ((effectOf i u).1, { cmd := none, resp := some (effectOf i u).2 }) := by
  simp only [afterCompletion, wordOutcome_encode, outcomeOf_of_passed hpass]

theorem busy_handOver (s : State) (k : Nat) (w : CommandWord) : (s.handOver k w).busy k = true := by
  rw [State.busy, State.port_handOver_same, Option.isSome_some]

theorem handOver_hostUnchanged (s : State) (k : Nat) (w : CommandWord) : HostUnchanged s (s.handOver k w) :=
  ⟨rfl, rfl, rfl, rfl, rfl, rfl⟩

/-- A DRAW sent to an idle, seeded unit, whose pixel the next event awaits, is answered after two steps. -/
theorem runsTo_drawn {s : State} {k slot : Nat} {rest : List Event}
    (ha : s.agenda = sendCommand k (.draw 0 0) :: .host (.storePixel k slot) :: rest) (hk : unitExists k = true)
    (hidle : s.busy k = false) (hseeded : (s.unit k).seeded = true) :
    ∃ t, RunsTo 2 s t ∧ (t.unit k).x = mix (s.unit k).x ∧
      t.port k = { cmd := none, resp := some (pixelEncode (mix (s.unit k).x) (s.unit k).mode) } ∧
      HostUnchanged { s with agenda := .host (.storePixel k slot) :: rest } t := by
  have hsend := (step_of_awaits_idle ha rfl hidle).trans (performEvent_send hk rfl)
  obtain ⟨t, ht, hcompleted⟩ := completeCommand_completes k
    (({ s with agenda := .host (.storePixel k slot) :: rest } : State).handOver k (encode (.draw 0 0)))
  have hawait := (step_of_awaits_busy rfl rfl (busy_handOver ..)).trans ht
  have hregsPort := hcompleted.regsPort.trans (congrArg (afterCompletion (s.unit k)) (State.port_handOver_same ..))
  rw [afterCompletion_of_passed (failedCheck_draw hseeded)] at hregsPort
  obtain ⟨hregs, hport⟩ := Prod.mk.inj hregsPort
  exact ⟨t, runsTo_succ.2 ⟨_, hsend, runsTo_one hawait⟩, congrArg UnitState.x hregs, hport,
    (handOver_hostUnchanged ..).trans hcompleted.host⟩

/-! ## The zero states of a run (44_host_sequences.md R155) -/

/-- Multiplication by an odd word loses nothing: 2^32 has no divisor but 1 in common with it. -/
theorem mul_right_injective_of_odd {m : Word} (hodd : m.getLsbD 0 = true) :
    Function.Injective fun x : Word => x * m := by
  intro x y hxy
  have hcoprime : Nat.gcd (2 ^ 32) m.toNat = 1 := by
    rw [BitVec.getLsbD, Nat.testBit_zero, decide_eq_true_eq] at hodd
    exact (Nat.coprime_two_left.2 (Nat.odd_iff.2 hodd)).pow_left 32
  have hmod : x.toNat * m.toNat ≡ y.toNat * m.toNat [MOD 2 ^ 32] := by
    have h := congrArg BitVec.toNat hxy
    rwa [BitVec.toNat_mul, BitVec.toNat_mul] at h
  have h : x.toNat % 2 ^ 32 = y.toNat % 2 ^ 32 := Nat.ModEq.cancel_right_of_coprime hcoprime hmod
  rw [Nat.mod_eq_of_lt x.isLt, Nat.mod_eq_of_lt y.isLt] at h
  exact BitVec.eq_of_toNat_eq h

/-- With SEED_MUL odd the master pre-state is a bijection of the seed (44_host_sequences.md R155). -/
theorem masterSeed_bijective {c : Config.SeedConstants} (hodd : c.seedMul.getLsbD 0 = true) :
    Function.Bijective (masterSeed c) :=
  Finite.injective_iff_bijective.1 fun _ _ h => mul_right_injective_of_odd hodd ((BitVec.add_left_inj _).1 h)

theorem aff_zero (mul add : Word) : aff 0 mul add = add := by
  simp [aff]

/-! ## The obligations of 44_host_sequences.md about single actions and values -/

/-- Settles O43: the event happens at once, and finds the response or not. -/
theorem hostTakesAResponseOrIsStuck : Obligations.HostTakesAResponseOrIsStuck := by
  refine fun s k rest hidle => ⟨fun ha => ?master, fun row ha => ?draw⟩
  all_goals have hstep := step_of_awaits_idle ha rfl hidle
  case master => exact ⟨fun hnone => hstep.trans (hostTakeMaster_stuck hnone),
    fun v hv => hstep.trans (hostTakeMaster_of_resp hv)⟩
  case draw =>
    refine ⟨fun hnone => hstep.trans (hostTakeDraw_stuck row hnone), fun v hv => ?_⟩
    exact ⟨_, hstep.trans (hostTakeDraw_of_resp row hv), rfl, rfl, sparseFind_insert_same ..,
      fun j hj => sparseFind_insert_ne _ _ hj, rfl, rfl, fun j => ⟨rfl, rfl⟩, fun a => rfl⟩

/-- Settles O55: the send happens at once, and the word in flight is the one its source resolves to. -/
theorem hostSeedsComeFromItsDraws : Obligations.HostSeedsComeFromItsDraws := by
  intro s k rest hidle hk
  have sent : ∀ {src w}, s.agenda = .send k src :: rest → s.resolve src = some w →
      ∃ t, step s = .next t ∧ t.agenda = rest ∧ (t.port k).cmd = some w := fun ha hw =>
    ⟨_, (step_of_awaits_idle ha rfl hidle).trans (performEvent_send hk hw), rfl, by rw [State.port_handOver_same]⟩
  refine ⟨fun ha => sent ha rfl, fun mul add ha => sent ha rfl, fun row mul add ha => ⟨fun d hd => sent ha ?taken,
    fun hnone => (step_of_awaits_idle ha rfl hidle).trans (performEvent_send_drawNotTaken hk ?missing)⟩⟩
  case taken =>
    rw [State.resolve, hd]
    rfl
  case missing => rw [State.resolve, hnone, Option.map_none]

/-- Settles O40: every run begins with the dimension check, which awaits no unit. -/
theorem overflowingRunIsRejectedFirst : Obligations.OverflowingRunIsRejectedFirst := by
  refine ⟨fun run es s ha => ?_, by decide⟩
  have hstep := (step_of_awaits_none ha rfl).trans (performEvent_checkDimensions run.width run.height _)
  refine ⟨fun hover => hstep.trans (if_pos hover), fun hfits => hstep.trans ((if_neg (Nat.not_lt.2 hfits)).trans ?_)⟩
  rw [ha]
  rfl

/-- Settles O41: the run is its check, an allocation of no byte and a hand-off with no slot to write. -/
theorem zeroDimensionGivesAnEmptyBuffer : Obligations.ZeroDimensionGivesAnEmptyBuffer := by
  intro run es s ha hnone hzero
  have hcount : pixelCount run.width run.height = 0 := pixelCount_eq_zero hzero
  have hfits : run.width.toNat * run.height.toNat ≤ 2 ^ 32 - 1 := hcount.trans_le (Nat.zero_le _)
  have hbuffer : newBuffer run.base run.width run.height = { base := run.base, bytes := 0, written := [] } := by
    rw [newBuffer, hcount]
  rw [runAround, if_pos hzero] at ha
  obtain ⟨t, ht, hagenda, hopen, hhanded, hmem, hunitPort⟩ :=
    runsTo_allocated ha hfits (readyFor_of_empty hnone (congrArg Buffer.bytes hbuffer))
  have hhandedOff := runsTo_handedOff hagenda hopen rfl fun slot hslot => absurd (hcount ▸ hslot) (Nat.not_lt_zero slot)
  refine ⟨_, runsTo_add ht hhandedOff, rfl, rfl, by rw [hbuffer, hhanded], fun a => ?memory, hunitPort⟩
  case memory =>
    refine (hmem a).trans (if_neg ?_)
    rw [hcount]
    omega

/-- Settles O38: `runsTo_drawn`, and then the store, whose three bytes are those of `memRead_writePixel`. -/
theorem drawnPixelIsStoredByteByByte : Obligations.DrawnPixelIsStoredByteByByte := by
  intro run k i j rest b s ha hk hidle hseeded hb hslot hnew
  obtain ⟨u, hrun, hx, hport, hhost⟩ := runsTo_drawn ha hk hidle hseeded
  have hidle' : u.busy k = false := (not_busy_iff u k).2 (congrArg Port.cmd hport)
  have hresp := congrArg Port.resp hport
  have hstore := (step_of_awaits_idle hhost.agenda rfl hidle').trans
    (hostStorePixel_of_resp (s := { u with agenda := rest }) (hhost.buffer.trans hb) hslot hnew hresp)
  have hread := memRead_writePixel { u with agenda := rest } (b.slotAddress (pixelSlot run i j))
    (pixelEncode (mix (s.unit k).x) (s.unit k).mode)
  refine ⟨_, _, runsTo_add hrun (runsTo_one hstore), rfl, hresp, rfl, pixelEncode_top .., hx,
    ?_, ?_, ?_, fun a hout => ?others, rfl, hhost.handedOff, hhost.hostMaster, hhost.hostDraws⟩
  case others => exact (hread a).trans ((if_neg (by omega)).trans (hhost.memRead a))
  all_goals exact (hread _).trans (by simp [channelByte])

/-- Settles O48: `masterSeed_bijective` has one zero, and mixing and encoding keep it. -/
theorem zeroStatesOfARun : Obligations.ZeroStatesOfARun := by
  intro c hc
  have hodd : c.seedMul.getLsbD 0 = true := (Bool.and_eq_true_iff.1 hc).1
  refine ⟨?oneSeed, fun seed hseed => ?zeroMaster, fun seed i hrow => ?zeroRow⟩
  case oneSeed =>
    obtain ⟨hinj, hsurj⟩ := masterSeed_bijective hodd
    obtain ⟨z, hz⟩ := hsurj 0
    exact ⟨z, hz, fun seed hseed => hinj (hseed.trans hz.symm)⟩
  case zeroMaster =>
    have hstart : masterStart c seed = 0 := (mixN_eq_zero_iff _ _).2 hseed
    have hdraw : ∀ i, masterDraw c seed i = 0 := fun i => (mixN_eq_zero_iff _ _).2 hstart
    exact ⟨hstart, fun i => ⟨hdraw i, by rw [rowSeed, hdraw, aff_zero]⟩⟩
  case zeroRow =>
    have hstart : rowStart c seed i = 0 := (mixN_eq_zero_iff _ _).2 hrow
    refine ⟨hstart, fun m j => ?_⟩
    have hraw : rawAt c seed i j = 0 := (mixN_eq_zero_iff _ _).2 hstart
    exact pixelEncode_eq_zero (by rw [hraw]; rfl) m

/-- Settles O49: every byte of a slot is the low byte of its raw value, and the sample is 0 exactly where that is. -/
theorem grayscaleRasterHasEqualChannels : Obligations.GrayscaleRasterHasEqualChannels := by
  rintro c run s t i j ch ⟨hpixels, -⟩ hmode hi hj hch
  have hbyte : ∀ ch < 3, t.memRead (pixelAddress run i j + ch) = some ((rawAt c run.seed i j).extractLsb' 0 8) :=
    fun ch hch => by rw [hpixels i j ch hi hj hch, sampleAt, hmode, channelByte_pixelEncode_grayscale _ hch]
  refine ⟨(hbyte ch hch).trans (hbyte 0 (by decide)).symm, ?_⟩
  rw [hbyte ch hch, Option.some_inj, sampleAt, hmode]
  refine ⟨fun hlow => ?_, fun hzero => ?_⟩
  · rw [pixelEncode_grayscale, hlow]
    rfl
  · rw [← channelByte_pixelEncode_grayscale _ hch, hzero]
    exact BitVec.extractLsb'_zero

end Sys2Proof.Machine

namespace Sys2Proof.Machine

/-! ## A unit as the host meets it (70_reset_and_hazards.md R194, 20_memory.md R51)

Every event of a run that concerns a unit first awaits what is in flight there, so that when the unit completes makes no
difference. `State.thread` is what the host finds there in any case, and `RunPlan.follow` how the events of that unit
change it, without any other unit. -/

/-- What a run is to store in each slot and to draw for each row (44_host_sequences.md R144, R146). -/
structure RunPlan where
  pixel : Nat → Word
  draw : Nat → Word

/-- A unit once nothing is in flight there: its registers and its last response, with the host's master variable where
this is the unit that the master generator runs on. -/
structure UnitThread where
  regs : UnitState
  resp : Option Word
  master : Option Word

/-- Unit `k` as the host will meet it, the master generator running on unit `mk`. -/
def State.thread (s : State) (mk k : Nat) : UnitThread where
  regs := (afterCompletion (s.unit k) (s.port k)).1
  resp := (afterCompletion (s.unit k) (s.port k)).2.resp
  master := if k = mk then some s.hostMaster else none

/-- The unit after a word sent to it has been performed. -/
def UnitThread.perform (v : UnitThread) (w : CommandWord) : UnitThread :=
  { v with regs := (wordOutcome w v.regs).1, resp := some (wordOutcome w v.regs).2 }

/-- The word a source stands for: only the master unit's own events use the master variable, and a row's draw is the
planned one. -/
def RunPlan.word (p : RunPlan) (v : UnitThread) : CommandSource → Option CommandWord
  | .word w => some w
  | .seedMaster => v.master.map fun m => encode (.seed 0 m)
  | .seedAffine mul add => v.master.map fun m => encode (.seed 0 (aff m mul add))
  | .seedRow row mul add => some (encode (.seed 0 (aff (p.draw row) mul add)))

/-- What an event that awaits the unit makes of it: none where it would not store the planned pixel or take the planned
draw, or would use the master variable from another unit. -/
def RunPlan.follow (p : RunPlan) (v : UnitThread) : Event → Option UnitThread
  | .send _ src => (p.word v src).map v.perform
  | .host (.takeMaster _) => v.master.bind fun _ => v.resp.map fun r => { v with master := some r }
  | .host (.takeDraw _ row) =>
    if v.master.isSome ∧ v.resp = some (p.draw row) then some { v with master := some (p.draw row) } else none
  | .host (.storePixel _ slot) => if v.resp = some (p.pixel slot) then some v else none
  | _ => none

/-- The events of one unit, one after the other. -/
def RunPlan.followAll (p : RunPlan) (v : UnitThread) (es : List Event) : Option UnitThread := es.foldlM p.follow v

theorem RunPlan.followAll_nil (p : RunPlan) (v : UnitThread) : p.followAll v [] = some v := rfl

theorem RunPlan.followAll_cons (p : RunPlan) (v : UnitThread) (e : Event) (es : List Event) :
    p.followAll v (e :: es) = (p.follow v e).bind fun v' => p.followAll v' es := List.foldlM_cons

theorem RunPlan.followAll_append (p : RunPlan) (v : UnitThread) (es fs : List Event) :
    p.followAll v (es ++ fs) = (p.followAll v es).bind fun v' => p.followAll v' fs := List.foldlM_append

/-! ### Which units an event concerns -/

theorem eventsOf_cons_same {k : Nat} {e : Event} (es : List Event) (h : e.awaits = some k) :
    eventsOf k (e :: es) = e :: eventsOf k es := List.filter_cons_of_pos (by simp [h])

theorem eventsOf_cons_ne {k : Nat} {e : Event} (es : List Event) (h : e.awaits ≠ some k) :
    eventsOf k (e :: es) = eventsOf k es := List.filter_cons_of_neg (by simp [h])

/-! ### The thread of a unit after each thing a step can do -/

section threads
variable {s t : State} {k mk : Nat}

/-- A command completes once. -/
theorem afterCompletion_again (u : UnitState) (p : Port) :
    afterCompletion (afterCompletion u p).1 (afterCompletion u p).2 = afterCompletion u p := by
  cases h : p.cmd <;> simp [afterCompletion, h]

theorem CompletedAt.thread (h : CompletedAt k s t) (mk j : Nat) : t.thread mk j = s.thread mk j := by
  have hpair : afterCompletion (t.unit j) (t.port j) = afterCompletion (s.unit j) (s.port j) := by
    by_cases hj : j = k
    · have hunit : t.unit k = (afterCompletion (s.unit k) (s.port k)).1 := congrArg Prod.fst h.regsPort
      have hport : t.port k = (afterCompletion (s.unit k) (s.port k)).2 := congrArg Prod.snd h.regsPort
      rw [hj, hunit, hport, afterCompletion_again]
    · rw [(h.others j hj).1, (h.others j hj).2]
  rw [State.thread, State.thread, hpair, h.host.hostMaster]

/-- A unit with nothing in flight is met as it is. -/
theorem thread_of_idle (hidle : s.busy k = false) (mk : Nat) : s.thread mk k =
    { regs := s.unit k, resp := (s.port k).resp, master := if k = mk then some s.hostMaster else none } := by
  rw [not_busy_iff] at hidle
  simp [State.thread, afterCompletion, hidle]

theorem resp_thread_of_idle (hidle : s.busy k = false) (mk : Nat) : (s.thread mk k).resp = (s.port k).resp := by
  rw [thread_of_idle hidle]

theorem CompletedAt.idle (h : CompletedAt k s t) : t.busy k = false := by
  have hport : t.port k = (afterCompletion (s.unit k) (s.port k)).2 := congrArg Prod.snd h.regsPort
  rw [not_busy_iff, hport]
  cases hcmd : (s.port k).cmd <;> simp [afterCompletion, hcmd]

theorem thread_handOver_same (hidle : s.busy k = false) (mk : Nat) (w : CommandWord) :
    (s.handOver k w).thread mk k = (s.thread mk k).perform w := by
  rw [thread_of_idle hidle]
  simp [State.thread, afterCompletion, UnitThread.perform]

theorem thread_handOver_ne {j : Nat} (hj : j ≠ k) (mk : Nat) (w : CommandWord) :
    (s.handOver k w).thread mk j = s.thread mk j := by
  simp [State.thread, State.port_handOver_ne s k w hj]

/-- A thread depends on its unit, its port and the master variable alone. -/
theorem thread_congr (hunit : t.unit k = s.unit k) (hport : t.port k = s.port k)
    (hmaster : k = mk → t.hostMaster = s.hostMaster) : t.thread mk k = s.thread mk k := by
  rw [State.thread, State.thread, hunit, hport]
  by_cases hk : k = mk
  · rw [hmaster hk]
  · simp [hk]

theorem thread_of_newMaster (hunit : t.unit k = s.unit k) (hport : t.port k = s.port k) :
    t.thread k k = { s.thread k k with master := some t.hostMaster } := by
  rw [State.thread, State.thread, hunit, hport, if_pos rfl]

theorem eq_of_thread_master {m : Word} (h : (s.thread mk k).master = some m) : k = mk ∧ s.hostMaster = m := by
  by_cases hk : k = mk <;> simp_all [State.thread]

end threads

/-! ## What a run's events store (44_host_sequences.md R147, R148) -/

/-- The slot that an event writes. -/
def Event.storedSlot : Event → Option Nat
  | .host (.storePixel _ slot) => some slot
  | _ => none

/-- The slots that an agenda writes, in order. -/
def storedSlots (es : List Event) : List Nat := es.filterMap Event.storedSlot

/-- From `s` to `t` the slots `slots` of the open buffer `b` have got their planned pixels, no other byte has changed,
and the open buffer, now `c`, has them on record. -/
structure Stored (p : RunPlan) (slots : List Nat) (b : Buffer) (s : State) (c : Buffer) (t : State) : Prop where
  buffer : t.buffer = some c
  base : c.base = b.base
  bytes : c.bytes = b.bytes
  written : ∀ slot, slot ∈ c.written ↔ slot ∈ b.written ∨ slot ∈ slots
  rising : b.written.Pairwise (· < ·) → c.written.Pairwise (· < ·)
  handedOff : t.handedOff = s.handedOff
  pixels : ∀ slot ∈ slots, ∀ ch < 3, t.memRead (b.slotAddress slot + ch) = some (channelByte (p.pixel slot) ch)
  others : ∀ a, (∀ slot ∈ slots, a < b.slotAddress slot ∨ b.slotAddress slot + 3 ≤ a) → t.memRead a = s.memRead a

section stored
variable {p : RunPlan} {b c d : Buffer} {s t u : State}

theorem Stored.of_unchanged (hb : s.buffer = some b) (hbuffer : t.buffer = s.buffer)
    (hhanded : t.handedOff = s.handedOff) (hmem : ∀ a, t.memRead a = s.memRead a) : Stored p [] b s b t :=
  ⟨hbuffer.trans hb, rfl, rfl, by simp, id, hhanded, by simp, fun a _ => hmem a⟩

theorem Stored.of_hostUnchanged {slots : List Nat} (h : Stored p slots b t c u) (hhost : HostUnchanged s t) :
    Stored p slots b s c u :=
  ⟨h.buffer, h.base, h.bytes, h.written, h.rising, h.handedOff.trans hhost.handedOff, h.pixels,
    fun a ha => (h.others a ha).trans (hhost.memRead a)⟩

theorem Stored.storePixel {slot : Nat} (hnew : slot ∉ b.written) (es : List Event) :
    Stored p [slot] b s (b.markWritten slot)
    { ({ s with agenda := es } : State).writePixel (b.slotAddress slot) (p.pixel slot) with
      buffer := some (b.markWritten slot) } := by
  have hread := memRead_writePixel { s with agenda := es } (b.slotAddress slot) (p.pixel slot)
  refine ⟨rfl, rfl, rfl, fun k => by simp [or_comm], fun h => Buffer.markWritten_rising h hnew, rfl, ?pixels, ?others⟩
  case pixels =>
    intro k hk ch hch
    rw [List.mem_singleton.1 hk]
    exact (hread _).trans (by simp [hch])
  case others =>
    intro a ha
    have hout := ha slot (List.mem_singleton_self slot)
    exact (hread a).trans (if_neg (by omega))

/-- A slot written first keeps its pixel, since the later ones are other slots. -/
theorem Stored.trans {l m : List Nat} (h : Stored p l b s c t) (h' : Stored p m c t d u) (hdisjoint : l.Disjoint m) :
    Stored p (l ++ m) b s d u := by
  have haddress : ∀ slot, c.slotAddress slot = b.slotAddress slot := fun slot => by
    rw [Buffer.slotAddress, Buffer.slotAddress, h.base]
  refine ⟨h'.buffer, h'.base.trans h.base, h'.bytes.trans h.bytes, fun slot => ?written, h'.rising ∘ h.rising,
    h'.handedOff.trans h.handedOff, fun slot hslot ch hch => ?pixels, fun a ha => ?others⟩
  case written => rw [h'.written, h.written, List.mem_append, or_assoc]
  case pixels =>
    rcases List.mem_append.1 hslot with hl | hm
    · rw [h'.others _ fun other hother => ?_, h.pixels slot hl ch hch]
      have hne : slot ≠ other := fun heq => hdisjoint hl (heq ▸ hother)
      rw [haddress]
      simp only [Buffer.slotAddress]
      omega
    · rw [← haddress, h'.pixels slot hm ch hch]
  case others =>
    rw [h'.others a fun slot hslot => ?_, h.others a fun slot hslot => ha slot (List.mem_append_left m hslot)]
    rw [haddress]
    exact ha slot (List.mem_append_right l hslot)

end stored

/-! ## The run of an agenda that follows a plan -/

/-- Every row's seed still to be sent has its draw taken already, as planned, or taken before it. -/
def DrawsReady (p : RunPlan) (es : List Event) (s : State) : Prop :=
  ∃ taken, drawsBeforeRows taken es = true ∧ ∀ row ∈ taken, sparseFind s.hostDraws row = some (p.draw row)

/-- An event that concerns one existing unit and awaits it, or a completion, which may come at any time: all that the
command sequences of a run hold (44_host_sequences.md R151). -/
def Event.OfUnits (e : Event) : Prop := (∃ k, e.awaits = some k ∧ unitExists k = true) ∨ ∃ k, e = .complete k

/-- In `s` the events `es` can be performed: every unit follows the plan up to its thread in `final`, and every slot to
be stored is free in the open buffer `b`. -/
structure Ready (p : RunPlan) (mk : Nat) (final : Nat → UnitThread) (es : List Event) (b : Buffer) (s : State) :
    Prop where
  events : ∀ e ∈ es, e.OfUnits
  slotsNodup : (storedSlots es).Nodup
  buffer : s.buffer = some b
  slotsFree : ∀ slot ∈ storedSlots es, b.holdsSlot slot = true ∧ slot ∉ b.written
  draws : DrawsReady p es s
  threads : ∀ k, p.followAll (s.thread mk k) (eventsOf k es) = some (final k)

section ready
variable {p : RunPlan} {mk : Nat} {final : Nat → UnitThread} {e : Event} {es rest : List Event} {b c : Buffer}
  {s t : State}

theorem storedSlots_cons (e : Event) (es : List Event) : storedSlots (e :: es) = storedSlots [e] ++ storedSlots es :=
  List.filterMap_append (l := [e])

theorem storedSlots_append (es fs : List Event) : storedSlots (es ++ fs) = storedSlots es ++ storedSlots fs :=
  List.filterMap_append

/-- A draw taken as planned serves the seeds that come after it. -/
theorem DrawsReady.of_takeDraw {k row : Nat} (h : DrawsReady p (.host (.takeDraw k row) :: es) s)
    (ht : t.hostDraws = sparseInsert s.hostDraws row (p.draw row)) : DrawsReady p es t := by
  obtain ⟨taken, hbefore, htaken⟩ := h
  refine ⟨row :: taken, hbefore, fun j hj => ?_⟩
  rw [ht]
  by_cases hjr : j = row
  · rw [hjr, sparseFind_insert_same]
  · rw [sparseFind_insert_ne _ _ hjr]
    exact htaken j ((List.mem_cons.1 hj).resolve_left hjr)

/-- Any other event leaves the draws as they are. -/
theorem DrawsReady.tail (h : DrawsReady p (e :: es) s) (hne : ∀ k row, e ≠ .host (.takeDraw k row))
    (ht : t.hostDraws = s.hostDraws) : DrawsReady p es t := by
  obtain ⟨taken, hbefore, htaken⟩ := h
  refine ⟨taken, ?_, ht ▸ htaken⟩
  cases e with
  | send k src =>
    cases src with
    | seedRow => exact (Bool.and_eq_true_iff.1 hbefore).2
    | _ => exact hbefore
  | host a =>
    cases a with
    | takeDraw k row => exact absurd rfl (hne k row)
    | _ => exact hbefore
  | _ => exact hbefore

/-- The word the host sends is the one its thread stands for. -/
theorem DrawsReady.resolve {k : Nat} {src : CommandSource} {w : CommandWord} (h : DrawsReady p (.send k src :: es) s)
    (hw : p.word (s.thread mk k) src = some w) : s.resolve src = some w := by
  cases src with
  | word w' => exact hw
  | seedMaster =>
    obtain ⟨m, hm, rfl⟩ := Option.map_eq_some_iff.1 hw
    rw [State.resolve, (eq_of_thread_master hm).2]
  | seedAffine mul add =>
    obtain ⟨m, hm, rfl⟩ := Option.map_eq_some_iff.1 hw
    rw [State.resolve, (eq_of_thread_master hm).2]
  | seedRow row mul add =>
    obtain ⟨taken, hbefore, htaken⟩ := h
    obtain ⟨hmem, -⟩ := Bool.and_eq_true_iff.1 hbefore
    rw [State.resolve, htaken row (of_decide_eq_true hmem)]
    exact hw

/-- A unit's thread before an event that awaits it takes that event. -/
theorem Ready.follow {k : Nat} (h : Ready p mk final (e :: es) b s) (he : e.awaits = some k) :
    ∃ v, p.follow (s.thread mk k) e = some v ∧ p.followAll v (eventsOf k es) = some (final k) := by
  have hall := h.threads k
  rwa [eventsOf_cons_same es he, RunPlan.followAll_cons, Option.bind_eq_some_iff] at hall

/-- After an event that has stored what it is to store, and to which every unit's thread has conformed, the rest can be
performed. -/
theorem Ready.tail (h : Ready p mk final (e :: es) b s) (hstored : Stored p (storedSlots [e]) b s c t)
    (hdraws : DrawsReady p es t)
    (hthreads : ∀ k, p.followAll (t.thread mk k) (eventsOf k es) = some (final k)) : Ready p mk final es c t := by
  have hslots := storedSlots_cons e es
  obtain ⟨-, hnodup, hdisjoint⟩ := List.nodup_append'.1 (hslots ▸ h.slotsNodup)
  refine ⟨fun f hf => h.events f (List.mem_cons_of_mem e hf), hnodup, hstored.buffer, fun slot hslot => ?_, hdraws,
    hthreads⟩
  obtain ⟨hholds, hfree⟩ := h.slotsFree slot (hslots ▸ List.mem_append_right _ hslot)
  rw [Buffer.holdsSlot_iff] at hholds ⊢
  rw [hstored.written, hstored.bytes]
  exact ⟨hholds, not_or.2 ⟨hfree, fun hmem => hdisjoint hmem hslot⟩⟩

/-- Only the awaited unit's thread changes. -/
theorem Ready.threads_tail {k : Nat} {v : UnitThread} (h : Ready p mk final (e :: es) b s) (he : e.awaits = some k)
    (hv : p.followAll v (eventsOf k es) = some (final k)) (hsame : t.thread mk k = v)
    (hothers : ∀ j, j ≠ k → t.thread mk j = s.thread mk j) (j : Nat) :
    p.followAll (t.thread mk j) (eventsOf j es) = some (final j) := by
  by_cases hj : j = k
  · rw [hj, hsame, hv]
  · have hall := h.threads j
    rwa [eventsOf_cons_ne es (by rw [he]; simpa using Ne.symm hj), ← hothers j hj] at hall

/-- What is in flight may complete at any time. -/
theorem Ready.of_completed {k : Nat} (h : Ready p mk final es b s) (ht : CompletedAt k s t) :
    Ready p mk final es b t := by
  obtain ⟨taken, hbefore, htaken⟩ := h.draws
  exact ⟨h.events, h.slotsNodup, ht.host.buffer.trans h.buffer, h.slotsFree,
    ⟨taken, hbefore, ht.host.hostDraws ▸ htaken⟩, fun j => (ht.thread mk j).symm ▸ h.threads j⟩

/-- What the event `e` has to achieve from `s`, with `rest` left on the agenda. -/
def Performs (p : RunPlan) (mk : Nat) (final : Nat → UnitThread) (e : Event) (es rest : List Event) (b : Buffer)
    (s : State) : Prop :=
  ∃ t c, performEvent e { s with agenda := rest } = .next t ∧ t.agenda = rest ∧ Ready p mk final es c t ∧
    Stored p (storedSlots [e]) b s c t

theorem Ready.unitExists_of_send {k : Nat} {src : CommandSource} (h : Ready p mk final (.send k src :: es) b s) :
    unitExists k = true := by
  obtain ⟨j, hj, hexists⟩ | ⟨j, hj⟩ := h.events _ List.mem_cons_self
  · exact Option.some.inj hj ▸ hexists
  · exact nomatch hj

theorem Ready.performs_send {k : Nat} {src : CommandSource} (h : Ready p mk final (.send k src :: es) b s)
    (hidle : s.busy k = false) (rest : List Event) : Performs p mk final (.send k src) es rest b s := by
  obtain ⟨v, hfollow, hv⟩ := h.follow rfl
  obtain ⟨w, hw, rfl⟩ := Option.map_eq_some_iff.1 hfollow
  have hstored : Stored p [] b s b (({ s with agenda := rest } : State).handOver k w) :=
    .of_unchanged h.buffer rfl rfl fun _ => rfl
  refine ⟨_, b, performEvent_send h.unitExists_of_send (h.draws.resolve hw), rfl,
    h.tail hstored (h.draws.tail (by simp) rfl) (h.threads_tail rfl hv ?same fun j hj => ?others), hstored⟩
  case same => exact thread_handOver_same (s := { s with agenda := rest }) hidle mk w
  case others => exact thread_handOver_ne (s := { s with agenda := rest }) hj mk w

theorem Ready.performs_complete {k : Nat} (h : Ready p mk final (.complete k :: es) b s) (rest : List Event) :
    Performs p mk final (.complete k) es rest b s := by
  obtain ⟨t, ht, hcompleted⟩ := completeCommand_completes k { s with agenda := rest }
  have hhost := hcompleted.host
  have hstored : Stored p [] b s b t := .of_unchanged h.buffer hhost.buffer hhost.handedOff hhost.memRead
  refine ⟨t, b, ht, hhost.agenda, h.tail hstored (h.draws.tail (by simp) hhost.hostDraws) fun j => ?_, hstored⟩
  rw [hcompleted.thread mk j]
  have hall := h.threads j
  rwa [eventsOf_cons_ne es (by simp [Event.awaits])] at hall

theorem Ready.performs_takeMaster {k : Nat} (h : Ready p mk final (.host (.takeMaster k) :: es) b s)
    (hidle : s.busy k = false) (rest : List Event) : Performs p mk final (.host (.takeMaster k)) es rest b s := by
  obtain ⟨v, hfollow, hv⟩ := h.follow rfl
  obtain ⟨m, hm, hfollow⟩ := Option.bind_eq_some_iff.1 hfollow
  obtain ⟨r, hr, rfl⟩ := Option.map_eq_some_iff.1 hfollow
  obtain ⟨rfl, -⟩ := eq_of_thread_master hm
  rw [resp_thread_of_idle hidle] at hr
  have hstored : Stored p [] b s b { s with agenda := rest, hostMaster := r } :=
    .of_unchanged h.buffer rfl rfl fun _ => rfl
  exact ⟨_, b, hostTakeMaster_of_resp hr, rfl, h.tail hstored (h.draws.tail (by simp) rfl)
    (h.threads_tail rfl hv (thread_of_newMaster rfl rfl) fun j hj => thread_congr rfl rfl fun heq => absurd heq hj),
    hstored⟩

theorem Ready.performs_takeDraw {k row : Nat} (h : Ready p mk final (.host (.takeDraw k row) :: es) b s)
    (hidle : s.busy k = false) (rest : List Event) : Performs p mk final (.host (.takeDraw k row)) es rest b s := by
  obtain ⟨v, hfollow, hv⟩ := h.follow rfl
  obtain ⟨⟨hm, hr⟩, hv'⟩ := Option.ite_none_right_eq_some.1 hfollow
  obtain rfl := Option.some.inj hv'
  obtain ⟨m, hm⟩ := Option.isSome_iff_exists.1 hm
  obtain ⟨rfl, -⟩ := eq_of_thread_master hm
  rw [resp_thread_of_idle hidle] at hr
  have hstored : Stored p [] b s b
      { s with agenda := rest, hostMaster := p.draw row, hostDraws := sparseInsert s.hostDraws row (p.draw row) } :=
    .of_unchanged h.buffer rfl rfl fun _ => rfl
  exact ⟨_, b, hostTakeDraw_of_resp row hr, rfl, h.tail hstored (h.draws.of_takeDraw rfl)
    (h.threads_tail rfl hv (thread_of_newMaster rfl rfl) fun j hj => thread_congr rfl rfl fun heq => absurd heq hj),
    hstored⟩

theorem Ready.performs_storePixel {k slot : Nat} (h : Ready p mk final (.host (.storePixel k slot) :: es) b s)
    (hidle : s.busy k = false) (rest : List Event) : Performs p mk final (.host (.storePixel k slot)) es rest b s := by
  obtain ⟨v, hfollow, hv⟩ := h.follow rfl
  obtain ⟨hr, hv'⟩ := Option.ite_none_right_eq_some.1 hfollow
  obtain rfl := Option.some.inj hv'
  rw [resp_thread_of_idle hidle] at hr
  obtain ⟨hholds, hfree⟩ := h.slotsFree slot List.mem_cons_self
  have hstored := Stored.storePixel (p := p) (s := s) hfree rest
  exact ⟨_, _, hostStorePixel_of_resp h.buffer hholds hfree hr, rfl, h.tail hstored (h.draws.tail (by simp) rfl)
    (h.threads_tail rfl hv (thread_congr rfl rfl fun _ => rfl) fun j _ => thread_congr rfl rfl fun _ => rfl), hstored⟩

/-- Every event that can be performed, is, once what it awaits is there. -/
theorem Ready.performs (h : Ready p mk final (e :: es) b s) (hidle : ∀ k, e.awaits = some k → s.busy k = false)
    (rest : List Event) : Performs p mk final e es rest b s := by
  have hevent := h.events e List.mem_cons_self
  cases e with
  | send k src => exact h.performs_send (hidle k rfl) rest
  | complete k => exact h.performs_complete rest
  | reset k => exact absurd hevent (by simp [Event.OfUnits, Event.awaits])
  | host a =>
    cases a with
    | takeMaster k => exact h.performs_takeMaster (hidle k rfl) rest
    | takeDraw k row => exact h.performs_takeDraw (hidle k rfl) rest
    | storePixel k slot => exact h.performs_storePixel (hidle k rfl) rest
    | checkDimensions | allocate | handOff => exact absurd hevent (by simp [Event.OfUnits, Event.awaits])

/-- An event that awaits no busy unit happens at once. -/
theorem step_of_awaits_settled (ha : s.agenda = e :: rest) (hidle : ∀ k, e.awaits = some k → s.busy k = false) :
    step s = performEvent e { s with agenda := rest } := by
  cases he : e.awaits with
  | none => exact step_of_awaits_none ha he
  | some k => exact step_of_awaits_idle ha he (hidle k he)

/-- What the first event awaits completes first; nothing but its port and its registers changes. -/
theorem Ready.settles (h : Ready p mk final (e :: es) b s) (ha : s.agenda = e :: rest) :
    ∃ n t, RunsTo n s t ∧ HostUnchanged s t ∧ Ready p mk final (e :: es) b t ∧
      ∀ k, e.awaits = some k → t.busy k = false := by
  by_cases hbusy : ∃ k, e.awaits = some k ∧ s.busy k = true
  · obtain ⟨k, he, hk⟩ := hbusy
    obtain ⟨t, ht, hcompleted⟩ := completeCommand_completes k s
    refine ⟨1, t, runsTo_one ((step_of_awaits_busy ha he hk).trans ht), hcompleted.host, h.of_completed hcompleted,
      fun j hj => ?_⟩
    rw [← Option.some.inj (he.symm.trans hj)]
    exact hcompleted.idle
  · exact ⟨0, s, rfl, .refl s, h, fun k he => by simpa using fun hk => hbusy ⟨k, he, hk⟩⟩

/-- An agenda that can be performed runs to its end: it stores its slots, and leaves every unit at the end of its
thread. -/
theorem Ready.runs (h : Ready p mk final es b s) (ha : s.agenda = es ++ rest) :
    ∃ n t c, RunsTo n s t ∧ t.agenda = rest ∧ Stored p (storedSlots es) b s c t ∧ ∀ k, t.thread mk k = final k := by
  induction es generalizing s b with
  | nil => exact ⟨0, s, b, rfl, ha, .of_unchanged h.buffer rfl rfl fun _ => rfl, fun k => Option.some.inj (h.threads k)⟩
  | cons e es ih =>
    obtain ⟨m, u, hu, hhost, hready, hidle⟩ := h.settles ha
    obtain ⟨v, c, hv, hagenda, hready', hstored⟩ := hready.performs hidle (es ++ rest)
    obtain ⟨n, t, d, ht, hrest, hstored', hfinal⟩ := ih hready' hagenda
    have hdisjoint : (storedSlots [e]).Disjoint (storedSlots es) :=
      (List.nodup_append'.1 (storedSlots_cons e es ▸ h.slotsNodup)).2.2
    have hstep : step u = .next v := (step_of_awaits_settled (hhost.agenda.trans ha) hidle).trans hv
    refine ⟨m + (n + 1), t, d, runsTo_add hu (runsTo_succ.2 ⟨v, hstep, ht⟩), hrest, ?_, hfinal⟩
    rw [storedSlots_cons]
    exact (hstored.of_hostUnchanged hhost).trans hstored' hdisjoint

end ready

end Sys2Proof.Machine

namespace Sys2Proof.Machine

/-! ## One unit through a row task (44_host_sequences.md R148, R149) -/

/-- The unit is seeded with X = `x`, draws in mode `mode`, and the host's master variable is `master` there. -/
structure UnitThread.Drawing (v : UnitThread) (mode : Mode) (master : Option Word) (x : Word) : Prop where
  seeded : v.regs.seeded = true
  mode : v.regs.mode = mode
  master : v.master = master
  x : v.regs.x = x

/-- The unit after a command whose checks pass. -/
def UnitThread.after (v : UnitThread) (i : Instr) : UnitThread :=
  { v with regs := (effectOf i v.regs).1, resp := some (effectOf i v.regs).2 }

section follow
variable {p : RunPlan} {v : UnitThread} {k : Nat} {run : RunInputs}

/-- A command whose checks pass has its effect, and its response is the unit's last. -/
theorem followAll_send {src : CommandSource} {i : Instr} (hw : p.word v src = some (encode i))
    (hpass : failedCheck i v.regs = none) (es : List Event) :
    p.followAll v (.send k src :: es) = p.followAll (v.after i) es := by
  rw [RunPlan.followAll_cons, RunPlan.follow, hw, Option.map_some, Option.bind_some, UnitThread.perform,
    wordOutcome_encode, outcomeOf_of_passed hpass, UnitThread.after]

theorem followAll_sendCommand {i : Instr} (hpass : failedCheck i v.regs = none) (es : List Event) :
    p.followAll v (sendCommand k i :: es) = p.followAll (v.after i) es :=
  followAll_send rfl hpass es

theorem followAll_storePixel {slot : Nat} (hresp : v.resp = some (p.pixel slot)) (es : List Event) :
    p.followAll v (.host (.storePixel k slot) :: es) = p.followAll v es := by
  rw [RunPlan.followAll_cons, RunPlan.follow, if_pos hresp, Option.bind_some]

theorem followAll_takeMaster {m r : Word} (hmaster : v.master = some m) (hresp : v.resp = some r) (es : List Event) :
    p.followAll v (.host (.takeMaster k) :: es) = p.followAll { v with master := some r } es := by
  rw [RunPlan.followAll_cons, RunPlan.follow, hmaster, hresp]
  rfl

theorem followAll_takeDraw {row : Nat} {m : Word} (hmaster : v.master = some m) (hresp : v.resp = some (p.draw row))
    (es : List Event) : p.followAll v (.host (.takeDraw k row) :: es) =
      p.followAll { v with master := some (p.draw row) } es := by
  rw [RunPlan.followAll_cons, RunPlan.follow, if_pos ⟨by rw [hmaster]; rfl, hresp⟩, Option.bind_some]

/-- The first `n` pixels of a row, left to right. -/
theorem followAll_drawPixels {mode : Mode} {master : Option Word} {x : Word} {i n : Nat}
    (h : v.Drawing mode master x) (hpixels : ∀ j < n, p.pixel (pixelSlot run i j) = pixelEncode (mixN (j + 1) x) mode) :
    ∃ v', p.followAll v ((List.range n).flatMap (drawPixel run k i)) = some v' ∧ v'.Drawing mode master (mixN n x) := by
  induction n with
  | zero => exact ⟨v, rfl, h⟩
  | succ n ih =>
    obtain ⟨u, hu, hdrawing⟩ := ih fun j hj => hpixels j (Nat.lt_succ_of_lt hj)
    obtain ⟨hseeded, hmode, hmaster, hx⟩ := hdrawing
    have hresp : (u.after (.draw 0 0)).resp = some (p.pixel (pixelSlot run i n)) := by
      rw [hpixels n (Nat.lt_succ_self n), mixN_succ, ← hx, ← hmode]
      rfl
    refine ⟨u.after (.draw 0 0), ?_, ⟨hseeded, hmode, hmaster, ?_⟩⟩
    · rw [List.range_succ, List.flatMap_append, RunPlan.followAll_append, hu, Option.bind_some, List.flatMap_singleton,
        drawPixel, followAll_sendCommand (failedCheck_draw hseeded), followAll_storePixel hresp, RunPlan.followAll_nil]
    · rw [mixN_succ, ← hx]
      rfl

/-- The row task, whatever the unit held before: it only needs the row's seed to be `SEED x`. -/
theorem followAll_rowTask {src : CommandSource} {x : Word} {i : Nat} (hw : p.word v src = some (encode (.seed 0 x)))
    (hpixels : ∀ j < run.width.toNat,
      p.pixel (pixelSlot run i j) = pixelEncode (mixN (j + 1) (mixN Config.warmup x)) run.mode) :
    ∃ v', p.followAll v (rowTask run k i src) = some v' ∧
      v'.Drawing run.mode v.master (mixN run.width.toNat (mixN Config.warmup x)) := by
  have hmodeBit : run.mode.bit.setWidth 32 = (0 : Word) ∨ run.mode.bit.setWidth 32 = (1 : Word) := by
    cases run.mode <;> decide
  have hmode : Mode.ofBit ((run.mode.bit.setWidth 32).extractLsb' 0 1) = run.mode := by cases run.mode <;> decide
  rw [rowTask, List.cons_append, List.cons_append, List.cons_append, followAll_send hw (failedCheck_seed x),
    followAll_sendCommand (failedCheck_step _ rfl), followAll_sendCommand (failedCheck_setmode hmodeBit)]
  exact followAll_drawPixels ⟨rfl, hmode, rfl, rfl⟩ hpixels

end follow

/-! ## What each command sequence holds -/

/-- The slots of row `i` (20_memory.md R41). -/
def rowSlots (run : RunInputs) (i : Nat) : List Nat := (List.range run.width.toNat).map (pixelSlot run i)

theorem storedSlots_flatMap {α : Type} (l : List α) (f : α → List Event) :
    storedSlots (l.flatMap f) = l.flatMap fun a => storedSlots (f a) := List.filterMap_flatMap

theorem storedSlots_rowTask (run : RunInputs) (k i : Nat) (src : CommandSource) :
    storedSlots (rowTask run k i src) = rowSlots run i := by
  have hpixels : storedSlots (drawRow run k i) = rowSlots run i := by
    rw [drawRow, storedSlots_flatMap, rowSlots]
    exact List.flatMap_pure_eq_map ..
  exact hpixels

/-- All a row task holds: the row's seed, commands that the host holds, and stores. -/
theorem mem_rowTask {run : RunInputs} {k i : Nat} {src : CommandSource} {e : Event} (h : e ∈ rowTask run k i src) :
    e = .send k src ∨ (∃ c, e = sendCommand k c) ∨ ∃ slot, e = .host (.storePixel k slot) := by
  simp only [rowTask, drawRow, drawPixel, List.mem_append, List.mem_cons, List.mem_flatMap, List.not_mem_nil,
    or_false] at h
  obtain (rfl | rfl | rfl) | ⟨j, -, rfl | rfl⟩ := h
  · exact .inl rfl
  · exact .inr (.inl ⟨_, rfl⟩)
  · exact .inr (.inl ⟨_, rfl⟩)
  · exact .inr (.inl ⟨_, rfl⟩)
  · exact .inr (.inr ⟨_, rfl⟩)

theorem awaits_of_mem_rowTask {run : RunInputs} {k i : Nat} {src : CommandSource} {e : Event}
    (h : e ∈ rowTask run k i src) : e.awaits = some k := by
  obtain rfl | ⟨c, rfl⟩ | ⟨slot, rfl⟩ := mem_rowTask h <;> rfl

/-- A row task sends no seed from a row's draw but the one it is given. -/
theorem eq_seedRow_of_mem_rowTask {run : RunInputs} {j k i row : Nat} {mul add : Word} {src : CommandSource}
    (h : Event.send j (.seedRow row mul add) ∈ rowTask run k i src) : src = .seedRow row mul add := by
  obtain h | ⟨_, h⟩ | ⟨_, h⟩ := mem_rowTask h
  · exact (Event.send.inj h).2.symm
  · exact nomatch h
  · exact nomatch h

theorem eventsOf_append (k : Nat) (es fs : List Event) : eventsOf k (es ++ fs) = eventsOf k es ++ eventsOf k fs :=
  List.filter_append ..

/-- Events that all concern one unit. -/
theorem eventsOf_of_awaits {j k : Nat} {es : List Event} (h : ∀ e ∈ es, e.awaits = some j) :
    eventsOf k es = if k = j then es else [] := by
  split_ifs with hk
  · exact List.filter_eq_self.2 fun e he => by simp [h e he, hk]
  · exact List.filter_eq_nil_iff.2 fun e he => by simp [h e he, Ne.symm hk]

/-! ## The slots of a run (20_memory.md R41) -/

/-- The rows' slots, one row after the other, are all slots in order. -/
theorem flatMap_rowSlots (run : RunInputs) (n : Nat) :
    (List.range n).flatMap (rowSlots run) = List.range (n * run.width.toNat) := by
  induction n with
  | zero => simp
  | succ n ih =>
    rw [List.range_succ, List.flatMap_append, ih, List.flatMap_singleton, Nat.succ_mul, List.range_add]
    rfl

/-- The rows in any order have all slots, each once. -/
theorem rowSlots_perm {run : RunInputs} {rows : List Nat} (h : rows.Perm (List.range run.height.toNat)) :
    (rows.flatMap (rowSlots run)).Perm (List.range (pixelCount run.width run.height)) := by
  rw [pixelCount, Nat.mul_comm, ← flatMap_rowSlots]
  exact h.flatMap_right _

theorem pixelSlot_lt {run : RunInputs} {i j : Nat} (hi : i < run.height.toNat) (hj : j < run.width.toNat) :
    pixelSlot run i j < pixelCount run.width run.height :=
  calc i * run.width.toNat + j < (i + 1) * run.width.toNat := by rw [Nat.succ_mul]; omega
    _ ≤ run.height.toNat * run.width.toNat := Nat.mul_le_mul_right _ hi
    _ = pixelCount run.width run.height := Nat.mul_comm ..

/-! ## The plan of a run (44_host_sequences.md R144, R147) -/

/-- Each slot gets its sample, each row its master draw. -/
def rasterPlan (c : Config.SeedConstants) (run : RunInputs) : RunPlan where
  pixel slot := sampleAt c run.seed run.mode (slot / run.width.toNat) (slot % run.width.toNat)
  draw := masterDraw c run.seed

theorem rasterPlan_pixel (c : Config.SeedConstants) {run : RunInputs} (i : Nat) {j : Nat} (hj : j < run.width.toNat) :
    (rasterPlan c run).pixel (pixelSlot run i j) = sampleAt c run.seed run.mode i j := by
  have hpos : 0 < run.width.toNat := Nat.zero_lt_of_lt hj
  have hdiv : pixelSlot run i j / run.width.toNat = i := by
    rw [pixelSlot, Nat.mul_comm, Nat.mul_add_div hpos, Nat.div_eq_of_lt hj, Nat.add_zero]
  have hmod : pixelSlot run i j % run.width.toNat = j := by
    rw [pixelSlot, Nat.mul_comm, Nat.mul_add_mod, Nat.mod_eq_of_lt hj]
  simp only [rasterPlan, hdiv, hmod]

/-- A row task from the row's seed follows the plan (44_host_sequences.md R149). -/
theorem followAll_rowTask_raster {c : Config.SeedConstants} {run : RunInputs} {v : UnitThread} {i : Nat}
    {src : CommandSource} (k : Nat)
    (hw : (rasterPlan c run).word v src = some (encode (.seed 0 (rowSeed c run.seed i)))) :
    ∃ v', (rasterPlan c run).followAll v (rowTask run k i src) = some v' ∧ v'.master = v.master := by
  obtain ⟨v', hv', hdrawing⟩ := followAll_rowTask (k := k) hw fun j hj => rasterPlan_pixel c i hj
  exact ⟨v', hv', hdrawing.master⟩

/-- The commands `es` carry out a run with the master generator on unit `mk`: they write every slot once, and every unit
follows the plan from whatever it holds. -/
structure CarriesOut (c : Config.SeedConstants) (run : RunInputs) (mk : Nat) (es : List Event) : Prop where
  events : ∀ e ∈ es, e.OfUnits
  slots : (storedSlots es).Perm (List.range (pixelCount run.width run.height))
  threads : ∀ k v, (k = mk → v.master.isSome = true) → ∃ v', (rasterPlan c run).followAll v (eventsOf k es) = some v'

/-- A rising list is determined by its members. -/
theorem eq_range_of_rising {l : List Nat} {n : Nat} (hrising : l.Pairwise (· < ·)) (hmem : ∀ j, j ∈ l ↔ j < n) :
    l = List.range n := by
  have hperm : l.Perm (List.range n) :=
    (List.perm_ext_iff_of_nodup hrising.nodup List.nodup_range).2 fun j => by rw [hmem, List.mem_range]
  exact hperm.eq_of_pairwise (fun a b _ _ hab hba => absurd hab (Nat.lt_asymm hba)) hrising List.pairwise_lt_range

section runs
variable {c : Config.SeedConstants} {run : RunInputs} {mk : Nat} {es seq : List Event} {s t : State}

/-- With a zero dimension there is nothing to carry out (44_host_sequences.md R142). -/
theorem CarriesOut.of_zero (hzero : run.width = 0 ∨ run.height = 0) : CarriesOut c run mk [] :=
  ⟨by simp, by rw [pixelCount_eq_zero hzero]; exact .nil, fun _ v _ => ⟨v, rfl⟩⟩

/-- The buffer with all slots stored as planned is the RasterBuffer (44_host_sequences.md R147). -/
theorem Stored.holdsRaster {slots : List Nat} {d : Buffer}
    (h : Stored (rasterPlan c run) slots (newBuffer run.base run.width run.height) s d t)
    (hslots : ∀ slot, slot ∈ slots ↔ slot < pixelCount run.width run.height) : HoldsRaster c run s t := by
  refine ⟨fun i j ch hi hj hch => ?_, fun a hout => h.others a fun slot hslot => ?_⟩
  · rw [← rasterPlan_pixel c i hj]
    exact h.pixels _ ((hslots _).2 (pixelSlot_lt hi hj)) ch hch
  · have hlt := (hslots slot).1 hslot
    simp only [Buffer.slotAddress, newBuffer]
    omega

/-- The allocated buffer is ready for the commands that carry the run out. -/
theorem CarriesOut.ready (h : CarriesOut c run mk es) (hdraws : drawsBeforeRows [] es = true)
    (hbuffer : s.buffer = some (newBuffer run.base run.width run.height)) :
    ∃ final, Ready (rasterPlan c run) mk final es (newBuffer run.base run.width run.height) s := by
  have hthreads := fun k => h.threads k (s.thread mk k) fun hk => by rw [State.thread, if_pos hk]; rfl
  choose final hfinal using hthreads
  refine ⟨final, h.events, h.slots.nodup_iff.2 List.nodup_range, hbuffer, fun slot hslot => ⟨?_, List.not_mem_nil⟩,
    ⟨[], hdraws, by simp⟩, hfinal⟩
  have hlt := List.mem_range.1 (h.slots.mem_iff.1 hslot)
  simp only [Buffer.holdsSlot_iff, newBuffer]
  omega

/-- The open buffer of a run is its finished one once it has all its slots on record. -/
theorem Stored.eq_finishedBuffer {p : RunPlan} {slots : List Nat} {d : Buffer}
    (h : Stored p slots (newBuffer run.base run.width run.height) s d t)
    (hslots : ∀ slot, slot ∈ slots ↔ slot < pixelCount run.width run.height) : d = finishedBuffer run := by
  have hwritten : d.written = List.range (pixelCount run.width run.height) :=
    eq_range_of_rising (h.rising .nil) fun slot => by rw [h.written, hslots, newBuffer]; simp
  have hbase := h.base
  have hbytes := h.bytes
  obtain ⟨base, bytes, written⟩ := d
  rw [finishedBuffer, Buffer.mk.injEq]
  exact ⟨hbase, hbytes, hwritten⟩

/-- A run whose commands carry it out ends with its RasterBuffer handed off, from any state it may start in. -/
theorem CarriesOut.runEnded (h : CarriesOut c run mk es) (hdraws : drawsBeforeRows [] es = true)
    (ha : s.agenda = runAround run es) (hready : s.readyForRun run)
    (hfits : run.width.toNat * run.height.toNat ≤ 2 ^ 32 - 1) : ∃ n t, RunsTo n s t ∧ RunEnded c run s t := by
  have hcommands : ∃ cmds, CarriesOut c run mk cmds ∧ drawsBeforeRows [] cmds = true ∧
      s.agenda = .host (.checkDimensions run.width run.height) ::
        .host (.allocate run.base run.width run.height) :: (cmds ++ [.host (.handOff run.width run.height)]) := by
    by_cases hzero : run.width = 0 ∨ run.height = 0
    · exact ⟨[], .of_zero hzero, rfl, by rw [ha, runAround, if_pos hzero]; rfl⟩
    · exact ⟨es, h, hdraws, by rw [ha, runAround, if_neg hzero]; rfl⟩
  obtain ⟨cmds, hcarries, hdraws', ha'⟩ := hcommands
  obtain ⟨u, hu, hcmdsAgenda, hopen, hhanded, hmem, -⟩ := runsTo_allocated ha' hfits hready
  obtain ⟨final, hcmds⟩ := hcarries.ready hdraws' hopen
  obtain ⟨n, t, d, ht, hagenda, hstored, -⟩ := hcmds.runs hcmdsAgenda
  have hslots : ∀ slot, slot ∈ storedSlots cmds ↔ slot < pixelCount run.width run.height := fun slot => by
    rw [hcarries.slots.mem_iff, List.mem_range]
  obtain rfl := hstored.eq_finishedBuffer hslots
  obtain ⟨hpixels, hothers⟩ := hstored.holdsRaster hslots
  have hhandedOff := runsTo_handedOff hagenda hstored.buffer rfl fun slot hslot => List.mem_range.2 hslot
  refine ⟨_, _, runsTo_add hu (runsTo_add ht hhandedOff), rfl, ⟨hpixels, fun a hout => ?_⟩, rfl,
    congrArg _ (hstored.handedOff.trans hhanded)⟩
  exact (hothers a hout).trans ((hmem a).trans (if_neg (by omega)))

end runs

/-! ## With the agenda used up, what is in flight completes (70_reset_and_hazards.md R197) -/

theorem mem_of_sparseFind {α : Type} {l : List (Nat × α)} {k : Nat} {v : α} (h : sparseFind l k = some v) :
    (k, v) ∈ l := by
  induction l with
  | nil => exact nomatch h
  | cons e rest ih =>
    obtain ⟨j, u⟩ := e
    rw [sparseFind] at h
    split_ifs at h with hj
    · rw [← hj, ← Option.some.inj h]
      exact List.mem_cons_self
    · exact List.mem_cons_of_mem _ (ih h)

/-- A busy port is not as an unlisted one. -/
theorem mem_ports_of_busy {s : State} {k : Nat} (h : s.busy k = true) : k ∈ s.ports.map Prod.fst := by
  cases hfind : sparseFind s.ports k with
  | some p => exact List.mem_map_of_mem (mem_of_sparseFind hfind)
  | none => simp [State.busy, State.port, sparseGet, hfind, Port.idle] at h

/-- The units with a command in flight. -/
def busyUnits (s : State) : Finset Nat := {k ∈ (s.ports.map Prod.fst).toFinset | s.busy k = true}

theorem mem_busyUnits {s : State} {k : Nat} : k ∈ busyUnits s ↔ s.busy k = true := by
  simpa [busyUnits] using fun h => by simpa using mem_ports_of_busy h

/-- A completion takes its unit off the busy ones. -/
theorem CompletedAt.busyUnits_ssubset {k : Nat} {s t : State} (h : CompletedAt k s t) (hk : s.busy k = true) :
    busyUnits t ⊂ busyUnits s := by
  refine (Finset.ssubset_iff_of_subset fun j hj => ?_).2 ⟨k, mem_busyUnits.2 hk, fun hmem => ?_⟩
  · have hne : j ≠ k := fun heq => by
      rw [mem_busyUnits, heq, h.idle] at hj
      exact nomatch hj
    rw [mem_busyUnits] at hj ⊢
    rwa [State.busy, (h.others j hne).2] at hj
  · exact nomatch h.idle.symm.trans (mem_busyUnits.1 hmem)

/-- Every command in flight completes, and the host and every unit's thread stay as they are. -/
theorem runsTo_settled (mk : Nat) {s : State} (ha : s.agenda = []) : ∃ n t, RunsTo n s t ∧ HostUnchanged s t ∧
    (∀ k, t.busy k = false) ∧ ∀ k, t.thread mk k = s.thread mk k := by
  induction hbusy : busyUnits s using Finset.strongInduction generalizing s with
  | H _ ih =>
    cases hfirst : s.firstBusy with
    | none =>
      refine ⟨0, s, rfl, .refl s, fun k => ?_, fun k => rfl⟩
      rw [← Bool.not_eq_true]
      exact fun hk => List.find?_eq_none.1 hfirst k (mem_ports_of_busy hk) hk
    | some k =>
      obtain ⟨u, hu, hcompleted⟩ := completeCommand_completes k s
      obtain ⟨n, t, ht, hhost, hidle, hthread⟩ := ih _ (hbusy ▸ hcompleted.busyUnits_ssubset (List.find?_some hfirst))
        (hcompleted.host.agenda.trans ha) rfl
      have hstep : step s = .next u := (step_of_agenda_nil ha hfirst).trans hu
      exact ⟨n + 1, t, runsTo_succ.2 ⟨u, hstep, ht⟩, hcompleted.host.trans hhost, hidle,
        fun j => (hthread j).trans (hcompleted.thread mk j)⟩

end Sys2Proof.Machine

namespace Sys2Proof.Machine

/-! ## The overlap of units (44_host_sequences.md R151, R153) -/

section overlap
variable {c : Config.SeedConstants} {run : RunInputs} {mk : Nat} {es seq : List Event}

/-- An overlap has the same events that await a unit, each as often. -/
theorem overlapOf.perm (h : overlapOf seq es) :
    (es.filter fun e => e.awaits.isSome).Perm (seq.filter fun e => e.awaits.isSome) := by
  refine List.perm_iff_count.2 fun e => ?_
  cases he : e.awaits with
  | none => rw [List.count_eq_zero.2 (by simp [he]), List.count_eq_zero.2 (by simp [he])]
  | some k =>
    have hcount : ∀ l : List Event, (l.filter fun e => e.awaits.isSome).count e = (eventsOf k l).count e := fun l => by
      rw [eventsOf, List.count_filter (by simp [he]), List.count_filter (by simp [he])]
    rw [hcount, hcount, h.2 k]

theorem mem_of_overlapOf {e : Event} {k : Nat} (h : overlapOf seq es) (he : e ∈ es) (hk : e.awaits = some k) :
    e ∈ seq := by
  have hmem : e ∈ eventsOf k es := List.mem_filter.2 ⟨he, by simp [hk]⟩
  rw [h.2 k] at hmem
  exact List.mem_of_mem_filter hmem

/-- Only events that await a unit write slots. -/
theorem storedSlots_filter (es : List Event) : storedSlots (es.filter fun e => e.awaits.isSome) = storedSlots es := by
  rw [storedSlots, List.filterMap_filter, storedSlots]
  refine List.filterMap_congr fun e _ => ?_
  cases e with
  | host a => cases a <;> rfl
  | _ => rfl

/-- What carries out a run does so with any overlap. -/
theorem CarriesOut.of_overlapOf (h : CarriesOut c run mk seq) (ho : overlapOf seq es) : CarriesOut c run mk es := by
  refine ⟨fun e he => ?events, ?slots, fun k v hv => ?threads⟩
  case events =>
    obtain hne | hcomplete := ho.1 e he
    · obtain ⟨k, hk⟩ := Option.ne_none_iff_exists'.1 hne
      exact h.events e (mem_of_overlapOf ho he hk)
    · exact .inr hcomplete
  case slots =>
    have hperm : (storedSlots es).Perm (storedSlots seq) := by
      rw [← storedSlots_filter es, ← storedSlots_filter seq]
      exact ho.perm.filterMap _
    exact hperm.trans h.slots
  case threads => exact ho.2 k ▸ h.threads k v hv

/-- Where no seed is made from a row's draw, none comes before its draw. -/
theorem drawsBeforeRows_of_no_seedRow (h : ∀ k row mul add, Event.send k (.seedRow row mul add) ∉ es)
    (taken : List Nat) : drawsBeforeRows taken es = true := by
  induction es generalizing taken with
  | nil => rfl
  | cons e es ih =>
    have htail := ih fun k row mul add hmem => h k row mul add (List.mem_cons_of_mem e hmem)
    cases e with
    | send k src =>
      cases src with
      | seedRow row mul add => exact absurd List.mem_cons_self (h k row mul add)
      | _ => exact htail taken
    | host a =>
      cases a with
      | takeDraw k row => exact htail (row :: taken)
      | _ => exact htail taken
    | _ => exact htail taken

end overlap

/-! ## The three ways to carry out a run (44_host_sequences.md R150, R151) -/

section realisations
variable {c : Config.SeedConstants} {run : RunInputs} {k mk : Nat} {v : UnitThread}

theorem ofUnits_of_mem_rowTask {i : Nat} {src : CommandSource} {e : Event} (hk : unitExists k = true)
    (h : e ∈ rowTask run k i src) : e.OfUnits := .inl ⟨k, awaits_of_mem_rowTask h, hk⟩

/-- Of a row task that starts from a seed made as planned, each unit sees all or nothing, and follows the plan. -/
theorem followAll_eventsOf_rowTask {i j : Nat} {src : CommandSource}
    (hw : (rasterPlan c run).word v src = some (encode (.seed 0 (rowSeed c run.seed i)))) :
    ∃ v', (rasterPlan c run).followAll v (eventsOf k (rowTask run j i src)) = some v' ∧ v'.master = v.master ∧
      (k ≠ j → v' = v) := by
  rw [eventsOf_of_awaits fun e => awaits_of_mem_rowTask]
  split_ifs with hk
  · obtain ⟨v', hv', hmaster⟩ := followAll_rowTask_raster j hw
    exact ⟨v', hv', hmaster, fun hne => absurd hk hne⟩
  · exact ⟨v, rfl, rfl, fun _ => rfl⟩

/-! ### The master draws in the host's own arithmetic -/

theorem followAll_multiUnitRows (tasks : List (Nat × Nat)) (v : UnitThread) :
    ∃ v', (rasterPlan c run).followAll v (eventsOf k (tasks.flatMap (multiUnitRow c run))) = some v' := by
  induction tasks generalizing v with
  | nil => exact ⟨v, rfl⟩
  | cons task tasks ih =>
    have hseed : (rasterPlan c run).word v (.word (encode (.seed 0 (rowSeed c run.seed task.1)))) = some _ := rfl
    obtain ⟨u, hu, -⟩ := followAll_eventsOf_rowTask (k := k) (j := task.2) hseed
    obtain ⟨w, hw⟩ := ih u
    refine ⟨w, ?_⟩
    rw [List.flatMap_cons, eventsOf_append, RunPlan.followAll_append, multiUnitRow, hu, Option.bind_some, hw]

theorem storedSlots_multiUnitRows (tasks : List (Nat × Nat)) :
    storedSlots (tasks.flatMap (multiUnitRow c run)) = (tasks.map Prod.fst).flatMap (rowSlots run) := by
  rw [storedSlots_flatMap, List.flatMap_map]
  simp only [multiUnitRow, storedSlots_rowTask]

theorem multiUnitRows_carryOut {tasks : List (Nat × Nat)}
    (hrows : (tasks.map Prod.fst).Perm (List.range run.height.toNat))
    (hunits : ∀ task ∈ tasks, unitExists task.2 = true) : CarriesOut c run mk (tasks.flatMap (multiUnitRow c run)) := by
  refine ⟨fun e he => ?events, ?slots, fun k v _ => followAll_multiUnitRows tasks v⟩
  case events =>
    obtain ⟨task, htask, he⟩ := List.mem_flatMap.1 he
    exact ofUnits_of_mem_rowTask (hunits task htask) he
  case slots =>
    rw [storedSlots_multiUnitRows]
    exact rowSlots_perm hrows

/-! ### The master generator on a unit -/

/-- The master initialisation leaves m0 in the master unit and with the host (44_host_sequences.md R143, R150). -/
theorem followAll_singleUnitMaster (hmaster : v.master.isSome = true) :
    ∃ v', (rasterPlan c run).followAll v (singleUnitMaster c run k) = some v' ∧
      v'.Drawing v.regs.mode (some (masterStart c run.seed)) (masterStart c run.seed) := by
  obtain ⟨m, hm⟩ := Option.isSome_iff_exists.1 hmaster
  rw [singleUnitMaster, followAll_sendCommand (failedCheck_seed _), followAll_sendCommand (failedCheck_step _ rfl),
    followAll_sendCommand (failedCheck_rdreg_zero rfl),
    followAll_takeMaster (v := ((v.after _).after _).after _) hm rfl, RunPlan.followAll_nil]
  exact ⟨_, rfl, rfl, rfl, rfl, rfl⟩

/-- The master state for row `i` is the one after `i` draws, and its next draw is the planned one. -/
theorem rasterPlan_draw (c : Config.SeedConstants) (run : RunInputs) (i : Nat) :
    (rasterPlan c run).draw i = mix (mixN i (masterStart c run.seed)) := mixN_succ i _

theorem rasterPlan_rowSeed (c : Config.SeedConstants) (run : RunInputs) (i : Nat) :
    rowSeed c run.seed i = aff ((rasterPlan c run).draw i) c.rowMul c.rowAdd := rfl

/-! ### One unit for everything -/

theorem followAll_singleUnitRow {i : Nat} (hmaster : v.master = some (mixN i (masterStart c run.seed))) :
    ∃ v', (rasterPlan c run).followAll v (singleUnitRow c run k i) = some v' ∧
      v'.master = some (mixN (i + 1) (masterStart c run.seed)) := by
  have hseed : (rasterPlan c run).word v .seedMaster = some (encode (.seed 0 (mixN i (masterStart c run.seed)))) := by
    rw [RunPlan.word, hmaster, Option.map_some]
  rw [singleUnitRow, List.cons_append, followAll_send hseed (failedCheck_seed _), List.cons_append,
    followAll_sendCommand (failedCheck_next rfl), List.cons_append,
    followAll_takeMaster (v := (v.after _).after _) hmaster rfl, List.nil_append, mixN_succ]
  refine followAll_rowTask_raster k ?_
  rw [rasterPlan_rowSeed, rasterPlan_draw]
  rfl

theorem followAll_singleUnitRows (hmaster : v.master = some (masterStart c run.seed)) (n : Nat) :
    ∃ v', (rasterPlan c run).followAll v ((List.range n).flatMap (singleUnitRow c run k)) = some v' ∧
      v'.master = some (mixN n (masterStart c run.seed)) := by
  induction n with
  | zero => exact ⟨v, rfl, hmaster⟩
  | succ n ih =>
    obtain ⟨u, hu, humaster⟩ := ih
    rw [List.range_succ, List.flatMap_append, RunPlan.followAll_append, hu, Option.bind_some, List.flatMap_singleton]
    exact followAll_singleUnitRow humaster

theorem awaits_of_mem_singleUnitMaster {e : Event} (h : e ∈ singleUnitMaster c run k) : e.awaits = some k := by
  simp only [singleUnitMaster, List.mem_cons, List.not_mem_nil, or_false] at h
  obtain rfl | rfl | rfl | rfl := h <;> rfl

theorem awaits_of_mem_singleUnitRow {i : Nat} {e : Event} (h : e ∈ singleUnitRow c run k i) : e.awaits = some k := by
  rw [singleUnitRow, List.mem_append] at h
  obtain h | h := h
  · simp only [List.mem_cons, List.not_mem_nil, or_false] at h
    obtain rfl | rfl | rfl := h <;> rfl
  · exact awaits_of_mem_rowTask h

/-- The commands of the single-unit realisation. -/
def singleUnitCommands (c : Config.SeedConstants) (run : RunInputs) (k : Nat) : List Event :=
  singleUnitMaster c run k ++ (List.range run.height.toNat).flatMap (singleUnitRow c run k)

theorem awaits_of_mem_singleUnitCommands {e : Event} (h : e ∈ singleUnitCommands c run k) : e.awaits = some k := by
  obtain h | h := List.mem_append.1 h
  · exact awaits_of_mem_singleUnitMaster h
  · obtain ⟨i, -, h⟩ := List.mem_flatMap.1 h
    exact awaits_of_mem_singleUnitRow h

theorem seedRow_notMem_singleUnitCommands {j row : Nat} {mul add : Word} :
    Event.send j (.seedRow row mul add) ∉ singleUnitCommands c run k := by
  intro h
  obtain h | h := List.mem_append.1 h
  · simp [singleUnitMaster, sendCommand] at h
  · obtain ⟨i, -, h⟩ := List.mem_flatMap.1 h
    obtain h | h := List.mem_append.1 h
    · simp [sendCommand] at h
    · exact nomatch eq_seedRow_of_mem_rowTask h

theorem storedSlots_singleUnitCommands :
    storedSlots (singleUnitCommands c run k) = (List.range run.height.toNat).flatMap (rowSlots run) := by
  have hrow : ∀ i, storedSlots (singleUnitRow c run k i) = rowSlots run i := fun i => by
    rw [singleUnitRow, storedSlots_append, storedSlots_rowTask]
    rfl
  rw [singleUnitCommands, storedSlots_append, storedSlots_flatMap, funext hrow]
  rfl

theorem singleUnitCommands_carryOut (hk : unitExists k = true) : CarriesOut c run k (singleUnitCommands c run k) := by
  refine ⟨fun e he => .inl ⟨k, awaits_of_mem_singleUnitCommands he, hk⟩, ?slots, fun j v hv => ?threads⟩
  case slots =>
    rw [storedSlots_singleUnitCommands]
    exact rowSlots_perm (.refl _)
  case threads =>
    rw [eventsOf_of_awaits fun e => awaits_of_mem_singleUnitCommands]
    split_ifs with hj
    · obtain ⟨u, hu, hdrawing⟩ := followAll_singleUnitMaster (c := c) (run := run) (k := k) (hv hj)
      obtain ⟨w, hw, -⟩ := followAll_singleUnitRows (c := c) (run := run) (k := k) hdrawing.master run.height.toNat
      exact ⟨w, by rw [singleUnitCommands, RunPlan.followAll_append, hu, Option.bind_some, hw]⟩
    · exact ⟨v, rfl⟩

/-! ### The master generator on one of several units -/

/-- Before row `n`'s draw the host has the master state after `n` draws; while `held`, the master unit has it too. -/
def MasterAt (c : Config.SeedConstants) (run : RunInputs) (n : Nat) (held : Bool) (v : UnitThread) : Prop :=
  v.master = some (mixN n (masterStart c run.seed)) ∧
    (held = true → v.regs.seeded = true ∧ v.regs.x = mixN n (masterStart c run.seed))

/-- NEXT on the master unit, and its answer taken, is the next draw. -/
theorem followAll_nextDraw {n : Nat} (h : MasterAt c run n true v) :
    ∃ v', (rasterPlan c run).followAll v [sendCommand mk (.next 0 0), .host (.takeDraw mk n)] = some v' ∧
      MasterAt c run (n + 1) true v' := by
  obtain ⟨hmaster, hheld⟩ := h
  obtain ⟨hseeded, hx⟩ := hheld rfl
  have hdraw : mix v.regs.x = (rasterPlan c run).draw n := by rw [hx, rasterPlan_draw]
  have hresp : (v.after (.next 0 0)).resp = some ((rasterPlan c run).draw n) := congrArg some hdraw
  rw [followAll_sendCommand (failedCheck_next hseeded), followAll_takeDraw (v := v.after _) hmaster hresp,
    RunPlan.followAll_nil]
  refine ⟨_, rfl, ?_, fun _ => ⟨hseeded, ?_⟩⟩
  · rw [rasterPlan_draw, mixN_succ]
  · exact hdraw.trans (by rw [rasterPlan_draw, mixN_succ])

/-- A draw from the master unit, which holds the master state or has it restored. -/
theorem followAll_masterDrawTask {n : Nat} {restore held : Bool} (h : MasterAt c run n held v)
    (hkept : (restore || held) = true) : ∃ v', (rasterPlan c run).followAll v (masterDrawTask mk restore n) = some v' ∧
      MasterAt c run (n + 1) true v' := by
  cases restore with
  | false => exact followAll_nextDraw ((Bool.false_or held).symm.trans hkept ▸ h)
  | true =>
    obtain ⟨hmaster, -⟩ := h
    have hseed : (rasterPlan c run).word v .seedMaster = some (encode (.seed 0 (mixN n (masterStart c run.seed)))) := by
      rw [RunPlan.word, hmaster, Option.map_some]
    rw [masterDrawTask, if_pos rfl, List.cons_append, followAll_send hseed (failedCheck_seed _)]
    exact followAll_nextDraw ⟨hmaster, fun _ => ⟨rfl, rfl⟩⟩

theorem awaits_of_mem_masterDrawTask {restore : Bool} {i : Nat} {e : Event} (h : e ∈ masterDrawTask mk restore i) :
    e.awaits = some mk := by
  obtain h | h := List.mem_append.1 h
  · obtain ⟨-, h⟩ := List.mem_ite_nil_right.1 h
    rw [List.mem_singleton.1 h, Event.awaits]
  · simp only [List.mem_cons, List.not_mem_nil, or_false] at h
    obtain rfl | rfl := h <;> rfl

/-- A row task keeps the host's master state, and the master unit's too if it runs elsewhere. -/
theorem MasterAt.of_rowTask {n j : Nat} {held : Bool} {u : UnitThread} (h : MasterAt c run n held v)
    (hmaster : u.master = v.master) (hother : j ≠ mk → u = v) : MasterAt c run n (held && j != mk) u := by
  obtain ⟨hv, hheld⟩ := h
  refine ⟨hmaster.trans hv, fun hkept => ?_⟩
  obtain ⟨hbefore, hne⟩ := Bool.and_eq_true_iff.1 hkept
  rw [hother (bne_iff_ne.1 hne)]
  exact hheld hbefore

/-- Draws store nothing. -/
theorem storedSlots_jobs (jobs : List Job) : storedSlots (jobs.flatMap (Job.events c run mk)) =
    ((rowTasks jobs).map Prod.fst).flatMap (rowSlots run) := by
  induction jobs with
  | nil => rfl
  | cons job jobs ih =>
    rw [List.flatMap_cons, storedSlots_append, ih]
    cases job with
    | draw restore i => cases restore <;> rfl
    | row i k =>
      rw [Job.events, storedSlots_rowTask]
      rfl

/-- Every unit follows the plan through the remaining jobs, the master unit from the master state for their first draw. -/
theorem followAll_jobs {jobs : List Job} {n m : Nat} {held : Bool} (hdraws : drawRows jobs = List.range' n m)
    (hkept : masterKept mk held jobs = true) (h : k = mk → MasterAt c run n held v) :
    ∃ v', (rasterPlan c run).followAll v (eventsOf k (jobs.flatMap (Job.events c run mk))) = some v' := by
  induction jobs generalizing n m held v with
  | nil => exact ⟨v, rfl⟩
  | cons job jobs ih =>
    rw [List.flatMap_cons, eventsOf_append]
    simp only [RunPlan.followAll_append]
    cases job with
    | draw restore i =>
      obtain ⟨rfl, -, hrest⟩ := List.range'_eq_cons_iff.1 hdraws.symm
      obtain ⟨hrestored, hkept'⟩ := Bool.and_eq_true_iff.1 hkept
      rw [Job.events, eventsOf_of_awaits fun e => awaits_of_mem_masterDrawTask]
      split_ifs with hk
      · obtain ⟨u, hu, hmaster⟩ := followAll_masterDrawTask (mk := mk) (h hk) hrestored
        rw [hu]
        exact ih hrest hkept' fun _ => hmaster
      · exact ih hrest hkept' fun heq => absurd heq hk
    | row i j =>
      have hseed : (rasterPlan c run).word v (.seedRow i c.rowMul c.rowAdd) = some _ := rfl
      obtain ⟨u, hu, hmaster, hother⟩ := followAll_eventsOf_rowTask (k := k) (j := j) hseed
      rw [Job.events, hu]
      exact ih hdraws hkept fun hk => (h hk).of_rowTask hmaster fun hne => hother (hk ▸ hne.symm)

theorem jobs_carryOut {jobs : List Job} (hmk : unitExists mk = true)
    (hunits : ∀ task ∈ rowTasks jobs, unitExists task.2 = true) (hdraws : drawRows jobs = List.range run.height.toNat)
    (hrows : ((rowTasks jobs).map Prod.fst).Perm (List.range run.height.toNat))
    (hkept : masterKept mk true jobs = true) : CarriesOut c run mk (masterUnitCommands c run mk jobs) := by
  refine ⟨fun e he => ?events, ?slots, fun k v hv => ?threads⟩
  case events =>
    obtain he | he := List.mem_append.1 he
    · exact .inl ⟨mk, awaits_of_mem_singleUnitMaster he, hmk⟩
    · obtain ⟨job, hjob, he⟩ := List.mem_flatMap.1 he
      cases job with
      | draw restore i => exact .inl ⟨mk, awaits_of_mem_masterDrawTask he, hmk⟩
      | row i k => exact ofUnits_of_mem_rowTask (hunits (i, k) (List.mem_filterMap.2 ⟨_, hjob, rfl⟩)) he
  case slots =>
    rw [masterUnitCommands, storedSlots_append, storedSlots_jobs]
    exact rowSlots_perm hrows
  case threads =>
    rw [List.range_eq_range'] at hdraws
    rw [masterUnitCommands, eventsOf_append]
    simp only [RunPlan.followAll_append]
    rw [eventsOf_of_awaits fun e => awaits_of_mem_singleUnitMaster]
    split_ifs with hk
    · obtain ⟨u, hu, hdrawing⟩ := followAll_singleUnitMaster (c := c) (run := run) (k := mk) (hv hk)
      rw [hu]
      exact followAll_jobs hdraws hkept fun _ => ⟨hdrawing.master, fun _ => ⟨hdrawing.seeded, hdrawing.x⟩⟩
    · exact followAll_jobs hdraws hkept fun heq => absurd heq hk

end realisations

/-! ## A row task by itself (44_host_sequences.md R149) -/

/-- The samples of row `i` alone, from the row's seed `x`. -/
def rowPlan (run : RunInputs) (i : Nat) (x : Word) : RunPlan where
  pixel slot := pixelEncode (mixN (slot - i * run.width.toNat + 1) (mixN Config.warmup x)) run.mode
  draw _ := 0

theorem rowPlan_pixel (run : RunInputs) (i j : Nat) (x : Word) : (rowPlan run i x).pixel (pixelSlot run i j) =
    pixelEncode (mixN (j + 1) (mixN Config.warmup x)) run.mode := by
  simp only [rowPlan, pixelSlot, Nat.add_sub_cancel_left]

theorem rowSlots_nodup (run : RunInputs) (i : Nat) : (rowSlots run i).Nodup :=
  List.nodup_range.map fun _ _ h => Nat.add_left_cancel h

/-- A row task whose slots are free can be performed, and leaves its unit with the row drawn. -/
theorem ready_rowTask {run : RunInputs} {k i : Nat} {b : Buffer} {s : State} (x : Word) (hk : unitExists k = true)
    (hb : s.buffer = some b) (hfree : ∀ j, j < run.width.toNat →
      b.holdsSlot (pixelSlot run i j) = true ∧ pixelSlot run i j ∉ b.written) :
    ∃ final, (final k).Drawing run.mode (s.thread k k).master (mixN run.width.toNat (mixN Config.warmup x)) ∧
      Ready (rowPlan run i x) k final (rowTask run k i (.word (encode (.seed 0 x)))) b s := by
  have hnone : ∀ j row mul add, Event.send j (.seedRow row mul add) ∉ rowTask run k i (.word (encode (.seed 0 x))) :=
    fun j row mul add h => nomatch eq_seedRow_of_mem_rowTask h
  have hthreads : ∀ j, ∃ v, (rowPlan run i x).followAll (s.thread k j)
      (eventsOf j (rowTask run k i (.word (encode (.seed 0 x))))) = some v ∧
      (j = k → v.Drawing run.mode (s.thread k j).master (mixN run.width.toNat (mixN Config.warmup x))) := fun j => by
    rw [eventsOf_of_awaits fun e => awaits_of_mem_rowTask]
    split_ifs with hj
    · obtain ⟨v, hv, hdrawing⟩ := followAll_rowTask (src := .word (encode (.seed 0 x))) rfl
        fun j _ => rowPlan_pixel run i j x
      exact ⟨v, hv, fun _ => hdrawing⟩
    · exact ⟨_, rfl, fun heq => absurd heq hj⟩
  choose final hfinal hdrawing using hthreads
  refine ⟨final, hdrawing k rfl, fun e => ofUnits_of_mem_rowTask hk, ?nodup, hb, ?free,
    ⟨[], drawsBeforeRows_of_no_seedRow hnone [], by simp⟩, hfinal⟩
  case nodup =>
    rw [storedSlots_rowTask]
    exact rowSlots_nodup run i
  case free =>
    rw [storedSlots_rowTask, rowSlots, List.forall_mem_map]
    exact fun j hj => hfree j (List.mem_range.1 hj)

/-! ## The obligations of 44_host_sequences.md about row tasks and runs -/

/-- Settles O45: the row task follows its own plan, and whatever is left in flight then completes. -/
theorem rowTaskStoresItsRow : Obligations.RowTaskStoresItsRow := by
  intro run k i v b s ha hk hb hfree
  obtain ⟨final, hdrawing, hready⟩ := ready_rowTask v hk hb hfree
  obtain ⟨m, t, c, ht, hagenda, hstored, hthread⟩ := hready.runs (ha.trans (List.append_nil _).symm)
  obtain ⟨n, u, hu, hhost, hidle, hsettled⟩ := runsTo_settled k hagenda
  have hregs : u.unit k = (final k).regs := by rw [← hthread k, ← hsettled k, thread_of_idle (hidle k)]
  obtain ⟨hseeded, hmode, -, hx⟩ := hdrawing
  have hslots : ∀ slot, slot ∈ rowSlots run i ↔ ∃ j < run.width.toNat, pixelSlot run i j = slot := fun slot => by
    simp [rowSlots]
  rw [storedSlots_rowTask] at hstored
  refine ⟨m + n, u, runsTo_add ht hu, hhost.agenda.trans hagenda, hidle, hregs ▸ hx, hregs ▸ hseeded, hregs ▸ hmode,
    fun j ch hj hch => ?pixels, fun a hout => ?others, hhost.handedOff.trans hstored.handedOff, c,
    hhost.buffer.trans hstored.buffer, hstored.base, hstored.bytes, fun slot => ?written⟩
  case pixels =>
    rw [hhost.memRead, hstored.pixels _ ((hslots _).2 ⟨j, hj, rfl⟩) ch hch, rowPlan_pixel]
    rfl
  case others =>
    refine (hhost.memRead a).trans (hstored.others a fun slot hslot => ?_)
    obtain ⟨j, hj, rfl⟩ := (hslots slot).1 hslot
    simp only [Buffer.slotAddress, pixelSlot] at hout ⊢
    omega
  case written =>
    rw [hstored.written, hslots]
    simp only [eq_comm]

/-- Settles O46: the commands send no seed of a row's draw, so that they carry out the run as they stand. -/
theorem singleUnitRunGivesTheRaster : Obligations.SingleUnitRunGivesTheRaster := by
  intro c run k s ha hk hready hfits
  exact (singleUnitCommands_carryOut hk).runEnded
    (drawsBeforeRows_of_no_seedRow (fun _ _ _ _ => seedRow_notMem_singleUnitCommands) []) ha hready hfits

/-- Settles O47: the row tasks carry out the run one after the other, and so with any overlap. -/
theorem overlappedRowsGiveTheRaster : Obligations.OverlappedRowsGiveTheRaster := by
  intro c run tasks es s ha hoverlap hrows hunits hready hfits
  have hcarries := (multiUnitRows_carryOut (c := c) (mk := 0) hrows hunits).of_overlapOf hoverlap
  refine hcarries.runEnded (drawsBeforeRows_of_no_seedRow (fun k row mul add hmem => ?_) []) ha hready hfits
  obtain ⟨task, -, hmem⟩ := List.mem_flatMap.1 (mem_of_overlapOf hoverlap hmem rfl)
  exact nomatch eq_seedRow_of_mem_rowTask hmem

/-- Settles O52: the jobs carry out the run one after the other, and so with any overlap that keeps each row's seed
after its draw. -/
theorem unitDrawnSeedsGiveTheRaster : Obligations.UnitDrawnSeedsGiveTheRaster := by
  intro c run mk jobs es s ha ⟨hdraws, hrows, hkept, hbefore, hoverlap⟩ hmk hunits hready hfits
  exact ((jobs_carryOut hmk hunits hdraws hrows hkept).of_overlapOf hoverlap).runEnded hbefore ha hready hfits

end Sys2Proof.Machine

namespace Sys2Proof.Machine

/-! ## The statement's well-formedness and the machine's checks (30_encoding.md R63, R66; 60_exceptions.md R174)

`Instr.wellFormed` is written apart from `firstFailedCheck`. Here the two are tied together once. -/

/-- Well-formed is passing checks 2 and 3. -/
theorem wellFormed_iff (i : Instr) :
    i.wellFormed = true ↔ i.rsv = 0 ∧ immAdmitted (operandForm i) i.imm = true := by
  cases i with
  | nop | next | enc | draw | clrerr => simp [Instr.wellFormed, Instr.rsv, Instr.imm, operandForm]
  | seed | step | enci => simp [Instr.wellFormed, Instr.rsv, operandForm]
  | setmode => simp [Instr.wellFormed, Instr.rsv, Instr.imm, operandForm, immAdmitted_bit]
  | rdreg => simp [Instr.wellFormed, Instr.rsv, Instr.imm, operandForm, immAdmitted_index, or_assoc]

/-- A command that is not well formed fails with RESERVED_FIELD, seeded or not. -/
theorem failsWith_of_not_wellFormed {i : Instr} {s : State} (h : i.wellFormed = false) : FailsWith i s 2 := by
  rw [← Bool.not_eq_true, wellFormed_iff, not_and_or, Bool.not_eq_true] at h
  exact failsWith_reservedField h

/-- A well-formed command that lacks a needed seed fails with UNSEEDED. -/
theorem failsWith_of_wellFormed_unseeded {i : Instr} {s : State} (h : i.wellFormed = true)
    (hneeds : needsSeeded i = true) (hunseeded : s.regs.seeded = false) : FailsWith i s 3 :=
  have ⟨hrsv, himm⟩ := (wellFormed_iff i).1 h
  failsWith_unseeded hrsv himm hneeds hunseeded

theorem failedCheck_of_wellFormed {i : Instr} {u : UnitState} (h : i.wellFormed = true)
    (hseed : needsSeeded i = true → u.seeded = true) : failedCheck i u = none :=
  have ⟨hrsv, himm⟩ := (wellFormed_iff i).1 h
  (failedCheck_eq_none_iff i u).2 ⟨hrsv, himm, hseed⟩

/-- A command whose checks pass records no error; only CLRERR touches the error record (10_state.md R27, R28). -/
theorem errorRecord_of_passed {i : Instr} {s t : State} (hpass : failedCheck i s.regs = none)
    (ht : exec i s = .next t) : t.regs.err = s.regs.err ∧ t.regs.ecode = s.regs.ecode ∨ i = .clrerr 0 0 := by
  by_cases hop : i.opcode = 0x08
  · exact .inr (eq_clrerr_of_passed hop hpass)
  · left
    rw [regs_of_exec ht, outcomeOf_of_passed hpass]
    exact effectOf_errorRecord s.regs hop

/-! ## An idle system (60_exceptions.md R184) -/

theorem firstBusy_eq_none {s : State} (h : ∀ k, s.busy k = false) : s.firstBusy = none :=
  List.find?_eq_none.2 fun k _ => by simp [h k]

/-- With nothing to do and nothing in flight, a step leaves the state as it is. -/
theorem step_of_idle {s : State} (ha : s.agenda = []) (hidle : ∀ k, s.busy k = false) : step s = .next s := by
  simp [step, advance, ha, firstBusy_eq_none hidle]

/-- A state that one step leaves as it is, any run leaves as it is. -/
theorem runsTo_self {s : State} (h : step s = .next s) (n : Nat) : RunsTo n s s := by
  induction n with
  | zero => rfl
  | succ n ih => exact runsTo_succ.2 ⟨s, h, ih⟩

/-! ## What stops a hand-off of an open buffer (60_exceptions.md R179, 44_host_sequences.md R152) -/

section handOff
variable {s : State} {b : Buffer} {width height : Word}

theorem hostHandOff_shapeMismatch (hb : s.buffer = some b) (hbytes : b.bytes ≠ 3 * pixelCount width height) :
    hostHandOff width height s = .fault .shapeMismatch := by
  simp [hostHandOff, hb, hbytes]

theorem hostHandOff_incomplete {slot : Nat} (hb : s.buffer = some b) (hbytes : b.bytes = 3 * pixelCount width height)
    (hslot : slot < pixelCount width height) (hunwritten : slot ∉ b.written) :
    hostHandOff width height s = .refused (.nonconformingHost .incompleteHandOff) := by
  have hnot : ¬ b.allWritten (pixelCount width height) = true :=
    fun hall => hunwritten ((b.allWritten_iff _).1 hall slot hslot)
  simp [hostHandOff, hb, hbytes, hnot]

end handOff

/-! ## The obligations of 60_exceptions.md -/

/-- Settles O15: along the checks in their order, check 1 by the decoder and the others by `wellFormed_iff`. -/
theorem checksDecideTheSingleError : Obligations.ChecksDecideTheSingleError := by
  intro w s
  cases hw : decode w with
  | illegalOpcode op => exact performWord_of_illegalOpcode hw s
  | command i =>
    have hexec := exec_eq_commit_outcomeOf i s
    refine ⟨_, (performWord_of_command hw s).trans hexec, ?_⟩
    dsimp only
    split_ifs with hill hunseeded
    · exact failed_of_failsWith (failsWith_of_not_wellFormed hill) hexec
    · obtain ⟨hneeds, hseeded⟩ := hunseeded
      exact failed_of_failsWith (failsWith_of_wellFormed_unseeded (eq_true_of_ne_false hill) hneeds hseeded) hexec
    · have hseed : needsSeeded i = true → s.regs.seeded = true :=
        fun hneeds => eq_true_of_ne_false fun hseeded => hunseeded ⟨hneeds, hseeded⟩
      exact errorRecord_of_passed (failedCheck_of_wellFormed (eq_true_of_ne_false hill) hseed) hexec

/-- Settles O36. -/
theorem idleSystemStaysAsItIs : Obligations.IdleSystemStaysAsItIs :=
  fun _ ha hidle => runsTo_self (step_of_idle ha hidle)

/-- Settles O42: a hand-off awaits nothing, so it happens at once, with the outcome its lemma says. -/
theorem handOffChecksTheShape : Obligations.HandOffChecksTheShape := by
  intro s width height rest b ha hb
  have hstep : step s = hostHandOff width height { s with agenda := rest } := step_of_awaits_none ha rfl
  have hcount : width.toNat * height.toNat * 3 = 3 * pixelCount width height := Nat.mul_comm _ 3
  rw [hcount, hstep]
  refine ⟨fun hbytes => ?mismatch, fun hbytes hall => ?complete, fun hbytes ⟨slot, hslot, hunwritten⟩ => ?incomplete⟩
  case mismatch => exact hostHandOff_shapeMismatch hb hbytes
  case complete =>
    exact ⟨_, hostHandOff_of_complete hb hbytes hall, rfl, rfl, rfl, fun _ => rfl, fun _ => ⟨rfl, rfl⟩⟩
  case incomplete => exact hostHandOff_incomplete hb hbytes hslot hunwritten

end Sys2Proof.Machine

namespace Sys2Proof.Machine

/-! ## A reset event (70_reset_and_hazards.md R190) -/

theorem performEvent_reset {k : Nat} (hk : unitExists k = true) (s : State) :
    performEvent (.reset k) s = .next (s.resetUnit k) := by
  simp [performEvent, hk]

/-- A reset awaits nothing: it happens at once, with a command in flight or without. -/
theorem step_of_reset {s : State} {k : Nat} {rest : List Event} (ha : s.agenda = .reset k :: rest)
    (hk : unitExists k = true) : step s = .next (({ s with agenda := rest } : State).resetUnit k) :=
  (step_of_awaits_none ha rfl).trans (performEvent_reset hk _)

/-- The command in flight is abandoned. -/
theorem busy_resetUnit_same (s : State) (k : Nat) : (s.resetUnit k).busy k = false := by
  rw [not_busy_iff, State.port_resetUnit_same]

/-! ## A send (70_reset_and_hazards.md R194) -/

/-- A unit that completes the command in flight on its port answers it. -/
theorem CompletedAt.answers {k : Nat} {s t : State} (h : CompletedAt k s t) (hbusy : s.busy k = true) :
    ∃ v, (t.port k).resp = some v := by
  obtain ⟨w, hw⟩ := (busy_iff s k).1 hbusy
  have hport : t.port k = (afterCompletion (s.unit k) (s.port k)).2 := congrArg Prod.snd h.regsPort
  exact ⟨(wordOutcome w (s.unit k)).2, by rw [hport, afterCompletion, hw]⟩

/-- An event that awaits a command in flight stays on the agenda, and the unit answers first. -/
theorem step_answers_of_awaits {s : State} {e : Event} {rest : List Event} {k : Nat} (ha : s.agenda = e :: rest)
    (he : e.awaits = some k) (hbusy : s.busy k = true) :
    ∃ t v, step s = .next t ∧ t.agenda = s.agenda ∧ t.busy k = false ∧ (t.port k).resp = some v := by
  obtain ⟨t, ht, hcompleted⟩ := completeCommand_completes k s
  obtain ⟨v, hv⟩ := hcompleted.answers hbusy
  exact ⟨t, v, (step_of_awaits_busy ha he hbusy).trans ht, hcompleted.host.agenda, hcompleted.idle, hv⟩

/-- The word a source resolves to does not depend on the agenda. -/
theorem State.withAgenda_resolve (s : State) (es : List Event) (src : CommandSource) :
    ({ s with agenda := es } : State).resolve src = s.resolve src := by
  cases src <;> rfl

/-- A send to a unit with none in flight happens at once. -/
theorem step_of_send_idle {s : State} {k : Nat} {src : CommandSource} {rest : List Event} {w : CommandWord}
    (ha : s.agenda = .send k src :: rest) (hidle : s.busy k = false) (hk : unitExists k = true)
    (hw : s.resolve src = some w) : step s = .next (({ s with agenda := rest } : State).handOver k w) :=
  (step_of_awaits_idle ha rfl hidle).trans (performEvent_send hk ((s.withAgenda_resolve rest src).trans hw))

/-! ## How soon the commands in flight complete once the agenda is used up (70_reset_and_hazards.md R197)

`runsTo_settled` says that they do; here the units still busy, counted by `busyUnits`, bound the steps it takes. -/

theorem card_busyUnits_le (s : State) : (busyUnits s).card ≤ s.ports.length := by
  calc (busyUnits s).card
    _ ≤ (s.ports.map Prod.fst).toFinset.card := Finset.card_filter_le ..
    _ ≤ (s.ports.map Prod.fst).length := List.toFinset_card_le _
    _ = s.ports.length := List.length_map _

/-- With the agenda used up, either every unit is idle or one step makes fewer units busy. -/
theorem idle_or_step_busyUnits_ssubset {s : State} (ha : s.agenda = []) :
    (∀ k, s.busy k = false) ∨ ∃ u, step s = .next u ∧ u.agenda = [] ∧ busyUnits u ⊂ busyUnits s := by
  cases hfirst : s.firstBusy with
  | none =>
    refine .inl fun k => eq_false_of_ne_true fun hk => ?_
    exact List.find?_eq_none.1 hfirst k (mem_ports_of_busy hk) hk
  | some k =>
    obtain ⟨u, hu, hcompleted⟩ := completeCommand_completes k s
    exact .inr ⟨u, (step_of_agenda_nil ha hfirst).trans hu, hcompleted.host.agenda.trans ha,
      hcompleted.busyUnits_ssubset (List.find?_some hfirst)⟩

/-- Every command in flight completes within as many steps as units are busy. -/
theorem runsTo_idle_within_busyUnits {s : State} (ha : s.agenda = []) :
    ∃ n t, n ≤ (busyUnits s).card ∧ RunsTo n s t ∧ t.agenda = [] ∧ ∀ k, t.busy k = false := by
  induction hbusy : busyUnits s using Finset.strongInduction generalizing s with
  | H _ ih =>
    subst hbusy
    obtain hidle | ⟨u, hu, hagenda, hfewer⟩ := idle_or_step_busyUnits_ssubset ha
    · exact ⟨0, s, Nat.zero_le _, rfl, ha, hidle⟩
    · obtain ⟨n, t, hn, hrun, hrest⟩ := ih _ hfewer hagenda rfl
      exact ⟨n + 1, t, hn.trans_lt (Finset.card_lt_card hfewer), runsTo_succ.2 ⟨u, hu, hrun⟩, hrest⟩

/-! ## The obligations of 70_reset_and_hazards.md -/

/-- Settles O31: the reset happens at once, and the rest is the frame of `State.resetUnit`. -/
theorem unitResetAffectsThatUnitOnly : Obligations.UnitResetAffectsThatUnitOnly := by
  intro s k rest ha hk
  refine ⟨_, step_of_reset ha hk, rfl, ?_⟩
  rw [State.unit_resetUnit_same, State.port_resetUnit_same]
  exact ⟨rfl, rfl, rfl, rfl, rfl, rfl, busy_resetUnit_same _ k, rfl,
    fun _ hj => ⟨State.unit_resetUnit_ne _ k hj, State.port_resetUnit_ne _ k hj⟩, fun _ => rfl, rfl, rfl, rfl, rfl⟩

/-- Settles O34: a send awaits its unit's command in flight, and with none the word is handed over, which touches only
the port. -/
theorem sendWaitsForTheResponse : Obligations.SendWaitsForTheResponse := by
  intro s k src rest ha
  refine ⟨step_answers_of_awaits ha rfl, fun hidle hk w hw => ?_⟩
  exact ⟨_, step_of_send_idle ha hidle hk hw, rfl, State.port_handOver_same .., fun _ => rfl,
    fun _ hj => State.port_handOver_ne _ k w hj, fun _ => rfl, rfl, rfl, rfl, rfl⟩

/-- Settles O35: the busy units are among the listed ports. -/
theorem commandsInFlightComplete : Obligations.CommandsInFlightComplete := by
  intro s ha
  obtain ⟨n, t, hn, hrun, hagenda, hidle⟩ := runsTo_idle_within_busyUnits ha
  exact ⟨n, t, hn.trans (card_busyUnits_le s), hrun, hagenda, hidle⟩

end Sys2Proof.Machine
